-- ==== Sys2Proof/Config.lean ====
section
/-! DEFINITION. What an implementation fixes (the word width) and the values the spec leaves free.

* The width is a parameter (R7, U5): the whole machine is defined for every `W`, as an argument of its types, and
  `Admissible` are the widths R7 allows. `Config.W` is R7's reference value 64, at which the host's interface runs the
  machine (log 1).
* The opaque constants are the free values of 93_implementation_defined.md (U1, U2): they have no body, so no proof can
  learn a value of theirs (log 5, log 7). -/

namespace Sys2Proof.Config

/-- The reference word width (R7). -/
abbrev W : Nat := 64

/-- The widths of R7. -/
abbrev Admissible (W : Nat) : Prop :=
  32 ≤ W ∧ W % 8 = 0

/-- Bytes of one slot, `W/8` (R51). -/
abbrev slotBytes (W : Nat := Config.W) : Nat := W / 8

/-- Number of register slots (R9, R20). -/
abbrev slotCount : Nat := 16

/-- A free `W`-bit value for every draw: a result register read while `BUSY = 1` (R55, R217, U1), a working register
after a reset event (R210, U2). -/
opaque freeWord {W : Nat} : Nat → BitVec W

/-- The same for the signed `W+1`-bit working registers (R36, R37, U2). -/
opaque freeSigned {W : Nat} : Nat → BitVec (W + 1)

/-- The same for the double-width working register `prod` (R36, R37, U2). -/
opaque freeDouble {W : Nat} : Nat → BitVec (2 * W)

end Sys2Proof.Config
end

