-- ==== Sys2Proof/Word.lean ====
section
/-! DEFINITION. The machine's word types (R10, R11, R36, R37) at every width `W`; with no width named, the reference width. -/

namespace Sys2Proof

/-- A value of `U_W`: the contents of a slot (R11, R20). -/
abbrev Word (W : Nat := Config.W) := BitVec W

/-- A signed working register of `W+1` bits (R36, R37); its value is `BitVec.toInt`. -/
abbrev SWord (W : Nat := Config.W) := BitVec (W + 1)

/-- A value of `U_2W`: the exact product register (R8, R36). -/
abbrev DWord (W : Nat := Config.W) := BitVec (2 * W)

end Sys2Proof
end

