-- ==== Sys2Proof/Syntax.lean ====
section
/-! DEFINITION. The commands of the block: one constructor per row of spec/opcode_table.json (R2, R74). A command word has
no operand field (R70, R73), so no constructor has an argument. -/

namespace Sys2Proof

inductive Instr where
  /-- `GCD`, R91. -/
  | gcd
  /-- `XGCD`, R95. -/
  | xgcd
  /-- `MULMOD`, R111. -/
  | mulmod
  /-- `POWMOD`, R115. -/
  | powmod
  /-- `FACTOR`, R132. -/
  | factor
  /-- `MRROUND`, R135. -/
  | mrround
  /-- `MRTEST`, R141. -/
  | mrtest
  deriving DecidableEq, Repr

end Sys2Proof
end

