-- ==== Sys2Proof/WellFormed.lean ====
section
/-! DEFINITION. Which terms are well formed. A command has no operand, so every term of `Instr` is (R70, R73); what can be
ill formed is a command WORD (R71) and a bus ACCESS (R51, R54). -/

namespace Sys2Proof

/-- Every command is well formed: there is no field that could be out of range (R73, R80). -/
def Instr.wellFormed : Instr → Bool
  | .gcd | .xgcd | .mulmod | .powmod | .factor | .mrround | .mrtest => true

/-- R71, by the fields of R70: `c[W-1:8] = 0` and `c[7:0]` is one of the seven opcodes. The decoder is written from the
match and mask columns of R74 instead, and `Obligations.LegalWordsAreExactlyTheSeven` says that the two agree. -/
def WellFormed.legalWord {W : Nat} (c : Word W) : Bool :=
  c.extractLsb' 8 (W - 8) == 0
    && ([0x01, 0x02, 0x03, 0x04, 0x05, 0x06, 0x07] : List (BitVec 8)).contains (c.extractLsb' 0 8)

/-- R51, R54: the only accesses are `W/8` bytes wide, at one of the 16 slot offsets from `BASE`. -/
def WellFormed.slotAccess (offset bytes : Nat) (W : Nat := Config.W) : Bool :=
  bytes == Config.slotBytes W && offset % Config.slotBytes W == 0 && decide (offset / Config.slotBytes W < Config.slotCount)

end Sys2Proof
end

