-- ==== Sys2Proof/Decode.lean ====
section
/-! DEFINITION. The command decoder and encoder (R70, R71, R74), at every width. The decoder is R74's table read by its match
and mask columns over the whole word; the encoder is built from the fields of R70. -/

namespace Sys2Proof

/-- The `OPCODE` column of R74. -/
def Instr.opcode : Instr → BitVec 8
  | .gcd => 0x01
  | .xgcd => 0x02
  | .mulmod => 0x03
  | .powmod => 0x04
  | .factor => 0x05
  | .mrround => 0x06
  | .mrtest => 0x07

/-- One row of R74: a word stands for `instr` when `word AND mask = pattern`. -/
structure OpcodeRow (W : Nat) where
  instr : Instr
  pattern : Word W
  mask : Word W
  deriving DecidableEq, Repr

/-- R74 (spec/opcode_table.json): the mask is all ones in every row. -/
def opcodeRows (W : Nat) : List (OpcodeRow W) :=
  [ ⟨.gcd, 0x01, BitVec.allOnes W⟩,
    ⟨.xgcd, 0x02, BitVec.allOnes W⟩,
    ⟨.mulmod, 0x03, BitVec.allOnes W⟩,
    ⟨.powmod, 0x04, BitVec.allOnes W⟩,
    ⟨.factor, 0x05, BitVec.allOnes W⟩,
    ⟨.mrround, 0x06, BitVec.allOnes W⟩,
    ⟨.mrtest, 0x07, BitVec.allOnes W⟩ ]

/-- Does the word fit the row (R74)? -/
def OpcodeRow.fits {W : Nat} (r : OpcodeRow W) (c : Word W) : Bool :=
  (c &&& r.mask) == r.pattern

/-- The command a word written to `CMD` names, or none for an illegal word (R71, R75). -/
def decode {W : Nat} (c : Word W) : Option Instr :=
  ((opcodeRows W).find? (OpcodeRow.fits · c)).map OpcodeRow.instr

/-- The word of a command: `OPCODE` in bits 7:0, `ZERO` above (R70). -/
def encode (i : Instr) (W : Nat := Config.W) : Word W :=
  ((0 : BitVec (W - 8)) ++ i.opcode).setWidth W

/-- Bits 7:0 of a word, which `STATUS.OPC` takes (R34, R72). -/
def opcodeField {W : Nat} (c : Word W) : BitVec 8 :=
  c.extractLsb' 0 8

/-- The command `STATUS.OPC` names, which the controller runs (R39). -/
def decodeOpcode (op : BitVec 8) : Option Instr :=
  [Instr.gcd, .xgcd, .mulmod, .powmod, .factor, .mrround, .mrtest].find? (fun i => i.opcode == op)

/-- What the decoder reads from an opcode-table row's bits: one word (R70) of the reference width. A number that does not fit
one word is no command. -/
def decodeTableWord (nbits w : Nat) : Option Instr :=
  if w % 2 ^ nbits < 2 ^ Config.W then decode (BitVec.ofNat Config.W (w % 2 ^ nbits)) else none

end Sys2Proof
end

