-- ==== Sys2Proof/Machine/State.lean ====
section
/-! DEFINITION. The machine's state as plain data (10_state.md), the agents' events, the reasons a step can stop, and the
state after reset. -/

namespace Sys2Proof.Machine

/-- The 16 slots by name (R20, R51). -/
inductive Reg where
  | cmd | status | opa | opb | opm | rounds | res0 | res1 | res2 | witness
  /-- Slots 10 to 15 (R42). -/
  | reserved (k : Fin 6)
  deriving DecidableEq, Repr

/-- The phases of R38. -/
inductive Phase where
  | idle | run | waitw | done
  deriving DecidableEq, Repr

/-- The error codes of R181 (60_exceptions.md). -/
inductive ErrorCode where
  | argN | argRounds | argModulus | argWitness | illegalCmd | internal
  deriving DecidableEq, Repr

/-- The fields of `STATUS` (R29). The reserved bits read as 0 and no agent can write the word, so they hold no state. -/
structure Status where
  busy : Bool
  done : Bool
  err : Bool
  wreq : Bool
  hzd : Bool
  fatal : Bool
  errcode : BitVec 4
  opc : BitVec 8
  deriving DecidableEq, Repr

/-- The controller's working registers (R36, R37), and the two copies `fa`, `fb` of `MULMOD`'s factors (R36 last paragraph,
R111; log 9). -/
structure Working (W : Nat) where
  make ::
  ga : Word W
  gb : Word W
  r0 : Word W
  r1 : Word W
  s0 : SWord W
  s1 : SWord W
  t0 : SWord W
  t1 : SWord W
  q : Word W
  acc : Word W
  pb : Word W
  pe : Word W
  pm : Word W
  prod : DWord W
  mn : Word W
  mr : Word W
  md : Word W
  ma : Word W
  mx : Word W
  mi : Word W
  mj : Word W
  mk : Word W
  fa : Word W
  fb : Word W
  deriving DecidableEq, Repr

/-- Where the controller stands in the pseudocode of the running command (DESIGN CHOICE, log 8). -/
inductive Stage where
  /-- Before the argument checks, the first thing a command's rule does in phase RUN (R72). -/
  | entry
  /-- The loop of R91 or R94. -/
  | euclid
  /-- The loop of R114. -/
  | power
  /-- The loop of R131. -/
  | decompose
  /-- About to ask for a witness, or waiting for it (R142). -/
  | request
  /-- A witness has been taken and is not yet checked (R139). -/
  | witness
  /-- The squaring loop of R134. -/
  | square
  deriving DecidableEq, Repr

/-- Who makes an access (R52, R57). The number tells several hosts or sources apart (R60); the block never looks at it
(R195, log 12). -/
inductive Agent where
  | host (k : Nat)
  | source (k : Nat)
  deriving DecidableEq, Repr

/-- One step of an agent (R57). Addresses are byte offsets from `BASE` (R51, log 11). -/
inductive Event (W : Nat) where
  /-- A read access of `bytes` bytes (R55 when it is a slot access). -/
  | read (who : Agent) (offset bytes : Nat)
  /-- A write access of `bytes` bytes (R56 when it is a slot access). -/
  | write (who : Agent) (offset bytes : Nat) (v : Word W)
  /-- The controller's turn (R57): a step in phase RUN, nothing in the other phases. -/
  | controller
  /-- The reset event (R210). -/
  | reset
  deriving DecidableEq, Repr

/-- A value returned to a reader (R55, log 4). -/
structure ReadBack (W : Nat) where
  who : Agent
  reg : Reg
  value : Word W
  deriving DecidableEq, Repr

/-- The whole machine at word width `W` (R7). `schedule`, `reads` and `draws` are the model's own: the agent steps still to come (log 2), the
values reads have returned, newest first (log 4), and the number of free values drawn (log 5). -/
structure State.At (W : Nat) where
  opa : Word W
  opb : Word W
  opm : Word W
  rounds : Word W
  res0 : Word W
  res1 : Word W
  res2 : Word W
  status : Status
  work : Working W
  stage : Stage
  schedule : List (Event W)
  reads : List (ReadBack W)
  draws : Nat
  deriving DecidableEq, Repr

/-- The machine of the host's interface: the reference width (R7, log 1). -/
abbrev State := State.At Config.W

/-- Why the machine stops with a fault. -/
inductive Fault where
  /-- Raised by the controller's turn in phase RUN when `STATUS.OPC` names no command, or the stage is none of that
  command's: the spec gives no rule for such a state. Safe (log 13): no run from reset reaches one
  (`Obligations.LegalStatesNeverFault`). -/
  | noControllerRule
  deriving DecidableEq, Repr

/-- Why a step is refused. -/
inductive Refusal where
  /-- Raised only by `exec` for a command that has no meaning yet; there is none. Safe. -/
  | notModelled (mnemonic : String)
  /-- Raised by a read or write that is narrower or wider than a slot, misaligned, or outside the 16 slots: R54 and U7 say
  that a model refuses it. Safe (log 11). -/
  | notASlotAccess
  deriving DecidableEq, Repr

/-- The outcome of a step of this machine. -/
abbrev Result (W : Nat) := Host.Outcome (State.At W) Fault Refusal

/-- `STATUS = 0` (R43). -/
def Status.reset : Status :=
  { busy := false, done := false, err := false, wreq := false, hzd := false, fatal := false, errcode := 0, opc := 0 }

/-- The working registers in `State.reset`. The spec leaves them unspecified (R43); every one is 0 here (DESIGN CHOICE,
log 6; no command reads one before writing it, R41). -/
def Working.reset {W : Nat} : Working W :=
  { ga := 0, gb := 0, r0 := 0, r1 := 0, s0 := 0, s1 := 0, t0 := 0, t1 := 0, q := 0, acc := 0, pb := 0, pe := 0, pm := 0,
    prod := 0, mn := 0, mr := 0, md := 0, ma := 0, mx := 0, mi := 0, mj := 0, mk := 0, fa := 0, fb := 0 }

/-- The machine of width `W` right after power-on reset (R43, R210): every host-visible register 0, phase IDLE, nothing
scheduled. -/
def State.At.reset (W : Nat) : State.At W :=
  { opa := 0, opb := 0, opm := 0, rounds := 0, res0 := 0, res1 := 0, res2 := 0, status := Status.reset,
    work := Working.reset, stage := .entry, schedule := [], reads := [], draws := 0 }

/-- The same at the reference width. -/
def State.reset : State :=
  State.At.reset Config.W

end Sys2Proof.Machine
end

