-- ==== Sys2Proof/Machine/Flags.lean ====
section
/-! DEFINITION. `STATUS`: its word, its phase, and every change of its flags (R29 to R34, R38, R72, R191). -/

namespace Sys2Proof.Machine

/-- The code of an error, the value of `ERRCODE` (R181). -/
def ErrorCode.code : ErrorCode → BitVec 4
  | .argN => 1
  | .argRounds => 2
  | .argModulus => 3
  | .argWitness => 4
  | .illegalCmd => 5
  | .internal => 6

/-- The word a read of `STATUS` returns, from the top field of R29's layout down to bit 0; reserved bits are 0. -/
def Status.word (f : Status) (W : Nat := Config.W) : Word W :=
  ((0 : BitVec (W - 24)) ++ f.opc ++ (0 : BitVec 4) ++ f.errcode ++ (0 : BitVec 2) ++ BitVec.ofBool f.fatal
    ++ BitVec.ofBool f.hzd ++ BitVec.ofBool f.wreq ++ BitVec.ofBool f.err ++ BitVec.ofBool f.done
    ++ BitVec.ofBool f.busy).setWidth W

/-- R38: the phase is the value of (`BUSY`, `DONE`, `WREQ`). The four combinations R38 does not list are no phase. -/
def Status.phase (f : Status) : Option Phase :=
  match f.busy, f.done, f.wreq with
  | false, false, false => some .idle
  | true, false, false => some .run
  | true, false, true => some .waitw
  | false, true, false => some .done
  | _, _, _ => none

/-- R72: a `CMD` write is dropped in this case. -/
def Status.refusesCommands (f : Status) : Bool :=
  f.busy || f.fatal

/-- R72 up to the test for legality: the word is accepted, the last command's report is cleared, `OPC` takes the word's
bits 7:0. This is also the return from a recoverable error (R193). -/
def Status.accepted (op : BitVec 8) (f : Status) : Status :=
  { f with done := false, err := false, errcode := 0, opc := op }

/-- R72, legal word: `BUSY` is set; the phase is RUN. -/
def Status.started (f : Status) : Status :=
  { f with busy := true }

/-- R33: normal completion leaves `ERR` and `ERRCODE` as acceptance cleared them. -/
def Status.completed (f : Status) : Status :=
  { f with busy := false, wreq := false, done := true }

/-- R191: error entry. `FATAL` is set by code 6 only (R34). -/
def Status.failed (e : ErrorCode) (f : Status) : Status :=
  { f with busy := false, wreq := false, done := true, err := true, errcode := e.code,
           fatal := f.fatal || decide (e = .internal) }

/-- R32: a write was dropped because of a hazard. -/
def Status.hazard (f : Status) : Status :=
  { f with hzd := true }

/-- R142: the controller asks for a witness; the phase is WAITW. -/
def Status.witnessAsked (f : Status) : Status :=
  { f with wreq := true }

/-- R139: a witness is taken; the phase is RUN again. -/
def Status.witnessTaken (f : Status) : Status :=
  { f with wreq := false }

end Sys2Proof.Machine
end

