-- ==== Sys2Proof/Machine/Operands.lean ====
section
/-! DEFINITION. Values and operands: two's complement (R12), the exact product and the modular multiplier (R8, R110), the
argument checks (R132, R137, R138), and the copies of the operand registers that each command takes at acceptance
(R36 last paragraph, R72, R73). -/

namespace Sys2Proof.Machine

variable {W : Nat}

/-- `tc_W` of R12. -/
def tc (x : Int) : Word W :=
  BitVec.ofInt W x

/-- `sval_W` of R12. -/
def sval (v : Word W) : Int :=
  if v.getLsbD (W - 1) then (v.toNat : Int) - 2 ^ W else v.toNat

/-- The exact double-width product (R8, R110). -/
def product (a b : Word W) : DWord W :=
  BitVec.ofNat (2 * W) (a.toNat * b.toNat)

/-- The remainder of a double-width product by a modulus; it fits `W` bits when the modulus is not 0 (R110). -/
def reduce (p : DWord W) (m : Word W) : Word W :=
  BitVec.ofNat W (p.toNat % m.toNat)

/-- The modular multiplier, `mulmod(a, b, m)` of R110 on words: the exact product, reduced. -/
def mulmodWord (a b m : Word W) : Word W :=
  reduce (product a b) m

/-- `candidate_ok(n)`, R138. -/
def candidateOk (n : Word W) : Bool :=
  n.getLsbD 0 && decide (3 ≤ n.toNat)

/-- `witness_ok(n, a)`, R137. -/
def witnessOk (n a : Word W) : Bool :=
  decide (2 ≤ a.toNat) && decide (a.toNat + 2 ≤ n.toNat)

/-- What `GCD` copies at acceptance (R91). -/
def copyGcd (s : State.At W) : Working W :=
  { s.work with ga := s.opa, gb := s.opb }

/-- What `XGCD` copies at acceptance: `(r0, r1) <- (a, b)` (R94, R95). -/
def copyXgcd (s : State.At W) : Working W :=
  { s.work with r0 := s.opa, r1 := s.opb }

/-- What `MULMOD` copies at acceptance (R111; log 9). -/
def copyMulmod (s : State.At W) : Working W :=
  { s.work with fa := s.opa, fb := s.opb, pm := s.opm }

/-- What `POWMOD` copies at acceptance: base, exponent and modulus (R115). That the base, not yet reduced, is held in `pb` and
the exponent in `pe` until R114's first lines run is the model's choice (log 9). -/
def copyPowmod (s : State.At W) : Working W :=
  { s.work with pb := s.opa, pe := s.opb, pm := s.opm }

/-- What `FACTOR` copies at acceptance (R132). -/
def copyFactor (s : State.At W) : Working W :=
  { s.work with mn := s.opm }

/-- What `MRROUND` copies at acceptance (R135). -/
def copyMrround (s : State.At W) : Working W :=
  { s.work with mn := s.opm, ma := s.opa }

/-- What `MRTEST` copies at acceptance (R141). -/
def copyMrtest (s : State.At W) : Working W :=
  { s.work with mn := s.opm, mk := s.rounds }

end Sys2Proof.Machine
end

