-- ==== Sys2Proof/Machine/Ops.lean ====
section
/-! DEFINITION. The shared operations: slots and accesses (R20, R51 to R54), command issue (R72), error entry (R191), normal
completion (R33), the two register primitives (R55, R56), witness delivery (R139) and the reset event (R210). -/

namespace Sys2Proof.Machine

variable {W : Nat}

/-- The register of slot `i` (R20, R51); there is none above 15. -/
def Reg.ofSlot : Nat → Option Reg
  | 0 => some .cmd
  | 1 => some .status
  | 2 => some .opa
  | 3 => some .opb
  | 4 => some .opm
  | 5 => some .rounds
  | 6 => some .res0
  | 7 => some .res1
  | 8 => some .res2
  | 9 => some .witness
  | 10 => some (.reserved 0)
  | 11 => some (.reserved 1)
  | 12 => some (.reserved 2)
  | 13 => some (.reserved 3)
  | 14 => some (.reserved 4)
  | 15 => some (.reserved 5)
  | _ => none

/-- The slot number of a register (R20, R51). -/
def Reg.slot : Reg → Nat
  | .cmd => 0
  | .status => 1
  | .opa => 2
  | .opb => 3
  | .opm => 4
  | .rounds => 5
  | .res0 => 6
  | .res1 => 7
  | .res2 => 8
  | .witness => 9
  | .reserved k => 10 + k.val

/-- The byte offset of a register from `BASE` (R51). -/
def Reg.offset (r : Reg) (W : Nat := Config.W) : Nat :=
  r.slot * Config.slotBytes W

/-- The byte address of a register on a platform that puts the block at `base` (R51, U6). -/
def Reg.address (base : Nat) (r : Reg) (W : Nat := Config.W) : Nat :=
  base + r.offset W

/-- The register an access reaches, or none when it is no slot access (R51, R54, U7). -/
def regOfAccess (offset bytes : Nat) (W : Nat := Config.W) : Option Reg :=
  if bytes = Config.slotBytes W ∧ offset % Config.slotBytes W = 0 then Reg.ofSlot (offset / Config.slotBytes W) else none

/-- R53: the byte at the `k`-th address of a slot is bits `8k+7` to `8k` of the register. -/
def slotByte (v : Word W) (k : Nat) : BitVec 8 :=
  v.extractLsb' (8 * k) 8

/-- A dropped write that is a hazard (R32): `HZD` is all that changes. -/
def dropWithHazard (s : State.At W) : State.At W :=
  { s with status := s.status.hazard }

/-- Error entry, `raise E(code)` (R191). -/
def raiseError (e : ErrorCode) (s : State.At W) : State.At W :=
  { s with status := s.status.failed e }

/-- Normal completion, `complete` (R33): the results the command's rule names, `none` for a result register it does not
name, and the flags, in one step. -/
def complete (res0 : Word W) (res1 res2 : Option (Word W)) (s : State.At W) : State.At W :=
  { s with res0 := res0, res1 := res1.getD s.res1, res2 := res2.getD s.res2, status := s.status.completed }

/-- Command issue of a legal command whose operand copies are `copies` (R72): dropped, or accepted with the phase RUN. -/
def issue (op : BitVec 8) (copies : Working W) (s : State.At W) : State.At W :=
  if s.status.refusesCommands then dropWithHazard s
  else { s with status := (s.status.accepted op).started, work := copies, stage := .entry }

/-- Command issue of an illegal word (R72, R75): dropped, or accepted into an error. -/
def issueIllegal (c : Word W) (s : State.At W) : State.At W :=
  if s.status.refusesCommands then dropWithHazard s
  else raiseError .illegalCmd { s with status := s.status.accepted (opcodeField c) }

/-- Is the value of this read unspecified (R55, R217)? -/
def readIsFree (r : Reg) (s : State.At W) : Bool :=
  s.status.busy && (r = .res0 || r = .res1 || r = .res2)

/-- The value of `RegRead` (R55). -/
def readValue (r : Reg) (s : State.At W) : Word W :=
  if readIsFree r s then Config.freeWord s.draws
  else
    match r with
    | .status => s.status.word W
    | .opa => s.opa
    | .opb => s.opb
    | .opm => s.opm
    | .rounds => s.rounds
    | .res0 => s.res0
    | .res1 => s.res1
    | .res2 => s.res2
    | .cmd | .witness | .reserved _ => 0

/-- `RegRead` (R55): the value goes to the reader; no register changes. -/
def regRead (who : Agent) (r : Reg) (s : State.At W) : State.At W :=
  { s with reads := ⟨who, r, readValue r s⟩ :: s.reads,
           draws := if readIsFree r s then s.draws + 1 else s.draws }

/-- A write to an operand register, whose effect when it is taken is `taken` (R56, R215). -/
def writeOperand (taken s : State.At W) : State.At W :=
  if s.status.busy then dropWithHazard s else taken

/-- A write to `WITNESS`: the second half of `draw_witness()` when a witness is wanted (R139), else a hazard (R216). -/
def deliverWitness (a : Word W) (s : State.At W) : State.At W :=
  if s.status.wreq then
    { s with status := s.status.witnessTaken, work := { s.work with ma := a }, stage := .witness }
  else dropWithHazard s

/-- The working registers after a reset event: unspecified, so each is a free value of its own draw (R210, U2, log 7). -/
def unspecifiedWorking (k : Nat) : Working W :=
  { ga := Config.freeWord k, gb := Config.freeWord (k + 1), r0 := Config.freeWord (k + 2),
    r1 := Config.freeWord (k + 3), s0 := Config.freeSigned k, s1 := Config.freeSigned (k + 1),
    t0 := Config.freeSigned (k + 2), t1 := Config.freeSigned (k + 3), q := Config.freeWord (k + 4),
    acc := Config.freeWord (k + 5), pb := Config.freeWord (k + 6), pe := Config.freeWord (k + 7),
    pm := Config.freeWord (k + 8), prod := Config.freeDouble k, mn := Config.freeWord (k + 9),
    mr := Config.freeWord (k + 10), md := Config.freeWord (k + 11), ma := Config.freeWord (k + 12),
    mx := Config.freeWord (k + 13), mi := Config.freeWord (k + 14), mj := Config.freeWord (k + 15),
    mk := Config.freeWord (k + 16), fa := Config.freeWord (k + 17), fb := Config.freeWord (k + 18) }

/-- How many draws `unspecifiedWorking` uses. -/
def workingDraws : Nat := 19

/-- The reset event (R210, R211): host-visible registers as in R43, working registers unspecified. What the agents still
have to do and what they have read is outside the block and stays. -/
def resetBlock (s : State.At W) : State.At W :=
  { (State.At.reset W) with work := unspecifiedWorking s.draws, schedule := s.schedule, reads := s.reads,
                            draws := s.draws + workingDraws }

/-- The event of writing the command word `c` to `CMD` as a whole slot (R56, R72). -/
def commandWriteEvent (c : Word W) : Event W :=
  .write (.host 0) (Reg.cmd.offset W) (Config.slotBytes W) c

end Sys2Proof.Machine
end

