-- ==== Sys2Proof/Machine/GcdXgcd.lean ====
section
/-! DEFINITION. The extended-GCD engine: `GCD` and `XGCD` (40_gcd_xgcd.md). `exec…` is the issue of the command (R72),
`iter…` one step of the controller while it runs. -/

namespace Sys2Proof.Machine

variable {W : Nat}

/-- `GCD`, issue (R72, R91). -/
def execGcd (s : State.At W) : Result W :=
  .next (issue Instr.gcd.opcode (copyGcd s) s)

/-- "normalizes order internally" (R91). -/
def orderPair (w : Working W) : Working W :=
  if w.ga.toNat < w.gb.toNat then { w with ga := w.gb, gb := w.ga } else w

/-- One pass of the loop body of R91. -/
def gcdPass (w : Working W) : Working W :=
  { w with ga := w.gb, gb := BitVec.ofNat W (w.ga.toNat % w.gb.toNat) }

/-- `GCD`, one controller step (R91). -/
def iterGcd (s : State.At W) : Result W :=
  match s.stage with
  | .entry => .next { s with work := orderPair s.work, stage := .euclid }
  | .euclid =>
    if s.work.gb = 0 then .next (complete s.work.ga none none s)
    else .next { s with work := gcdPass s.work }
  | .power | .decompose | .request | .witness | .square => .fault .noControllerRule

/-- `XGCD`, issue (R72, R95). -/
def execXgcd (s : State.At W) : Result W :=
  .next (issue Instr.xgcd.opcode (copyXgcd s) s)

/-- `(s0, s1) <- (1, 0)`, `(t0, t1) <- (0, 1)` (R94). -/
def startCoefficients (w : Working W) : Working W :=
  { w with s0 := 1, s1 := 0, t0 := 0, t1 := 1 }

/-- `c0 - q * c1`, computed in Z and put into a `W+1`-bit register (R36, R94; it always fits, R96; log 18). -/
def nextCoefficient (q : Word W) (c0 c1 : SWord W) : SWord W :=
  BitVec.ofInt (W + 1) (c0.toInt - (q.toNat : Int) * c1.toInt)

/-- One pass of the loop body of R94: the three pairs change together, with one quotient. -/
def xgcdPass (w : Working W) : Working W :=
  let q := BitVec.ofNat W (w.r0.toNat / w.r1.toNat)
  { w with q := q,
           r0 := w.r1, r1 := BitVec.ofNat W (w.r0.toNat - q.toNat * w.r1.toNat),
           s0 := w.s1, s1 := nextCoefficient q w.s0 w.s1,
           t0 := w.t1, t1 := nextCoefficient q w.t0 w.t1 }

/-- `XGCD`, one controller step (R94, R95). -/
def iterXgcd (s : State.At W) : Result W :=
  match s.stage with
  | .entry => .next { s with work := startCoefficients s.work, stage := .euclid }
  | .euclid =>
    if s.work.r1 = 0 then .next (complete s.work.r0 (some (tc s.work.s0.toInt)) (some (tc s.work.t0.toInt)) s)
    else .next { s with work := xgcdPass s.work }
  | .power | .decompose | .request | .witness | .square => .fault .noControllerRule

end Sys2Proof.Machine
end

