-- ==== Sys2Proof/Machine/ModMulPowMod.lean ====
section
/-! DEFINITION. The modular multiplier and the exponentiation unit: `MULMOD` and `POWMOD` (41_modmul_powmod.md). -/

namespace Sys2Proof.Machine

variable {W : Nat}

/-- `MULMOD`, issue (R72, R111). -/
def execMulmod (s : State.At W) : Result W :=
  .next (issue Instr.mulmod.opcode (copyMulmod s) s)

/-- `MULMOD`, its one controller step: the check of the modulus, the exact product, the remainder (R111, R222). -/
def iterMulmod (s : State.At W) : Result W :=
  match s.stage with
  | .entry =>
    if s.work.pm = 0 then .next (raiseError .argModulus s)
    else
      let p := product s.work.fa s.work.fb
      .next (complete (reduce p s.work.pm) none none { s with work := { s.work with prod := p } })
  | .euclid | .power | .decompose | .request | .witness | .square => .fault .noControllerRule

/-- `POWMOD`, issue (R72, R115). -/
def execPowmod (s : State.At W) : Result W :=
  .next (issue Instr.powmod.opcode (copyPowmod s) s)

/-- The first two lines of R114 for base `b`, exponent `e` and modulus `m` (`m` not 0). -/
def powerStart (b e m : Word W) (w : Working W) : Working W :=
  { w with acc := BitVec.ofNat W (1 % m.toNat), pb := BitVec.ofNat W (b.toNat % m.toNat), pe := e }

/-- One pass of the loop body of R114 with modulus `m`; `prod` is left with the last product formed (log 10). -/
def powerPass (m : Word W) (w : Working W) : Working W :=
  { w with acc := if w.pe.getLsbD 0 then mulmodWord w.acc w.pb m else w.acc,
           pe := BitVec.ofNat W (w.pe.toNat / 2),
           prod := product w.pb w.pb,
           pb := mulmodWord w.pb w.pb m }

/-- `POWMOD`, one controller step (R114, R115). -/
def iterPowmod (s : State.At W) : Result W :=
  match s.stage with
  | .entry =>
    if s.work.pm = 0 then .next (raiseError .argModulus s)
    else .next { s with work := powerStart s.work.pb s.work.pe s.work.pm s.work, stage := .power }
  | .power =>
    if s.work.pe = 0 then .next (complete s.work.acc none none s)
    else .next { s with work := powerPass s.work.pm s.work }
  | .euclid | .decompose | .request | .witness | .square => .fault .noControllerRule

end Sys2Proof.Machine
end

