-- ==== Sys2Proof/Machine/MillerRabin.lean ====
section
/-! DEFINITION. The Miller-Rabin datapath and the iteration controller: `FACTOR`, `MRROUND` and `MRTEST`
(42_miller_rabin.md). -/

namespace Sys2Proof.Machine

variable {W : Nat}

/-- `md <- n - 1; mr <- 0` (R131; `n >= 2` has been checked). -/
def startDecompose (w : Working W) : Working W :=
  { w with md := BitVec.ofNat W (w.mn.toNat - 1), mr := 0 }

/-- `md <- md div 2; mr <- mr + 1` (R131). -/
def halvePass (w : Working W) : Working W :=
  { w with md := BitVec.ofNat W (w.md.toNat / 2), mr := w.mr + 1 }

/-- One step of the loop of R131, the guard included (log 15); `finish` is what the command does when `md` is odd. -/
def iterDecompose (finish : State.At W → State.At W) (s : State.At W) : State.At W :=
  if s.work.md.toNat % 2 = 0 then
    if s.work.mr.toNat = W then raiseError .internal s
    else { s with work := halvePass s.work }
  else finish s

/-- The start of a round: `powmod(a, d, n)` on the exponentiation unit, `mi <- 0` (R134; log 10). -/
def startRound (s : State.At W) : State.At W :=
  { s with work := { powerStart s.work.ma s.work.md s.work.mn s.work with mi := 0 }, stage := .power }

/-- One pass of the loop body of R134. -/
def squarePass (w : Working W) : Working W :=
  { w with prod := product w.mx w.mx, mx := mulmodWord w.mx w.mx w.mn, mi := w.mi + 1 }

/-- `x = n - 1` of R134. -/
def isMinusOne (x n : Word W) : Bool :=
  decide (x.toNat + 1 = n.toNat)

/-- One controller step of a round in its exponentiation: a pass of R114, or its end and the first test of R134.
`finish v` is what the command does with the verdict `v`. -/
def iterRoundPower (finish : Bool → State.At W → State.At W) (s : State.At W) : State.At W :=
  if s.work.pe = 0 then
    let s1 := { s with work := { s.work with mx := s.work.acc, mi := 0 } }
    if s.work.acc = 1 || isMinusOne s.work.acc s.work.mn then finish true s1
    else { s1 with stage := .square }
  else { s with work := powerPass s.work.mn s.work }

/-- One controller step of a round in its squaring loop (R134). `mi < r - 1` is tested in Z, as `mi + 1 < r`. -/
def iterRoundSquare (finish : Bool → State.At W → State.At W) (s : State.At W) : State.At W :=
  if s.work.mi.toNat + 1 < s.work.mr.toNat then
    let s1 := { s with work := squarePass s.work }
    if isMinusOne s1.work.mx s1.work.mn then finish true s1 else s1
  else finish false s

/-- The verdict as a word: 1 pass, 0 composite (R25). -/
def verdictWord (v : Bool) : Word W :=
  if v then 1 else 0

/-- `FACTOR`, issue (R72, R132). -/
def execFactor (s : State.At W) : Result W :=
  .next (issue Instr.factor.opcode (copyFactor s) s)

/-- The last line of R132. -/
def finishFactor (s : State.At W) : State.At W :=
  complete s.work.mr (some s.work.md) none s

/-- `FACTOR`, one controller step (R131, R132). -/
def iterFactor (s : State.At W) : Result W :=
  match s.stage with
  | .entry =>
    if s.work.mn.toNat ≤ 1 then .next (raiseError .argN s)
    else .next { s with work := startDecompose s.work, stage := .decompose }
  | .decompose => .next (iterDecompose finishFactor s)
  | .euclid | .power | .request | .witness | .square => .fault .noControllerRule

/-- `MRROUND`, issue (R72, R135). -/
def execMrround (s : State.At W) : Result W :=
  .next (issue Instr.mrround.opcode (copyMrround s) s)

/-- The last line of R135. -/
def finishMrround (v : Bool) (s : State.At W) : State.At W :=
  complete (verdictWord v) (some s.work.mi) none s

/-- `MRROUND`, one controller step (R131, R134, R135). -/
def iterMrround (s : State.At W) : Result W :=
  match s.stage with
  | .entry =>
    if !candidateOk s.work.mn then .next (raiseError .argN s)
    else if !witnessOk s.work.mn s.work.ma then .next (raiseError .argWitness s)
    else .next { s with work := startDecompose s.work, stage := .decompose }
  | .decompose => .next (iterDecompose startRound s)
  | .power => .next (iterRoundPower finishMrround s)
  | .square => .next (iterRoundSquare finishMrround s)
  | .euclid | .request | .witness => .fault .noControllerRule

/-- `MRTEST`, issue (R72, R141). -/
def execMrtest (s : State.At W) : Result W :=
  .next (issue Instr.mrtest.opcode (copyMrtest s) s)

/-- The lines of R141 after a round's verdict: count the round; composite, all rounds passed, or the next round. -/
def finishMrtestRound (v : Bool) (s : State.At W) : State.At W :=
  let j := s.work.mj + 1
  let s1 := { s with work := { s.work with mj := j } }
  if !v then complete 0 (some j) none s1
  else if j = s.work.mk then complete 1 (some j) none s1
  else { s1 with stage := .request }

/-- `mj <- 0` and on to the first round (R141). -/
def startRounds (s : State.At W) : State.At W :=
  { s with work := { s.work with mj := 0 }, stage := .request }

/-- `MRTEST`, one controller step (R131, R134, R141, R142, R143). -/
def iterMrtest (s : State.At W) : Result W :=
  match s.stage with
  | .entry =>
    if !candidateOk s.work.mn then .next (raiseError .argN s)
    else if s.work.mk = 0 then .next (raiseError .argRounds s)
    else if s.work.mn = 3 then .next (complete 1 (some 0) none s)
    else .next { s with work := startDecompose s.work, stage := .decompose }
  | .decompose => .next (iterDecompose startRounds s)
  | .request => .next { s with status := s.status.witnessAsked }
  | .witness =>
    if !witnessOk s.work.mn s.work.ma then .next (raiseError .argWitness s)
    else .next (startRound s)
  | .power => .next (iterRoundPower finishMrtestRound s)
  | .square => .next (iterRoundSquare finishMrtestRound s)
  | .euclid => .fault .noControllerRule

end Sys2Proof.Machine
end

