-- ==== Sys2Proof/Machine/Dispatch.lean ====
section
/-! DEFINITION. The meaning of every command: what a write of its word to `CMD` does (R72). -/

namespace Sys2Proof.Machine

def exec (i : Instr) (s : State) : Host.Outcome State Fault Refusal :=
  match i with
  | .gcd => Sys2Proof.Machine.execGcd s
  | .xgcd => Sys2Proof.Machine.execXgcd s
  | .mulmod => Sys2Proof.Machine.execMulmod s
  | .powmod => Sys2Proof.Machine.execPowmod s
  | .factor => Sys2Proof.Machine.execFactor s
  | .mrround => Sys2Proof.Machine.execMrround s
  | .mrtest => Sys2Proof.Machine.execMrtest s

end Sys2Proof.Machine
end

