-- ==== Sys2Proof/Machine/Controller.lean ====
section
/-! DEFINITION. The controller: one step of the running command (R39, R57). -/

namespace Sys2Proof.Machine

variable {W : Nat}

/-- One iteration of a command, the controller being in phase RUN (R57). -/
def iterate (i : Instr) (s : State.At W) : Result W :=
  match i with
  | .gcd => iterGcd s
  | .xgcd => iterXgcd s
  | .mulmod => iterMulmod s
  | .powmod => iterPowmod s
  | .factor => iterFactor s
  | .mrround => iterMrround s
  | .mrtest => iterMrtest s

/-- The controller's turn: it has a step only in phase RUN (R57), and runs the command `STATUS.OPC` names (R39). -/
def controllerStep (s : State.At W) : Result W :=
  if s.status.phase = some .run then
    match decodeOpcode s.status.opc with
    | some i => iterate i s
    | none => .fault .noControllerRule
  else .next s

/-- `n` turns of the controller with no other agent in between, stopping at the first fault. -/
def controllerRun : Nat → State.At W → Result W
  | 0, s => .next s
  | n + 1, s =>
    match controllerStep s with
    | .next t => controllerRun n t
    | .fault f => .fault f
    | .refused r => .refused r

end Sys2Proof.Machine
end

