-- ==== Sys2Proof/Machine/Bus.lean ====
section
/-! DEFINITION. The agents' events: `RegWrite` with the command issue inside it (R56, R72), and what each event does to the
machine (R57). -/

namespace Sys2Proof.Machine

variable {W : Nat}

/-- The meaning of every command at every width; `exec` is the same at the reference width
(`Obligations.EveryWidthRunsTheCommands`). -/
def execAt (i : Instr) (s : State.At W) : Result W :=
  match i with
  | .gcd => execGcd s
  | .xgcd => execXgcd s
  | .mulmod => execMulmod s
  | .powmod => execPowmod s
  | .factor => execFactor s
  | .mrround => execMrround s
  | .mrtest => execMrtest s

/-- `RegWrite(0, c)`: a legal word is executed, an illegal one ends in an error (R72, R75). -/
def commandWrite (c : Word W) (s : State.At W) : Result W :=
  match decode c with
  | some i => execAt i s
  | none => .next (issueIllegal c s)

/-- `RegWrite` (R56). -/
def regWrite (r : Reg) (v : Word W) (s : State.At W) : Result W :=
  match r with
  | .cmd => commandWrite v s
  | .opa => .next (writeOperand { s with opa := v } s)
  | .opb => .next (writeOperand { s with opb := v } s)
  | .opm => .next (writeOperand { s with opm := v } s)
  | .rounds => .next (writeOperand { s with rounds := v } s)
  | .witness => .next (deliverWitness v s)
  | .status | .res0 | .res1 | .res2 | .reserved _ => .next s

/-- One agent's step (R57). An access that is no slot access is refused (R54, U7). -/
def perform (e : Event W) (s : State.At W) : Result W :=
  match e with
  | .read who offset bytes =>
    match regOfAccess offset bytes W with
    | some r => .next (regRead who r s)
    | none => .refused .notASlotAccess
  | .write _ offset bytes v =>
    match regOfAccess offset bytes W with
    | some r => regWrite r v s
    | none => .refused .notASlotAccess
  | .controller => controllerStep s
  | .reset => .next (resetBlock s)

end Sys2Proof.Machine
end

