-- ==== Sys2Proof/Machine/Step.lean ====
section
/-! DEFINITION. One step of the whole machine: the next agent's step (R57). With nothing scheduled the controller has the
turn (R224, log 3); when it has no step either, the block does nothing (R57, R199, R212). -/

namespace Sys2Proof.Machine

/-- One step, at any width. -/
def stepAt {W : Nat} (s : State.At W) : Result W :=
  match s.schedule with
  | [] => controllerStep s
  | e :: rest => perform e { s with schedule := rest }

/-- One step of the machine of the host's interface (log 1). -/
def step (s : State) : Host.Outcome State Fault Refusal :=
  stepAt s

/-- `s` with a write of the command word `w` to `CMD` as the very next step. A command is not fetched: it comes from the
host (R39, R62), so this stands for the host's next access (log 2). A number of more than `W` bits is not one write, and
the access is then made that wide, which the block refuses (R54). -/
def State.withFetchWord (s : State) (nbits w : Nat) : State :=
  let c := w % 2 ^ nbits
  let e := if c < 2 ^ Config.W then commandWriteEvent (BitVec.ofNat Config.W c)
    else .write (.host 0) Reg.cmd.offset ((nbits + 7) / 8) (BitVec.ofNat Config.W c)
  { s with schedule := e :: s.schedule }

end Sys2Proof.Machine
end

