-- ==== Sys2Proof/Machine/HostNotation.lean ====
section
/-! DEFINITION. The host's notation: lines, call forms, pseudo-commands and a program's encoding (R77, R78, R79), and the
host that runs lines on a block with one randomness source beside it (R171). It is software beside the block; `step` does
not use it (log 17). -/

namespace Sys2Proof.Machine

variable {W : Nat}

/-- One line of a host program (R77). -/
inductive HostLine (W : Nat) where
  | wr (r : Reg) (v : Word W)
  | rd (r : Reg)
  | cmd (i : Instr)
  | wait
  | wit (v : Word W)
  | reset
  deriving DecidableEq, Repr

/-- The call forms of R78. -/
inductive CallForm (W : Nat) where
  | gcd (a b : Word W)
  | xgcd (a b : Word W)
  | mulmod (a b m : Word W)
  | powmod (base e m : Word W)
  | factor (n : Word W)
  | mrround (n a : Word W)
  | mrtest (n k : Word W) (witnesses : List (Word W))
  deriving DecidableEq, Repr

/-- The expansion of a call form, in R78's order. -/
def CallForm.expand : CallForm W → List (HostLine W)
  | .gcd a b => [.wr .opa a, .wr .opb b, .cmd .gcd, .wait]
  | .xgcd a b => [.wr .opa a, .wr .opb b, .cmd .xgcd, .wait]
  | .mulmod a b m => [.wr .opa a, .wr .opb b, .wr .opm m, .cmd .mulmod, .wait]
  | .powmod base e m => [.wr .opa base, .wr .opb e, .wr .opm m, .cmd .powmod, .wait]
  | .factor n => [.wr .opm n, .cmd .factor, .wait]
  | .mrround n a => [.wr .opm n, .wr .opa a, .cmd .mrround, .wait]
  | .mrtest n k witnesses => [.wr .opm n, .wr .rounds k, .cmd .mrtest] ++ witnesses.map HostLine.wit ++ [.wait]

/-- The pseudo-commands of R79. -/
def sqrmodForm (x m : Word W) : CallForm W := .mulmod x x m

def encryptForm (v e n : Word W) : CallForm W := .powmod v e n

def decryptForm (c d n : Word W) : CallForm W := .powmod c d n

def isprimeForm (n k : Word W) (witnesses : List (Word W)) : CallForm W := .mrtest n k witnesses

/-- The `RegWrite` steps of a line as (byte offset, value) pairs (R77). -/
def HostLine.writes : HostLine W → List (Nat × Word W)
  | .wr r v => [(r.offset W, v)]
  | .cmd i => [(Reg.cmd.offset W, encode i W)]
  | .wit v => [(Reg.witness.offset W, v)]
  | .rd _ | .wait | .reset => []

/-- A program's encoding (R77). -/
def encodeProgram (lines : List (HostLine W)) : List (Nat × Word W) :=
  lines.flatMap HostLine.writes

/-- The slot write of agent `who` (R56). -/
def slotWrite (who : Agent) (r : Reg) (v : Word W) : Event W :=
  .write who (r.offset W) (Config.slotBytes W) v

/-- The slot read of agent `who` (R55). -/
def slotRead (who : Agent) (r : Reg) : Event W :=
  .read who (r.offset W) (Config.slotBytes W)

/-- The events of a line that is one host step, whatever the block answers (R77); none for the two polling lines. -/
def HostLine.events (who : Agent) : HostLine W → Option (List (Event W))
  | .wr r v => some [slotWrite who r v]
  | .rd r => some [slotRead who r]
  | .cmd i => some [slotWrite who .cmd (encode i W)]
  | .reset => some [.reset]
  | .wait | .wit _ => none

/-- One more poll of `STATUS` by a polling line (R77): what the host does next on the word it has read. -/
inductive PollAnswer (W : Nat) where
  | again
  | finished
  | thenWrite (v : Word W)
  deriving DecidableEq, Repr

/-- `wait`: until `DONE = 1` (R77). -/
def waitPoll (statusWord : Word W) : PollAnswer W :=
  if statusWord.getLsbD 1 then .finished else .again

/-- `wit v`: until `WREQ = 1` or `DONE = 1`; on `WREQ = 1` the witness is written (R77, R220). -/
def witPoll (v statusWord : Word W) : PollAnswer W :=
  if statusWord.getLsbD 3 then .thenWrite v
  else if statusWord.getLsbD 1 then .finished
  else .again

/-- A host at work: its block, and the values the randomness source has still to give, the next one first. One source gives
everything random, and it is passed explicitly (R171). -/
structure HostRun (W : Nat) where
  block : State.At W
  source : List (Word W)
  deriving DecidableEq, Repr

/-- How a host procedure fails (R170). -/
inductive HostFailure where
  /-- InvalidArgument, found by the host before it issues anything. -/
  | invalidArgument
  /-- InternalInvariantViolation (R165 step 4). -/
  | invariantViolation
  /-- `STATUS.ERR = 1` at the end of a command: its `ERRCODE`, reported without retry. -/
  | blockError (code : BitVec 4)
  /-- The host gives up: its bound on polls or on retries is reached, or the source has no value left (R162, U4). -/
  | unfinished
  /-- The block's machine stopped (log 13); no run from reset gets there. -/
  | blockStopped
  deriving DecidableEq, Repr

/-- How a host procedure ends. -/
inductive HostResult (α : Type) where
  | value (a : α)
  | failed (f : HostFailure)
  deriving DecidableEq, Repr

/-- The procedure has failed by an error of the block. -/
def HostResult.isBlockError {α : Type} (x : HostResult α) : Bool :=
  match x with
  | .failed (.blockError _) => true
  | .value _ | .failed .invalidArgument | .failed .invariantViolation | .failed .unfinished | .failed .blockStopped => false

/-- The end of a host procedure, with the block and the source as it leaves them. -/
structure Ended (W : Nat) (α : Type) where
  answer : HostResult α
  run : HostRun W
  deriving DecidableEq, Repr

/-- Go on with `next`, unless the procedure has failed: a failure is reported as it is. -/
def Ended.andThen {α β : Type} (x : Ended W α) (next : α → HostRun W → Ended W β) : Ended W β :=
  match x.answer with
  | .value a => next a x.run
  | .failed f => ⟨.failed f, x.run⟩

/-- The host's block after one of its steps, or the report that the block has stopped. -/
def afterResult (r : Result W) (run : HostRun W) : Ended W Unit :=
  match r with
  | .next t => ⟨.value (), { run with block := t }⟩
  | .fault _ | .refused _ => ⟨.failed .blockStopped, run⟩

/-- `RegWrite` by the host (R56). -/
def hostWrite (r : Reg) (v : Word W) (run : HostRun W) : Ended W Unit :=
  afterResult (regWrite r v run.block) run

/-- `RegRead` by the host (R55): the value read. -/
def hostRead (r : Reg) (run : HostRun W) : Ended W (Word W) :=
  ⟨.value (readValue r run.block), { run with block := regRead (.host 0) r run.block }⟩

/-- The source's turn: it reads `STATUS`, and gives its next value to `WITNESS` when one is wanted (R52, R142). -/
def sourceTurn (run : HostRun W) : Ended W Unit :=
  let wanted := (readValue .status run.block).getLsbD 3
  let run := { run with block := regRead (.source 0) .status run.block }
  match wanted, run.source with
  | true, a :: rest => afterResult (regWrite .witness a run.block) { run with source := rest }
  | true, [] | false, _ => ⟨.value (), run⟩

/-- What happens between two polls of the host: the source and the controller have a turn each (R57; log 17). -/
def othersTurn (run : HostRun W) : Ended W Unit :=
  (sourceTurn run).andThen fun _ run => afterResult (controllerStep run.block) run

/-- A polling line (R77): read `STATUS` until `answer` says that the line is over, at most `polls` times. -/
def pollStatus (answer : Word W → PollAnswer W) : (polls : Nat) → HostRun W → Ended W Unit
  | 0, run => ⟨.failed .unfinished, run⟩
  | polls + 1, run =>
    (hostRead .status run).andThen fun word run =>
      match answer word with
      | .finished => ⟨.value (), run⟩
      | .thenWrite v => hostWrite .witness v run
      | .again => (othersTurn run).andThen fun _ run => pollStatus answer polls run

/-- One line of a host program, run (R77). -/
def runLine (polls : Nat) (line : HostLine W) (run : HostRun W) : Ended W Unit :=
  match line with
  | .wr r v => hostWrite r v run
  | .rd r => (hostRead r run).andThen fun _ run => ⟨.value (), run⟩
  | .cmd i => hostWrite .cmd (encode i W) run
  | .wait => pollStatus waitPoll polls run
  | .wit v => pollStatus (witPoll v) polls run
  | .reset => afterResult (perform .reset run.block) run

/-- A host program, run line by line. -/
def runLines (polls : Nat) : List (HostLine W) → HostRun W → Ended W Unit
  | [], run => ⟨.value (), run⟩
  | line :: rest, run => (runLine polls line run).andThen fun _ run => runLines polls rest run

/-- A call form, run, and the host's look at `STATUS` afterwards: with `ERR = 1` the error is the caller's, without retry
(R170). -/
def runForm (polls : Nat) (form : CallForm W) (run : HostRun W) : Ended W Unit :=
  (runLines polls form.expand run).andThen fun _ run =>
    (hostRead .status run).andThen fun word run =>
      if word.getLsbD 2 then ⟨.failed (.blockError (word.extractLsb' 8 4)), run⟩ else ⟨.value (), run⟩

/-- A call form, run, and the value of `RES0` when it has ended normally. -/
def runForRes0 (polls : Nat) (form : CallForm W) (run : HostRun W) : Ended W (Word W) :=
  (runForm polls form run).andThen fun _ run => hostRead .res0 run

end Sys2Proof.Machine
end

