-- ==== Sys2Proof/Machine/HostContracts.lean ====
section
/-! DEFINITION. The host contracts of 43_host_contracts.md: prime generation, key generation and the cipher, as procedures
that drive a block by its commands and draw everything random from one source. They are software (R5); `step` does not use
them (log 17). -/

namespace Sys2Proof.Machine.Contracts

variable {W : Nat}

/-- What is left to a host: the bounds it puts on its work. A procedure that reaches one of them ends unfinished; `maxIncrements` instead takes a
fresh candidate (R162). -/
structure Limits where
  /-- Polls of `STATUS` in one command. -/
  polls : Nat
  /-- `MRTEST`s in one prime search. -/
  tests : Nat
  /-- `MAX_INCREMENTS`, left open (R162). -/
  maxIncrements : Nat
  /-- Primes tried for one of `p`, `q` (R164). -/
  primes : Nat
  /-- What a search does after an `MRTEST` that ends in an error: report it (R170), or count it as a failed test (the
  pseudocode of R161). The two rules differ, and the model has both hosts (log 17). -/
  reportTestErrors : Bool
  deriving DecidableEq, Repr

/-- The candidates of `generate_prime` at bit length `b` (R161, R163). -/
abbrev CandidateInRange (b c : Nat) : Prop :=
  c % 2 = 1 ∧ 2 ^ (b - 1) ≤ c ∧ c < 2 ^ b

/-- The candidate made of a value of the source: its low `b` bits with bit `b-1` and bit 0 set (R161; that the other bits
are taken as they are is the model's choice, log 20). -/
def candidateFromDraw (b : Nat) (x : Word W) : Word W :=
  BitVec.ofNat W (x.toNat % 2 ^ b ||| 2 ^ (b - 1) ||| 1)

/-- A random candidate of `b` bits (R161). -/
def drawCandidate (b : Nat) (run : HostRun W) : Ended W (Word W) :=
  match run.source with
  | [] => ⟨.failed .unfinished, run⟩
  | x :: rest => ⟨.value (candidateFromDraw b x), { run with source := rest }⟩

/-- `c + 2 >= 2^b`, and for `b = W` the same without forming `2^b` (R161). -/
def leavesRange (b : Nat) (c : Word W) : Bool :=
  if b = W then decide (2 ^ W - 3 < c.toNat) else decide (2 ^ b ≤ c.toNat + 2)

/-- `MRTEST c, k` with witnesses of the source, and R161's look at `STATUS.ERR` and `RES0`: has `c` passed? -/
def candidatePasses (limits : Limits) (c k : Word W) (run : HostRun W) : Ended W Bool :=
  let tested := runForRes0 limits.polls (isprimeForm c k []) run
  if tested.answer.isBlockError && !limits.reportTestErrors then ⟨.value false, tested.run⟩
  else tested.andThen fun verdict run => ⟨.value (verdict == 1), run⟩

/-- The loop of R161 from candidate `c`, `used` increments after the last fresh one. -/
def primeSearch (limits : Limits) (b : Nat) (k : Word W) : (tests : Nat) → (c : Word W) → (used : Nat) → HostRun W →
    Ended W (Word W)
  | 0, _, _, run => ⟨.failed .unfinished, run⟩
  | tests + 1, c, used, run =>
    (candidatePasses limits c k run).andThen fun passes run =>
      if passes then ⟨.value c, run⟩
      else if leavesRange b c || decide (limits.maxIncrements ≤ used) then
        (drawCandidate b run).andThen fun c run => primeSearch limits b k tests c 0 run
      else primeSearch limits b k tests (c + 2) (used + 1) run

/-- `generate_prime(b, k)` (R160, R161). -/
def generatePrime (limits : Limits) (b : Nat) (k : Word W) (run : HostRun W) : Ended W (Word W) :=
  if b < 2 ∨ k = 0 ∨ W < b then ⟨.failed .invalidArgument, run⟩
  else (drawCandidate b run).andThen fun c run => primeSearch limits b k limits.tests c 0 run

/-- Step 1 or 2 of key generation: generate primes of `b` bits until `GCD e, p - 1` answers 1 (R164, R165). -/
def acceptablePrime (limits : Limits) (b : Nat) (e k : Word W) : (tries : Nat) → HostRun W → Ended W (Word W)
  | 0, run => ⟨.failed .unfinished, run⟩
  | tries + 1, run =>
    (generatePrime limits b k run).andThen fun p run =>
      (runForRes0 limits.polls (.gcd e (p - 1)) run).andThen fun g run =>
        if g = 1 then ⟨.value p, run⟩ else acceptablePrime limits b e k tries run

/-- A key pair (R15); `p`, `q` and `phi` are not in it (R168). -/
structure KeyPair (W : Nat) where
  n : Word W
  e : Word W
  d : Word W
  deriving DecidableEq, Repr

/-- The invariants of a key pair made from `p` and `q` that the host may assert (R167, R15). -/
structure KeyPair.Valid (key : KeyPair W) (p q : Nat) : Prop where
  modulus : key.n.toNat = p * q
  inverse : key.d.toNat * key.e.toNat % ((p - 1) * (q - 1)) = 1 % ((p - 1) * (q - 1))
  exponent : 1 < key.e.toNat ∧ key.e.toNat < (p - 1) * (q - 1)
  coprime : Nat.gcd key.e.toNat ((p - 1) * (q - 1)) = 1

/-- `d` from the `x` of `XGCD e, phi`: the normalised residue `x emod phi` (R166). -/
def privateExponent (x : Int) (phi : Nat) : Nat :=
  (x % (phi : Int)).toNat

/-- `d` from the word in `RES1` after `XGCD e, phi`, as a `W`-bit host computes it (R166). -/
def privateExponentWord (res1 phi : Word W) : Word W :=
  if res1.getLsbD (W - 1) then res1 + phi else res1

/-- Steps 3 to 6 of key generation (R164, R165); the two products are host arithmetic and fit by R167's bound. -/
def keyFromPrimes (limits : Limits) (p q e : Word W) (run : HostRun W) : Ended W (KeyPair W) :=
  let n := BitVec.ofNat W (p.toNat * q.toNat)
  let phi := BitVec.ofNat W ((p.toNat - 1) * (q.toNat - 1))
  (runForRes0 limits.polls (.gcd e phi) run).andThen fun g run =>
    if g = 1 then
      (runForm limits.polls (.xgcd e phi) run).andThen fun _ run =>
        (hostRead .res1 run).andThen fun x run => ⟨.value { n := n, e := e, d := privateExponentWord x phi }, run⟩
    else ⟨.failed .invariantViolation, run⟩

/-- The arguments `generate_rsa_keypair` refuses: `e <= 1` and `k < 1` (R165), and a `total_bits` outside R167's bound
`4 <= total_bits <= W`. Below 4 the refusal is R161's, of a prime of fewer than 2 bits. Above `W` no rule names the error:
that it is InvalidArgument too, found before anything is issued, is the model's choice (DESIGN CHOICE, log 19). -/
def keyArgumentsInvalid (totalBits : Nat) (e k : Word W) : Bool :=
  decide (e.toNat ≤ 1 ∨ k = 0 ∨ totalBits < 4 ∨ W < totalBits)

/-- `generate_rsa_keypair(total_bits, e, rounds)` on one block, the search for `p` before that for `q` (R164, R165). For a
`total_bits` above `W` see `keyArgumentsInvalid`: the error is the model's choice (log 19). -/
def generateKeyPair (limits : Limits) (totalBits : Nat) (e k : Word W) (run : HostRun W) : Ended W (KeyPair W) :=
  if keyArgumentsInvalid totalBits e k then ⟨.failed .invalidArgument, run⟩
  else
    (acceptablePrime limits (totalBits / 2) e k limits.primes run).andThen fun p run =>
      (acceptablePrime limits (totalBits - totalBits / 2) e k limits.primes run).andThen fun q run =>
        keyFromPrimes limits p q e run

/-- The same with the two searches on two blocks, each with a source of its own (R165, R171, R197); the rest is done on the
first block. The second one's end is answered beside. If both searches fail, the failure of the one for `p` is answered: the
model's choice (log 14). -/
def generateKeyPairOnTwoBlocks (limits : Limits) (totalBits : Nat) (e k : Word W) (runP runQ : HostRun W) :
    Ended W (KeyPair W) × HostRun W :=
  if keyArgumentsInvalid totalBits e k then (⟨.failed .invalidArgument, runP⟩, runQ)
  else
    let q := acceptablePrime limits (totalBits - totalBits / 2) e k limits.primes runQ
    ((acceptablePrime limits (totalBits / 2) e k limits.primes runP).andThen fun p run =>
      (Ended.mk q.answer run).andThen fun q run => keyFromPrimes limits p q e run, q.run)

/-- `p * q` got from the block as `MULMOD p, q, 2^W - 1`, which is right only below `2^W - 1` (R167). -/
def productOnBlock (limits : Limits) (p q : Word W) (run : HostRun W) : Ended W (Word W) :=
  runForRes0 limits.polls (.mulmod p q (BitVec.allOnes W)) run

/-- `encrypt_unit(value, e, n)`, with the host's check before the command (R169, R170). -/
def encryptUnit (limits : Limits) (value e n : Word W) (run : HostRun W) : Ended W (Word W) :=
  if n.toNat ≤ value.toNat then ⟨.failed .invalidArgument, run⟩
  else runForRes0 limits.polls (encryptForm value e n) run

/-- `decrypt_unit(cipher, d, n)` (R169). -/
def decryptUnit (limits : Limits) (cipher d n : Word W) (run : HostRun W) : Ended W (Word W) :=
  runForRes0 limits.polls (decryptForm cipher d n) run

/-- One unit after the other, the results in the order of the units (R169). If a unit fails, the units before it have been
run, those after it are not, and the failure is answered with no result of any: the model's choice (DESIGN CHOICE,
log 21). -/
def eachUnit (unit : Word W → HostRun W → Ended W (Word W)) : List (Word W) → HostRun W → Ended W (List (Word W))
  | [], run => ⟨.value [], run⟩
  | x :: rest, run =>
    (unit x run).andThen fun y run => (eachUnit unit rest run).andThen fun ys run => ⟨.value (y :: ys), run⟩

/-- The Ciphertext of a sequence of units: one `POWMOD` result per unit, in order (R169, R15); for a unit that fails see
`eachUnit` (log 21). -/
def encryptUnits (limits : Limits) (values : List (Word W)) (e n : Word W) (run : HostRun W) : Ended W (List (Word W)) :=
  eachUnit (fun v => encryptUnit limits v e n) values run

/-- The units of a Ciphertext (R169); for a unit that fails see `eachUnit` (log 21). -/
def decryptUnits (limits : Limits) (ciphertext : List (Word W)) (d n : Word W) (run : HostRun W) : Ended W (List (Word W)) :=
  eachUnit (fun c => decryptUnit limits c d n) ciphertext run

end Sys2Proof.Machine.Contracts
end

