-- ==== Sys2Proof/Machine/Reference.lean ====
section
/-! DEFINITION. The functions the commands compute, as mathematics on natural numbers and integers (R90, R94, R110, R114,
R131, R134, R141), width free. The machine does not run them: its iterations are in the family files, and the statements
about the commands say that the iterations compute these functions. -/

namespace Sys2Proof.Machine.Reference

/-- `gcd(a, b)` of R90. -/
def gcd (a b : Nat) : Nat :=
  Nat.gcd a b

/-- The recurrence of R94 from a given point, with at most `fuel` passes. -/
def xgcdFrom : (fuel : Nat) → (r0 r1 : Nat) → (s0 s1 t0 t1 : Int) → Nat × Int × Int
  | 0, r0, _, s0, _, t0, _ => (r0, s0, t0)
  | fuel + 1, r0, r1, s0, s1, t0, t1 =>
    if r1 = 0 then (r0, s0, t0)
    else
      let q := r0 / r1
      xgcdFrom fuel r1 (r0 - q * r1) s1 (s0 - q * s1) t1 (t0 - q * t1)

/-- `xgcd(a, b)` of R94: the second remainder falls in every pass, so `b + 1` passes are enough. -/
def xgcd (a b : Nat) : Nat × Int × Int :=
  xgcdFrom (b + 1) a b 1 0 0 1

/-- `mulmod(a, b, m)` of R110. -/
def mulmod (a b m : Nat) : Nat :=
  a * b % m

/-- `powmod(base, e, m)` of R114. -/
def powmod (base e m : Nat) : Nat :=
  base ^ e % m

/-- The loop of R131 from `(mr, md)`, with at most `fuel` passes. -/
def decomposeFrom : (fuel : Nat) → (mr md : Nat) → Nat × Nat
  | 0, mr, md => (mr, md)
  | fuel + 1, mr, md => if md % 2 = 0 then decomposeFrom fuel (mr + 1) (md / 2) else (mr, md)

/-- `decompose(n)` of R131, for `n >= 2`. -/
def decompose (n : Nat) : Nat × Nat :=
  decomposeFrom n 0 (n - 1)

/-- `candidate_ok(n)` of R138. -/
abbrev CandidateOk (n : Nat) : Prop :=
  n % 2 = 1 ∧ 2 < n

/-- `witness_ok(n, a)` of R137. -/
abbrev WitnessOk (n a : Nat) : Prop :=
  2 ≤ a ∧ a + 2 ≤ n

/-- The squaring loop of R134, `left` passes at most, from the value `x` after `i` squarings: the verdict and the number of
squarings. -/
def squarings : (left : Nat) → (n x i : Nat) → Bool × Nat
  | 0, _, _, i => (false, i)
  | left + 1, n, x, i =>
    if mulmod x x n = n - 1 then (true, i + 1) else squarings left n (mulmod x x n) (i + 1)

/-- `mr_round(n, r, d, a)` of R134: does the round pass, and after how many squarings. -/
def mrRound (n r d a : Nat) : Bool × Nat :=
  if powmod a d n = 1 ∨ powmod a d n = n - 1 then (true, 0) else squarings (r - 1) n (powmod a d n) 0

/-- How far an `MRTEST` gets on the witnesses delivered so far (R141). -/
inductive TestResult where
  | error (e : ErrorCode)
  | verdict (probablyPrime : Bool) (rounds : Nat)
  /-- The controller waits for one more witness, after this many rounds (R142). -/
  | waiting (rounds : Nat)
  deriving DecidableEq, Repr

/-- The loop over rounds of R141, `j` rounds being done. -/
def mrRounds (n r d k : Nat) : (j : Nat) → (witnesses : List Nat) → TestResult
  | j, [] => .waiting j
  | j, a :: rest =>
    if WitnessOk n a then
      if (mrRound n r d a).1 then
        if j + 1 = k then .verdict true (j + 1) else mrRounds n r d k (j + 1) rest
      else .verdict false (j + 1)
    else .error .argWitness

/-- `MRTEST` of R141 on candidate `n`, `k` rounds and the witnesses in the order of delivery. -/
def mrTest (n k : Nat) (witnesses : List Nat) : TestResult :=
  if ¬ CandidateOk n then .error .argN
  else if k = 0 then .error .argRounds
  else if n = 3 then .verdict true 0
  else mrRounds n (decompose n).1 (decompose n).2 k 0 witnesses

end Sys2Proof.Machine.Reference
end

