-- ==== Sys2Proof/Safety.lean ====
section
/-! DEFINITION. What the claims speak of: when a command is accepted and how it ends, and the invariant of every run
(10_state.md R30, R31, R34, R36 to R38; the loop invariants of R91, R94, R114, R131, R134, R141). -/

namespace Sys2Proof.Machine

variable {W : Nat}

/-- R72: "phase IDLE, or DONE with FATAL = 0". -/
abbrev State.At.Accepts (s : State.At W) : Prop :=
  (s.status.phase = some .idle ∨ s.status.phase = some .done) ∧ s.status.fatal = false

/-- `STATUS` when a legal command with opcode `op` has been accepted (R72). -/
def Status.runningAs (op : BitVec 8) (f : Status) : Status :=
  { f with busy := true, done := false, err := false, errcode := 0, opc := op }

/-- `STATUS` when a command with opcode `op` has ended normally (R33). -/
def Status.endedAs (op : BitVec 8) (f : Status) : Status :=
  { f with busy := false, done := true, err := false, wreq := false, errcode := 0, opc := op }

/-- `STATUS` when a command word with bits 7:0 `op` has ended by a recoverable error with code `code` (R191). -/
def Status.erredAs (op : BitVec 8) (code : BitVec 4) (f : Status) : Status :=
  { f with busy := false, done := true, err := true, wreq := false, errcode := code, opc := op }

/-- Two states that agree in everything but the controller's hidden working registers (R36, R40) and its stage. -/
def State.At.SameVisible (s t : State.At W) : Prop :=
  s = { t with work := s.work, stage := s.stage }

/-- The command is accepted in `s` by the reference machine, and the controller, left alone, takes the block to a state that agrees with `final` in
everything but the hidden registers. -/
def Ends (i : Instr) (s final : State) : Prop :=
  ∃ t, exec i s = .next t ∧ t.status.phase = some .run ∧
    ∃ n u, controllerRun n t = .next u ∧ u.SameVisible final

/-- The controller, left alone, goes from `s` to `t`. -/
def Reaches (s t : State.At W) : Prop :=
  ∃ n, controllerRun n s = .next t

/-- From `s`, the controller runs, takes the given witnesses one after the other, each when it has asked for it, and ends
up in `t`, where it has no step of its own (R142, R139). -/
def Serves : List (Word W) → State.At W → State.At W → Prop
  | [], s, t => Reaches s t ∧ t.status.phase ≠ some .run
  | a :: rest, s, t =>
    ∃ u v, Reaches s u ∧ u.status.phase = some .waitw ∧ regWrite .witness a u = .next v ∧ Serves rest v t

/-- What the flags of `STATUS` always satisfy (R30, R31, R34, R38, R39). -/
structure Status.Legal (f : Status) : Prop where
  busy_not_done : f.busy = true → f.done = false
  err_done : f.err = true → f.done = true
  wreq_mrtest : f.wreq = true → f.busy = true ∧ f.opc = Instr.mrtest.opcode
  err_iff_code : f.err = true ↔ f.errcode ≠ 0
  code_listed : f.errcode.toNat ≤ 6
  fatal_iff_internal : f.fatal = true ↔ f.errcode = ErrorCode.internal.code
  idle_no_opcode : f.busy = false → f.done = false → f.opc = 0
  busy_opcode : f.busy = true → (decodeOpcode f.opc).isSome = true

/-- The loop invariant of R94 at the values of its six variables: the Bézout identities, the magnitudes of R96, and that the rest of the recurrence gives
`xgcd(a, b)`. -/
structure XgcdPoint (a b r0 r1 : Nat) (s0 s1 t0 t1 : Int) : Prop where
  row0 : (a : Int) * s0 + b * t0 = r0
  row1 : (a : Int) * s1 + b * t1 = r1
  size_s : s0.natAbs * r1 + s1.natAbs * r0 = b
  size_t : t0.natAbs * r1 + t1.natAbs * r0 = a
  signs_s : s0 * s1 ≤ 0
  signs_t : t0 * t1 ≤ 0
  result : Reference.xgcdFrom (r1 + 1) r0 r1 s0 s1 t0 t1 = Reference.xgcd a b
  common : Nat.gcd r0 r1 = Nat.gcd a b
  falling : (s0 = 1 ∧ s1 = 0 ∧ t0 = 0 ∧ t1 = 1) ∨
    (r1 < r0 ∧ (r1 = 0 →
      (s0.natAbs ≤ 1 ∨ 2 * s0.natAbs ≤ s1.natAbs) ∧ (t0.natAbs ≤ 1 ∨ 2 * t0.natAbs ≤ t1.natAbs)))

/-- The loop of R114 for `base^e mod m`. -/
def PowerPoint (base e m : Nat) (w : Working W) : Prop :=
  w.acc.toNat < m ∧ w.acc.toNat * w.pb.toNat ^ w.pe.toNat % m = base ^ e % m

/-- `n - 1 = 2^r * d` at a point of the loop of R131. -/
def DecomposePoint (w : Working W) : Prop :=
  2 ^ w.mr.toNat * w.md.toNat + 1 = w.mn.toNat ∧ 1 ≤ w.md.toNat

/-- The decomposition is done (R131). -/
def Decomposed (w : Working W) : Prop :=
  DecomposePoint w ∧ w.md.toNat % 2 = 1

/-- A point of a round in its exponentiation (R134). -/
def RoundPower (w : Working W) : Prop :=
  Decomposed w ∧ Reference.WitnessOk w.mn.toNat w.ma.toNat ∧ PowerPoint w.ma.toNat w.md.toNat w.mn.toNat w

/-- A point of a round in its squaring loop (R134): the rest of the loop gives the round's verdict. -/
def RoundSquare (w : Working W) : Prop :=
  Decomposed w ∧ Reference.WitnessOk w.mn.toNat w.ma.toNat ∧ w.mi.toNat < w.mr.toNat ∧ w.mx.toNat < w.mn.toNat ∧
    Reference.squarings (w.mr.toNat - 1 - w.mi.toNat) w.mn.toNat w.mx.toNat w.mi.toNat
      = Reference.mrRound w.mn.toNat w.mr.toNat w.md.toNat w.ma.toNat

/-- What the working registers hold while command `i` runs (R36, R41). -/
def State.At.Running (i : Instr) (s : State.At W) : Prop :=
  let w := s.work
  match i with
  | .gcd =>
    match s.stage with
    | .entry => w.ga = s.opa ∧ w.gb = s.opb
    | .euclid => Nat.gcd w.ga.toNat w.gb.toNat = Nat.gcd s.opa.toNat s.opb.toNat
    | _ => False
  | .xgcd =>
    match s.stage with
    | .entry => w.r0 = s.opa ∧ w.r1 = s.opb
    | .euclid =>
      XgcdPoint s.opa.toNat s.opb.toNat w.r0.toNat w.r1.toNat w.s0.toInt w.s1.toInt w.t0.toInt w.t1.toInt
    | _ => False
  | .mulmod =>
    match s.stage with
    | .entry => w.fa = s.opa ∧ w.fb = s.opb ∧ w.pm = s.opm
    | _ => False
  | .powmod =>
    w.pm = s.opm ∧
      match s.stage with
      | .entry => w.pb = s.opa ∧ w.pe = s.opb
      | .power => PowerPoint s.opa.toNat s.opb.toNat s.opm.toNat w
      | _ => False
  | .factor =>
    w.mn = s.opm ∧
      match s.stage with
      | .entry => True
      | .decompose => DecomposePoint w
      | _ => False
  | .mrround =>
    w.mn = s.opm ∧ w.ma = s.opa ∧
      match s.stage with
      | .entry => True
      | .decompose => Reference.CandidateOk w.mn.toNat ∧ Reference.WitnessOk w.mn.toNat w.ma.toNat ∧ DecomposePoint w
      | .power => Reference.CandidateOk w.mn.toNat ∧ RoundPower w
      | .square => Reference.CandidateOk w.mn.toNat ∧ RoundSquare w
      | _ => False
  | .mrtest =>
    w.mn = s.opm ∧ w.mk = s.rounds ∧ (s.status.wreq = true → s.stage = .request) ∧
      match s.stage with
      | .entry => True
      | .decompose => Reference.CandidateOk w.mn.toNat ∧ 5 ≤ w.mn.toNat ∧ 1 ≤ w.mk.toNat ∧ DecomposePoint w
      | .request | .witness =>
        Reference.CandidateOk w.mn.toNat ∧ 5 ≤ w.mn.toNat ∧ w.mj.toNat < w.mk.toNat ∧ Decomposed w
      | .power => Reference.CandidateOk w.mn.toNat ∧ w.mj.toNat < w.mk.toNat ∧ RoundPower w
      | .square => Reference.CandidateOk w.mn.toNat ∧ w.mj.toNat < w.mk.toNat ∧ RoundSquare w
      | _ => False

/-- The invariant of every run: legal flags, no internal error ever (R131, R187), and, while a command runs, working
registers as its rule has them. -/
structure State.At.Inv (s : State.At W) : Prop where
  flags : s.status.Legal
  notFatal : s.status.fatal = false
  working : s.status.busy = true → ∃ i, decodeOpcode s.status.opc = some i ∧ s.Running i

/-- R52: what a randomness source's own accesses may be: a write of `WITNESS`, a read of `STATUS` or `OPM`. A premise on
schedules; the block does not enforce it (R195). -/
def Event.withinRights : Event W → Bool
  | .read (.source _) offset bytes => regOfAccess offset bytes W == some .status || regOfAccess offset bytes W == some .opm
  | .write (.source _) offset bytes _ => regOfAccess offset bytes W == some .witness
  | .read (.host _) _ _ | .write (.host _) _ _ _ | .controller | .reset => true

/-- A read's log entry with the value of a `STATUS` read left out. -/
def ReadBack.withoutStatus (x : ReadBack W) : ReadBack W :=
  if x.reg = .status then { x with value := 0 } else x

/-- Is the event a reset? -/
def Event.isReset (e : Event W) : Bool :=
  e == .reset

/-- The schedule's next event is a reset. -/
def State.At.resetNext (s : State.At W) : Bool :=
  s.schedule.head? == some .reset

/-- The next step is the controller's turn: it is scheduled, or nothing is (log 3). -/
abbrev State.At.controllerNext (s : State.At W) : Prop :=
  s.schedule = [] ∨ s.schedule.head? = some .controller

/-- The schedule's next event is a write of `v` to register `r` as a whole slot. -/
def State.At.NextWrites (s : State.At W) (r : Reg) (v : Word W) : Prop :=
  ∃ who rest, s.schedule = .write who (r.offset W) (Config.slotBytes W) v :: rest

/-- The transitions of R38 that are no reset, each with its cause: from state `s`, in phase `p`, to phase `q`. -/
inductive PhaseMoves (s : State.At W) : (p q : Phase) → Prop
  | accepted (p : Phase) (c : Word W) : p = .idle ∨ p = .done → s.status.fatal = false → s.NextWrites .cmd c →
      (decode c).isSome = true → PhaseMoves s p .run
  | illegal (p : Phase) (c : Word W) : p = .idle ∨ p = .done → s.status.fatal = false → s.NextWrites .cmd c →
      decode c = none → PhaseMoves s p .done
  | ended : s.controllerNext → PhaseMoves s .run .done
  | asks : s.controllerNext → s.status.opc = Instr.mrtest.opcode → PhaseMoves s .run .waitw
  | witnessTaken (a : Word W) : s.NextWrites .witness a → PhaseMoves s .waitw .run

/-- What command `i`, ending normally in the step from `s` to `t`, publishes (R91, R95, R111, R115, R132, R135, R141, R143,
R146). For `MRTEST` it is the round on the witness in `ma` that ends the command, the `mj + 1`-st; that the earlier rounds
passed is `Obligations.MrtestRunsTheRounds`. -/
def Publishes (i : Instr) (s t : State.At W) : Prop :=
  match i with
  | .gcd => t.res0.toNat = Nat.gcd s.opa.toNat s.opb.toNat
  | .xgcd => (t.res0.toNat, sval t.res1, sval t.res2) = Reference.xgcd s.opa.toNat s.opb.toNat
  | .mulmod => s.opm ≠ 0 ∧ t.res0.toNat = s.opa.toNat * s.opb.toNat % s.opm.toNat
  | .powmod => s.opm ≠ 0 ∧ t.res0.toNat = s.opa.toNat ^ s.opb.toNat % s.opm.toNat
  | .factor => 2 ^ t.res0.toNat * t.res1.toNat + 1 = s.opm.toNat ∧ t.res1.toNat % 2 = 1
  | .mrround =>
    Reference.CandidateOk s.opm.toNat ∧ Reference.WitnessOk s.opm.toNat s.opa.toNat ∧
      ∀ r d : Nat, 2 ^ r * d + 1 = s.opm.toNat → d % 2 = 1 →
        t.res0 = (if (Reference.mrRound s.opm.toNat r d s.opa.toNat).1 then 1 else 0) ∧
        t.res1.toNat = (Reference.mrRound s.opm.toNat r d s.opa.toNat).2
  | .mrtest =>
    Reference.CandidateOk s.opm.toNat ∧ s.rounds ≠ 0 ∧
      if s.opm = 3 then t.res0 = 1 ∧ t.res1 = 0
      else
        Reference.WitnessOk s.opm.toNat s.work.ma.toNat ∧
        (∀ r d : Nat, 2 ^ r * d + 1 = s.opm.toNat → d % 2 = 1 →
          t.res0 = if (Reference.mrRound s.opm.toNat r d s.work.ma.toNat).1 then 1 else 0) ∧
        t.res1.toNat = s.work.mj.toNat + 1 ∧ t.res1.toNat ≤ s.rounds.toNat ∧ (t.res0 = 1 → t.res1 = s.rounds) ∧
        (t.res0 = 0 → ¬ s.opm.toNat.Prime)

end Sys2Proof.Machine
end

