-- ==== Sys2Proof/Certificates/Slice0/Obligations.lean ====
section
/-! DEFINITION. The statements for the provers. Each docstring names the rule of spec/ it formalises, and the log entry
where a clause is the model's own choice. -/

open Sys2Proof Sys2Proof.Machine

/-! ### Encoding (30_encoding.md) -/

/-- The word column of R74, written out. -/
def Obligations.SevenCommandWordsDecode : Prop :=
  decode (0x0000000000000001 : Word) = some .gcd ∧ decode (0x0000000000000002 : Word) = some .xgcd ∧
  decode (0x0000000000000003 : Word) = some .mulmod ∧ decode (0x0000000000000004 : Word) = some .powmod ∧
  decode (0x0000000000000005 : Word) = some .factor ∧ decode (0x0000000000000006 : Word) = some .mrround ∧
  decode (0x0000000000000007 : Word) = some .mrtest

/-- R71, at every width of R7: the decoder, written from R74's match and mask, accepts exactly the words R71 calls legal by
the fields of R70. -/
def Obligations.LegalWordsAreExactlyTheSeven : Prop :=
  ∀ W : Nat, Config.Admissible W → ∀ c : Word W, (decode c).isSome = true ↔
    c.extractLsb' 8 (W - 8) = 0 ∧
      c.extractLsb' 0 8 ∈ ([0x01, 0x02, 0x03, 0x04, 0x05, 0x06, 0x07] : List (BitVec 8))

/-- R70, R74, at every width of R7: decoding an encoded command gives it back, and a word that decodes is the encoding of
what it decodes to. -/
def Obligations.DecodeInvertsEncode : Prop :=
  ∀ W : Nat, Config.Admissible W →
    (∀ i : Instr, i.wellFormed = true → decode (encode i W) = some i) ∧
    ∀ (c : Word W) (i : Instr), decode c = some i → encode i W = c

/-- A step runs the command it decodes: when the next event is a write of a whole slot to `CMD` and its word decodes to
`i`, the step is `exec i` with that event taken off the schedule (log 2); and the same for `withFetchWord`. -/
def Obligations.StepRunsTheDecodedCommand : Prop :=
  (∀ (s : State) (who : Agent) (c : Word) (i : Instr) (rest : List (Event Config.W)),
    s.schedule = .write who Reg.cmd.offset Config.slotBytes c :: rest → decode c = some i → i.wellFormed = true →
      step s = exec i { s with schedule := rest }) ∧
  ∀ (s : State) (nbits w : Nat) (i : Instr), decodeTableWord nbits w = some i →
    step (s.withFetchWord nbits w) = exec i s

/-! ### Command issue (R72, R75, R218) -/

/-- R72, legal words: a command issued while neither `BUSY` nor `FATAL` is set is accepted: the last report is cleared,
`OPC` taken, `BUSY` set, exactly the operands its rule names copied, and nothing else changes; the controller stands before
the argument checks. Two things are the model's choice: that it stands there as `stage := .entry` (log 8), and that `MULMOD`
copies its factors to `fa` and `fb` and `POWMOD` its base and exponent to `pb` and `pe` (log 9). -/
def Obligations.EveryCommandIsAcceptedWhenFree : Prop :=
  ∀ s : State, s.status.busy = false → s.status.fatal = false →
    exec .gcd s = .next { s with status := s.status.runningAs 0x01, work := { s.work with ga := s.opa, gb := s.opb }, stage := .entry } ∧
    exec .xgcd s = .next { s with status := s.status.runningAs 0x02, work := { s.work with r0 := s.opa, r1 := s.opb }, stage := .entry } ∧
    exec .mulmod s = .next { s with status := s.status.runningAs 0x03, work := { s.work with fa := s.opa, fb := s.opb, pm := s.opm }, stage := .entry } ∧
    exec .powmod s = .next { s with status := s.status.runningAs 0x04, work := { s.work with pb := s.opa, pe := s.opb, pm := s.opm }, stage := .entry } ∧
    exec .factor s = .next { s with status := s.status.runningAs 0x05, work := { s.work with mn := s.opm }, stage := .entry } ∧
    exec .mrround s = .next { s with status := s.status.runningAs 0x06, work := { s.work with mn := s.opm, ma := s.opa }, stage := .entry } ∧
    exec .mrtest s = .next { s with status := s.status.runningAs 0x07, work := { s.work with mn := s.opm, mk := s.rounds }, stage := .entry }

/-- R218: any word, legal or not, written to `CMD` while a command runs or after a fatal error is dropped, and `HZD` is all
that changes; so for the commands themselves. -/
def Obligations.CommandWriteDroppedWhileBusyOrFatal : Prop :=
  ∀ s : State, s.status.busy = true ∨ s.status.fatal = true →
    (∀ c : Word, regWrite .cmd c s = .next { s with status := { s.status with hzd := true } }) ∧
    ∀ i : Instr, exec i s = .next { s with status := { s.status with hzd := true } }

/-- R75: a word with a bit of `ZERO` set, or with `OPCODE` 0x00 or 0x08 to 0xFF, accepted, ends at once by error entry with
code 5 and `OPC` = its bits 7:0, and changes no register and no `HZD`; the next command is accepted. Dropped while `BUSY` or
`FATAL`, like any word. -/
def Obligations.IllegalWordEndsInAnError : Prop :=
  ∀ (s : State) (c : Word),
    c.extractLsb' 8 (Config.W - 8) ≠ 0 ∨ c.extractLsb' 0 8 = 0 ∨ 8 ≤ (c.extractLsb' 0 8).toNat →
    (s.Accepts →
      ∃ t, regWrite .cmd c s = .next t ∧ t = { s with status := s.status.erredAs (c.extractLsb' 0 8) 5 } ∧
        t.Accepts ∧ ∀ i : Instr, ∃ u, exec i t = .next u ∧ u.status = t.status.runningAs i.opcode) ∧
    (s.status.busy = true ∨ s.status.fatal = true →
      regWrite .cmd c s = .next { s with status := { s.status with hzd := true } })

/-- What issuing any of the seven commands leaves unchanged (R72, last sentence; R21, R73): operands, results, the sticky
`FATAL` and `WREQ`, the agents' schedule and what they have read; and `HZD` unless the write is dropped. The only address
space is the register file, all of it named here. -/
def Obligations.CommandIssueFrame : Prop :=
  ∀ (i : Instr) (s t : State), exec i s = .next t →
    t.opa = s.opa ∧ t.opb = s.opb ∧ t.opm = s.opm ∧ t.rounds = s.rounds ∧
    t.res0 = s.res0 ∧ t.res1 = s.res1 ∧ t.res2 = s.res2 ∧
    t.status.fatal = s.status.fatal ∧ t.status.wreq = s.status.wreq ∧
    t.schedule = s.schedule ∧ t.reads = s.reads ∧ t.draws = s.draws ∧
    (s.status.busy = false → s.status.fatal = false → t.status.hzd = s.status.hzd) ∧
    (∀ r : Reg, r ≠ .status → readIsFree r t = false → readValue r t = readValue r s)

/-! ### The register space (20_memory.md, 70_reset_and_hazards.md) -/

/-- R215, with the other half of the row of R56: an operand write is dropped with `HZD` while `BUSY = 1`, else the register
takes all `W` bits and nothing else changes. -/
def Obligations.OperandWritesTakenOrDropped : Prop :=
  ∀ (s : State) (v : Word),
    (s.status.busy = true →
      ∀ r : Reg, r = .opa ∨ r = .opb ∨ r = .opm ∨ r = .rounds →
        regWrite r v s = .next { s with status := { s.status with hzd := true } }) ∧
    (s.status.busy = false →
      regWrite .opa v s = .next { s with opa := v } ∧ regWrite .opb v s = .next { s with opb := v } ∧
      regWrite .opm v s = .next { s with opm := v } ∧ regWrite .rounds v s = .next { s with rounds := v })

/-- R139 and R216: a `WITNESS` write is taken exactly when one is wanted; otherwise it is dropped with `HZD`, and a second
one after the first finds `WREQ = 0`. That the controller then stands at `stage := .witness` is the model's choice
(log 8). -/
def Obligations.WitnessTakenOnlyWhenWanted : Prop :=
  ∀ (s : State) (a : Word),
    (s.status.wreq = true →
      ∃ t, regWrite .witness a s = .next t ∧
        t = { s with status := { s.status with wreq := false }, work := { s.work with ma := a }, stage := .witness } ∧
        ∀ b : Word, regWrite .witness b t = .next { t with status := { t.status with hzd := true } }) ∧
    (s.status.wreq = false →
      regWrite .witness a s = .next { s with status := { s.status with hzd := true } })

/-- R42, R29, R25 to R27 (R56): writes to `STATUS`, to the result registers and to the reserved slots change nothing, not
even `HZD`. -/
def Obligations.ReadOnlyWritesChangeNothing : Prop :=
  ∀ (s : State) (v : Word) (r : Reg),
    r = .status ∨ r = .res0 ∨ r = .res1 ∨ r = .res2 ∨ (∃ k, r = .reserved k) → regWrite r v s = .next s

/-- R29: the word a read of `STATUS` returns has every field at the bits of the layout, and its reserved bits are 0. -/
def Obligations.StatusWordLayout : Prop :=
  ∀ f : Status,
    f.word.getLsbD 0 = f.busy ∧ f.word.getLsbD 1 = f.done ∧ f.word.getLsbD 2 = f.err ∧ f.word.getLsbD 3 = f.wreq ∧
    f.word.getLsbD 4 = f.hzd ∧ f.word.getLsbD 5 = f.fatal ∧ f.word.extractLsb' 6 2 = 0 ∧
    f.word.extractLsb' 8 4 = f.errcode ∧ f.word.extractLsb' 12 4 = 0 ∧ f.word.extractLsb' 16 8 = f.opc ∧
    f.word.extractLsb' 24 (Config.W - 24) = 0

/-- R55: what a read of each slot returns, and that it changes no register. The value of a result register while `BUSY = 1`
is a free value of a fresh draw (log 5); nothing here depends on which. -/
def Obligations.ReadsReturnTheRegisters : Prop :=
  ∀ (s : State) (who : Agent) (r : Reg) (rest : List (Event Config.W)),
    s.schedule = .read who r.offset Config.slotBytes :: rest →
    ∃ v k, step s = .next { s with schedule := rest, reads := ⟨who, r, v⟩ :: s.reads, draws := k } ∧
      (r = .cmd ∨ r = .witness ∨ (∃ j, r = .reserved j) → v = 0) ∧
      (r = .status → v = s.status.word) ∧ (r = .opa → v = s.opa) ∧ (r = .opb → v = s.opb) ∧
      (r = .opm → v = s.opm) ∧ (r = .rounds → v = s.rounds) ∧
      (s.status.busy = false → (r = .res0 → v = s.res0) ∧ (r = .res1 → v = s.res1) ∧ (r = .res2 → v = s.res2)) ∧
      (s.status.busy = true → r = .res0 ∨ r = .res1 ∨ r = .res2 → v = Config.freeWord s.draws ∧ k = s.draws + 1) ∧
      (s.status.busy = false ∨ ¬ (r = .res0 ∨ r = .res1 ∨ r = .res2) → k = s.draws)

/-- R51, R54: the address map, written out at the reference width and for any width and base; the accesses that exist are
the whole aligned slots of the sixteen registers; every other access is refused and none of them is split. -/
def Obligations.OnlySlotAccessesExist : Prop :=
  (Reg.cmd.offset = 0x00 ∧ Reg.status.offset = 0x08 ∧ Reg.opa.offset = 0x10 ∧ Reg.opb.offset = 0x18 ∧
    Reg.opm.offset = 0x20 ∧ Reg.rounds.offset = 0x28 ∧ Reg.res0.offset = 0x30 ∧ Reg.res1.offset = 0x38 ∧
    Reg.res2.offset = 0x40 ∧ Reg.witness.offset = 0x48 ∧ ∀ k : Fin 6, (Reg.reserved k).offset = 0x50 + 8 * k.val) ∧
  ∀ W : Nat, Config.Admissible W →
    (∀ (base : Nat) (r : Reg), r.address base W = base + r.offset / 8 * (W / 8)) ∧
    (∀ r : Reg, regOfAccess (r.offset W) (W / 8) W = some r) ∧
    (∀ r r' : Reg, r.offset W = r'.offset W → r = r') ∧
    ∀ (s : State.At W) (who : Agent) (offset bytes : Nat) (v : Word W) (rest : List (Event W)),
      WellFormed.slotAccess offset bytes W = false →
      s.schedule = .read who offset bytes :: rest ∨ s.schedule = .write who offset bytes v :: rest →
        stepAt s = .refused .notASlotAccess

/-- R53: a register's bytes, lowest address first, are its bits from the least significant up. -/
def Obligations.SlotBytesAreLittleEndian : Prop :=
  ∀ v : Word, v.toNat = ∑ k ∈ Finset.range Config.slotBytes, (slotByte v k).toNat * 256 ^ k

/-- R195, R60: who makes an access has no influence on what it does to the block. It is the model's choice that this goes
for a separate randomness source too, whose rights (R52) are not enforced (log 12). -/
def Obligations.AgentsAreAlike : Prop :=
  ∀ (s : State) (a b : Agent) (offset bytes : Nat) (v : Word),
    perform (.write a offset bytes v) s = perform (.write b offset bytes v) s ∧
    ∀ r, regOfAccess offset bytes = some r →
      ∃ t u x, perform (.read a offset bytes) s = .next t ∧ perform (.read b offset bytes) s = .next u ∧
        t = { u with reads := ⟨a, r, x⟩ :: s.reads } ∧ u.reads = ⟨b, r, x⟩ :: s.reads

/-! ### Reset (R43, R210, R211, R214) -/

/-- R43: what a host reads of the block after power-on reset is 0 in every slot, and the phase is IDLE. The working
registers are not named: their value at reset is the model's (log 6). -/
def Obligations.ResetClearsEverySlot : Prop :=
  (∀ r : Reg, readValue r State.reset = 0) ∧ State.reset.status.phase = some .idle

/-- R210, R211: the reset event in any state gives the same host-visible registers as power-on, phase IDLE, and a witness
written after it is a hazard. -/
def Obligations.ResetEventClearsAnyState : Prop :=
  ∀ s : State, ∃ t, perform .reset s = .next t ∧
    t.opa = 0 ∧ t.opb = 0 ∧ t.opm = 0 ∧ t.rounds = 0 ∧ t.res0 = 0 ∧ t.res1 = 0 ∧ t.res2 = 0 ∧
    t.status.word = 0 ∧ t.status.phase = some .idle ∧ t.Accepts ∧
    ∀ a : Word, regWrite .witness a t = .next { t with status := { t.status with hzd := true } }

/-- R214: the commands issued on operands never written since reset, which are 0. -/
def Obligations.CommandsOnNeverWrittenOperands : Prop :=
  ∀ s : State, s.Accepts → s.opa = 0 → s.opb = 0 → s.opm = 0 → s.rounds = 0 →
    Ends .gcd s { s with res0 := 0, status := s.status.endedAs 0x01 } ∧
    Ends .xgcd s { s with res0 := 0, res1 := 1, res2 := 0, status := s.status.endedAs 0x02 } ∧
    Ends .mulmod s { s with status := s.status.erredAs 0x03 3 } ∧
    Ends .powmod s { s with status := s.status.erredAs 0x04 3 } ∧
    Ends .factor s { s with status := s.status.erredAs 0x05 1 } ∧
    Ends .mrround s { s with status := s.status.erredAs 0x06 1 } ∧
    Ends .mrtest s { s with status := s.status.erredAs 0x07 1 }

/-! ### The commands (40, 41, 42) -/

/-- R91, R90: `GCD` is accepted and ends with `RES0` the greatest common divisor; every other register keeps its value. -/
def Obligations.GcdComputesGreatestCommonDivisor : Prop :=
  ∀ s : State, s.Accepts →
    Ends .gcd s { s with res0 := BitVec.ofNat Config.W (Nat.gcd s.opa.toNat s.opb.toNat), status := s.status.endedAs 0x01 }

/-- R94, R95: `XGCD` is accepted and ends with the triple of the recurrence of R94 in `RES0`, `RES1`, `RES2`. -/
def Obligations.XgcdComputesTheRecurrence : Prop :=
  ∀ s : State, s.Accepts →
    Ends .xgcd s
      { s with res0 := BitVec.ofNat Config.W (Reference.xgcd s.opa.toNat s.opb.toNat).1,
               res1 := tc (Reference.xgcd s.opa.toNat s.opb.toNat).2.1,
               res2 := tc (Reference.xgcd s.opa.toNat s.opb.toNat).2.2, status := s.status.endedAs 0x02 }

/-- R95: the result registers of `XGCD` satisfy the Bézout identity in `Z`, with no reduction modulo `2^W`. -/
def Obligations.XgcdBezoutIdentityIsExact : Prop :=
  ∀ s : State, s.Accepts →
    ∃ g x y : Word, Ends .xgcd s { s with res0 := g, res1 := x, res2 := y, status := s.status.endedAs 0x02 } ∧
      g.toNat = Nat.gcd s.opa.toNat s.opb.toNat ∧
      (s.opa.toNat : Int) * sval x + (s.opb.toNat : Int) * sval y = g.toNat

/-- R96 (a): the magnitudes of the coefficients, for operands of any size. -/
def Obligations.XgcdCoefficientsAreSmall : Prop :=
  ∀ a b : Nat, 0 < Nat.gcd a b →
    (Reference.xgcd a b).2.1.natAbs ≤ max 1 (b / (2 * Nat.gcd a b)) ∧
    (Reference.xgcd a b).2.2.natAbs ≤ max 1 (a / (2 * Nat.gcd a b))

/-- R111, R184: `MULMOD` takes one controller step after its acceptance; `RES0` is the residue of the exact product, or the
command ends with code 3 when the modulus is 0. The last clause counts the model's own steps, which R222 leaves open
(log 8). -/
def Obligations.MulmodMultipliesExactly : Prop :=
  ∀ s : State, s.Accepts →
    (s.opm ≠ 0 →
      Ends .mulmod s { s with res0 := BitVec.ofNat Config.W (s.opa.toNat * s.opb.toNat % s.opm.toNat), status := s.status.endedAs 0x03 }) ∧
    (s.opm = 0 → Ends .mulmod s { s with status := s.status.erredAs 0x03 3 }) ∧
    ∃ t u, exec .mulmod s = .next t ∧ controllerStep t = .next u ∧ u.status.phase = some .done

/-- R114, R115, R184: `POWMOD` ends with `RES0` the residue of the power, or with code 3 when the modulus is 0. -/
def Obligations.PowmodRaisesToThePower : Prop :=
  ∀ s : State, s.Accepts →
    (s.opm ≠ 0 →
      Ends .powmod s { s with res0 := BitVec.ofNat Config.W (s.opa.toNat ^ s.opb.toNat % s.opm.toNat), status := s.status.endedAs 0x04 }) ∧
    (s.opm = 0 → Ends .powmod s { s with status := s.status.erredAs 0x04 3 })

/-- R222, `POWMOD` row: `bitlen(e)` iterations, between the model's entry step and exit step (log 8): after `bitlen(e) + 1`
controller steps the command still runs, after one more it is done. -/
def Obligations.PowmodTakesBitlenIterations : Prop :=
  ∀ s t : State, s.Accepts → s.opm ≠ 0 → exec .powmod s = .next t →
    (∃ u, controllerRun (Nat.size s.opb.toNat + 1) t = .next u ∧ u.status.phase = some .run) ∧
    ∃ u, controllerRun (Nat.size s.opb.toNat + 2) t = .next u ∧ u.status.phase = some .done

/-- R131, R132, R182: `FACTOR` ends with the decomposition of `n - 1`, or with code 1 when `n` is 0 or 1. -/
def Obligations.FactorDecomposes : Prop :=
  ∀ s : State, s.Accepts →
    (2 ≤ s.opm.toNat →
      ∃ r d : Word, 2 ^ r.toNat * d.toNat + 1 = s.opm.toNat ∧ d.toNat % 2 = 1 ∧
        Ends .factor s { s with res0 := r, res1 := d, status := s.status.endedAs 0x05 }) ∧
    (s.opm.toNat ≤ 1 → Ends .factor s { s with status := s.status.erredAs 0x05 1 })

/-- R134, R135: `MRROUND` on a candidate and a witness in range ends with the verdict and the squarings of the round. -/
def Obligations.MrroundComputesTheRound : Prop :=
  ∀ s : State, s.Accepts → Reference.CandidateOk s.opm.toNat → Reference.WitnessOk s.opm.toNat s.opa.toNat →
    ∀ r d : Nat, 2 ^ r * d + 1 = s.opm.toNat → d % 2 = 1 →
      Ends .mrround s
        { s with res0 := if (Reference.mrRound s.opm.toNat r d s.opa.toNat).1 then 1 else 0,
                 res1 := BitVec.ofNat Config.W (Reference.mrRound s.opm.toNat r d s.opa.toNat).2,
                 status := s.status.endedAs 0x06 }

/-- R190, `MRROUND` row (R182, R185): the check of `n` comes first, then the check of the witness. -/
def Obligations.MrroundChecksItsArguments : Prop :=
  ∀ s : State, s.Accepts →
    (¬ Reference.CandidateOk s.opm.toNat → Ends .mrround s { s with status := s.status.erredAs 0x06 1 }) ∧
    (Reference.CandidateOk s.opm.toNat → ¬ Reference.WitnessOk s.opm.toNat s.opa.toNat →
      Ends .mrround s { s with status := s.status.erredAs 0x06 4 })

/-- R190, `MRTEST` row, and R143: `n` before the rounds; the candidate 3 is accepted with no witness asked. -/
def Obligations.MrtestChecksItsArguments : Prop :=
  ∀ s : State, s.Accepts →
    (¬ Reference.CandidateOk s.opm.toNat → Ends .mrtest s { s with status := s.status.erredAs 0x07 1 }) ∧
    (Reference.CandidateOk s.opm.toNat → s.rounds = 0 →
      Ends .mrtest s { s with status := s.status.erredAs 0x07 2 }) ∧
    (s.opm = 3 → s.rounds ≠ 0 →
      Ends .mrtest s { s with res0 := 1, res1 := 0, status := s.status.endedAs 0x07 })

/-- R141, R142: on any other arguments `MRTEST` comes to ask for its first witness, with no register changed. -/
def Obligations.MrtestAsksForAWitness : Prop :=
  ∀ s : State, s.Accepts → Reference.CandidateOk s.opm.toNat → s.opm ≠ 3 → s.rounds ≠ 0 →
    Ends .mrtest s { s with status := { s.status.runningAs 0x07 with wreq := true } }

/-- R141: the whole `MRTEST`, for any witnesses in the order of their delivery. A verdict and its round, an abandoned test
with no result written, or the wait for the next witness: as `Reference.mrTest` has it, of which every proper beginning of
the witnesses leaves the test waiting. -/
def Obligations.MrtestRunsTheRounds : Prop :=
  ∀ (s : State) (witnesses : List Word), s.Accepts →
    (∀ n, n < witnesses.length →
      ∃ j, Reference.mrTest s.opm.toNat s.rounds.toNat ((witnesses.take n).map BitVec.toNat) = .waiting j) →
    ∃ t u, exec .mrtest s = .next t ∧ Serves witnesses t u ∧
      match Reference.mrTest s.opm.toNat s.rounds.toNat (witnesses.map BitVec.toNat) with
      | .verdict v j =>
        u.SameVisible { s with res0 := if v then 1 else 0, res1 := BitVec.ofNat Config.W j, status := s.status.endedAs 0x07 }
      | .error e => u.SameVisible { s with status := s.status.erredAs 0x07 e.code }
      | .waiting _ => u.SameVisible { s with status := { s.status.runningAs 0x07 with wreq := true } }

/-- R146: if `n` is prime, every in-range witness passes, and `MRTEST` on in-range witnesses never answers composite. -/
def Obligations.PrimesPassEveryWitness : Prop :=
  (∀ n r d a : Nat, n.Prime → Reference.WitnessOk n a → 2 ^ r * d + 1 = n → d % 2 = 1 →
    (Reference.mrRound n r d a).1 = true) ∧
  ∀ (n k : Nat) (witnesses : List Nat), n.Prime → ∀ j, Reference.mrTest n k witnesses ≠ .verdict false j

/-- R117: squaring by exponent 2 is the multiplier's square. -/
def Obligations.SecondPowerIsTheSquare : Prop :=
  ∀ x m : Nat, 1 ≤ m → Reference.powmod x 2 m = Reference.mulmod x x m

/-! ### Errors (60_exceptions.md) -/

/-- R191, R192, R181: a step that newly sets `ERR` is an error entry: it ends the command with a listed code, and no operand
or result register, no `HZD` and nothing of the agents' changes but the event taken. -/
def Obligations.ErrorsArePrecise : Prop :=
  ∀ s t : State, step s = .next t → s.status.err = false → t.status.err = true →
    t.status.busy = false ∧ t.status.wreq = false ∧ t.status.done = true ∧
    1 ≤ t.status.errcode.toNat ∧ t.status.errcode.toNat ≤ 6 ∧
    (t.status.fatal = true ↔ s.status.fatal = true ∨ t.status.errcode = 6) ∧
    t.opa = s.opa ∧ t.opb = s.opb ∧ t.opm = s.opm ∧ t.rounds = s.rounds ∧
    t.res0 = s.res0 ∧ t.res1 = s.res1 ∧ t.res2 = s.res2 ∧ t.status.hzd = s.status.hzd ∧
    t.schedule = s.schedule.tail ∧ t.reads = s.reads ∧ t.draws = s.draws ∧
    (s.status.busy = true → t.status.opc = s.status.opc)

/-- R194, R34: after a fatal error every `CMD` write only sets `HZD`, and every event but a reset leaves the block fatal, not
busy, and its error report as it was. -/
def Obligations.FatalErrorLatches : Prop :=
  ∀ s t : State, s.status.fatal = true → s.status.busy = false → s.status.wreq = false → step s = .next t →
    s.resetNext = false →
      (∀ c : Word, regWrite .cmd c s = .next { s with status := { s.status with hzd := true } }) ∧
      t.status.fatal = true ∧ t.status.busy = false ∧ t.status.wreq = false ∧ t.status.err = s.status.err ∧
      t.status.errcode = s.status.errcode ∧ t.status.opc = s.status.opc

/-! ### Flags, phases and the whole machine -/

/-- R32: `HZD` is sticky: only a reset clears it. -/
def Obligations.HazardFlagIsSticky : Prop :=
  ∀ s t : State, step s = .next t → s.status.hzd = true → s.resetNext = false → t.status.hzd = true

/-- R32: "It affects no command": a step does the same with `HZD` set or clear, but for `HZD` itself and the `STATUS` words
that reads return. -/
def Obligations.HazardFlagAffectsNothingElse : Prop :=
  ∀ (s t : State) (b : Bool), step s = .next t →
    ∃ c rs, rs.map ReadBack.withoutStatus = t.reads.map ReadBack.withoutStatus ∧
      step { s with status := { s.status with hzd := b } } =
        .next { t with status := { t.status with hzd := c }, reads := rs }

/-- R38: the transitions of the phase with their causes, and no other, from a state with legal flags: a reset leads to IDLE,
and any other step keeps the phase or makes one of `PhaseMoves`. In particular WAITW is left only by a `WITNESS` write or a
reset, and IDLE is entered only by a reset. -/
def Obligations.PhaseTransitionsAreR38s : Prop :=
  ∀ s t : State, s.status.Legal → step s = .next t →
    ∃ p q, s.status.phase = some p ∧ t.status.phase = some q ∧
      (s.resetNext = true → q = .idle) ∧
      (s.resetNext = false → p ≠ q → PhaseMoves s p q)

/-- R30, R31, R34: the flags stay legal in every step. -/
def Obligations.StepKeepsFlagsLegal : Prop :=
  ∀ s t : State, s.status.Legal → step s = .next t → t.status.Legal

/-- R21, R60: no step but a host's write to that register, or a reset, changes an operand register. -/
def Obligations.OperandsChangeOnlyByTheirWrite : Prop :=
  ∀ s t : State, step s = .next t → s.resetNext = false →
    ∀ r : Reg, r = .opa ∨ r = .opb ∨ r = .opm ∨ r = .rounds → readValue r t ≠ readValue r s →
      ∃ who v rest, s.schedule = .write who r.offset Config.slotBytes v :: rest ∧ s.status.busy = false ∧
        readValue r t = v

/-- R25, R33, R59: a step that is no reset changes a result register only by completing a running command normally, in the
same step that sets `DONE` and clears `BUSY`. -/
def Obligations.ResultsArePublishedWithDone : Prop :=
  ∀ s t : State, step s = .next t → s.resetNext = false →
    (t.res0 ≠ s.res0 ∨ t.res1 ≠ s.res1 ∨ t.res2 ≠ s.res2) →
      s.status.phase = some .run ∧ t.status.busy = false ∧ t.status.done = true ∧ t.status.err = s.status.err ∧
      t.status.errcode = s.status.errcode

/-- R26, R27, R73: the result registers a command does not name keep their values: the controller writes `RES1` only for
`XGCD`, `FACTOR`, `MRROUND`, `MRTEST`, and `RES2` only for `XGCD`. -/
def Obligations.UnnamedResultsKeepTheirValue : Prop :=
  ∀ s t : State, controllerStep s = .next t →
    t.opa = s.opa ∧ t.opb = s.opb ∧ t.opm = s.opm ∧ t.rounds = s.rounds ∧
    t.status.hzd = s.status.hzd ∧ t.status.opc = s.status.opc ∧
    t.schedule = s.schedule ∧ t.reads = s.reads ∧ t.draws = s.draws ∧
    (t.res1 ≠ s.res1 → s.status.opc ∈ ([0x02, 0x05, 0x06, 0x07] : List (BitVec 8))) ∧
    (t.res2 ≠ s.res2 → s.status.opc = 0x02)

/-- R57, R199, R212: a controller that is not in phase RUN has no step: its turn changes nothing, be it scheduled or given
because nothing is (log 3). -/
def Obligations.IdleBlockDoesNothing : Prop :=
  ∀ s : State, s.status.phase ≠ some .run →
    controllerStep s = .next s ∧ (s.schedule = [] → step s = .next s) ∧
    ∀ rest, s.schedule = .controller :: rest → step s = .next { s with schedule := rest }

/-- The invariant of every run holds at reset, at every width. -/
def Obligations.ResetMeetsTheInvariant : Prop :=
  State.reset.Inv ∧ ∀ W : Nat, (State.At.reset W).Inv

/-- Every step of every agent, in any interleaving, keeps the invariant. -/
def Obligations.StepKeepsTheInvariant : Prop :=
  ∀ s t : State, s.Inv → step s = .next t → t.Inv

/-- R131, R187: from a state that meets the invariant, no step faults (log 13): it answers a state that meets the invariant
again, so `E_INTERNAL` is never raised, or it is refused, and then only as an access that is no slot access (R54). -/
def Obligations.LegalStatesNeverFault : Prop :=
  ∀ s : State, s.Inv →
    (∃ t, step s = .next t ∧ t.Inv ∧ t.status.errcode ≠ ErrorCode.internal.code) ∨
    (step s = .refused .notASlotAccess ∧ ∃ who offset bytes v rest, WellFormed.slotAccess offset bytes = false ∧
      (s.schedule = .read who offset bytes :: rest ∨ s.schedule = .write who offset bytes v :: rest))

/-- R224: from a state that meets the invariant, the controller, in phase RUN, reaches DONE or WAITW. -/
def Obligations.RunEndsInDoneOrWait : Prop :=
  ∀ s : State, s.Inv → s.status.phase = some .run →
    ∃ t, Reaches s t ∧ (t.status.phase = some .done ∨ t.status.phase = some .waitw)

/-- R41, R60, R73: whatever the other agents did while a command ran, the step that ends it normally publishes the result of
its rule on the operand registers, and for `MRTEST` on the witness of the round that ends it. -/
def Obligations.EveryCompletionIsRight : Prop :=
  ∀ s t : State, s.Inv → step s = .next t → s.status.phase = some .run → t.status.phase = some .done →
    t.status.err = false → ∃ i, decodeOpcode s.status.opc = some i ∧ Publishes i s t

/-- R41: a command's end depends on the operand registers alone: two blocks that accept the same command with the same
operands, whatever their results, hidden registers, stage, `HZD` and history, end it, if it ends without a witness, with the
same error or the same values in the result registers the command writes. -/
def Obligations.EndsDependOnOperandsOnly : Prop :=
  ∀ (i : Instr) (s₁ s₂ t₁ t₂ u₁ u₂ : State) (n₁ n₂ : Nat),
    s₁.Accepts → s₂.Accepts → s₁.opa = s₂.opa → s₁.opb = s₂.opb → s₁.opm = s₂.opm → s₁.rounds = s₂.rounds →
    exec i s₁ = .next t₁ → exec i s₂ = .next t₂ → controllerRun n₁ t₁ = .next u₁ → controllerRun n₂ t₂ = .next u₂ →
    u₁.status.phase = some .done → u₂.status.phase = some .done →
      u₁.status.err = u₂.status.err ∧ u₁.status.errcode = u₂.status.errcode ∧
      (u₁.status.err = false → u₁.res0 = u₂.res0 ∧
        (i = .xgcd ∨ i = .factor ∨ i = .mrround ∨ i = .mrtest → u₁.res1 = u₂.res1) ∧ (i = .xgcd → u₁.res2 = u₂.res2))

/-! ### The notation and the host contracts (30_encoding.md section 5, 43_host_contracts.md) -/

/-- R78: the `RegWrite` steps of the call forms, in their order, as (byte offset, value) pairs (R77). -/
def Obligations.CallFormsWriteInOrder : Prop :=
  ∀ a b m : Word, ∀ ws : List Word,
    encodeProgram (CallForm.gcd a b).expand = [(0x10, a), (0x18, b), (0x00, 1)] ∧
    encodeProgram (CallForm.xgcd a b).expand = [(0x10, a), (0x18, b), (0x00, 2)] ∧
    encodeProgram (CallForm.mulmod a b m).expand = [(0x10, a), (0x18, b), (0x20, m), (0x00, 3)] ∧
    encodeProgram (CallForm.powmod a b m).expand = [(0x10, a), (0x18, b), (0x20, m), (0x00, 4)] ∧
    encodeProgram (CallForm.factor m).expand = [(0x20, m), (0x00, 5)] ∧
    encodeProgram (CallForm.mrround m a).expand = [(0x20, m), (0x10, a), (0x00, 6)] ∧
    encodeProgram (CallForm.mrtest m b ws).expand = [(0x20, m), (0x28, b), (0x00, 7)] ++ ws.map (fun w => (0x48, w))

/-- R166: the private exponent got from the words of `XGCD e, phi` is the normalised residue of `x`, lies in `[0, phi)`, and
inverts `e` modulo `phi` when `g = 1`. -/
def Obligations.PrivateExponentInvertsE : Prop :=
  ∀ e phi : Word, 1 < phi.toNat → Nat.gcd e.toNat phi.toNat = 1 →
    let x := (Reference.xgcd e.toNat phi.toNat).2.1
    let d : Word := Contracts.privateExponentWord (tc x) phi
    d.toNat = Contracts.privateExponent x phi.toNat ∧ d.toNat < phi.toNat ∧ d.toNat * e.toNat % phi.toNat = 1

/-- R169: the cipher's round trip on the block, for a key made from two distinct primes: with polls enough for a `POWMOD`,
every sequence of units in the domain gets a Ciphertext, one power per unit in their order, and deciphering gives the units
back. -/
def Obligations.CipherRoundTrip : Prop :=
  ∀ (W : Nat), Config.Admissible W → ∀ (p q e : Word W) (limits limits' : Contracts.Limits) (run₀ run₀' run : HostRun W)
      (key : Contracts.KeyPair W), p.toNat.Prime → q.toNat.Prime → p ≠ q → p.toNat * q.toNat < 2 ^ W →
    run₀.block.Accepts → Contracts.keyFromPrimes limits' p q e run₀ = ⟨.value key, run₀'⟩ →
    run.block.Accepts → W + 3 ≤ limits.polls → ∀ values : List (Word W), (∀ v ∈ values, v.toNat < key.n.toNat) →
      ∃ ciphertext run₁ run₂,
        Contracts.encryptUnits limits values key.e key.n run = ⟨.value ciphertext, run₁⟩ ∧
        ciphertext.map BitVec.toNat = values.map (fun v => v.toNat ^ key.e.toNat % key.n.toNat) ∧
        Contracts.decryptUnits limits ciphertext key.d key.n run₁ = ⟨.value values, run₂⟩

/-- R160, R161, R163: what a prime search that starts with a candidate of `b` bits answers has exactly `b` bits, and an
`MRTEST` with witnesses of the source called it probably prime; and `generate_prime` starts so. -/
def Obligations.PrimeSearchStaysInRange : Prop :=
  ∀ (W : Nat), Config.Admissible W → ∀ (limits : Contracts.Limits) (b : Nat) (k p : Word W) (run run' : HostRun W),
    run.block.Accepts →
    ((∃ tests c used, 2 ≤ b ∧ b ≤ W ∧ Contracts.CandidateInRange b c.toNat ∧
        Contracts.primeSearch limits b k tests c used run = ⟨.value p, run'⟩) ∨
      Contracts.generatePrime limits b k run = ⟨.value p, run'⟩) →
      Contracts.CandidateInRange b p.toNat ∧ Nat.size p.toNat = b ∧ run'.block.Accepts ∧
        ∃ ws, ws <:+: run.source ∧ ∃ j, Reference.mrTest p.toNat k.toNat (ws.map BitVec.toNat) = .verdict true j

/-- R164, R165, R167: the key pair that key generation answers comes from two numbers of the two bit lengths, each called
probably prime by its test; its modulus has at most `total_bits` bits, its exponents are inverse to each other modulo
`(p - 1)(q - 1)`, and `d` is normalised. (`e < phi` is enforced by no step, R167.) -/
def Obligations.GeneratedKeysAreSound : Prop :=
  ∀ (W : Nat), Config.Admissible W → ∀ (limits : Contracts.Limits) (totalBits : Nat) (e k : Word W) (run run' : HostRun W)
      (key : Contracts.KeyPair W), run.block.Accepts →
    Contracts.generateKeyPair limits totalBits e k run = ⟨.value key, run'⟩ →
      ∃ p q : Nat,
        Contracts.CandidateInRange (totalBits / 2) p ∧ Contracts.CandidateInRange (totalBits - totalBits / 2) q ∧
        (∃ ws, ws <:+: run.source ∧ ∃ j, Reference.mrTest p k.toNat (ws.map BitVec.toNat) = .verdict true j) ∧
        (∃ ws, ws <:+: run.source ∧ ∃ j, Reference.mrTest q k.toNat (ws.map BitVec.toNat) = .verdict true j) ∧
        key.n.toNat = p * q ∧ key.n.toNat < 2 ^ totalBits ∧ key.e = e ∧ 1 < e.toNat ∧
        Nat.gcd e.toNat (p - 1) = 1 ∧ Nat.gcd e.toNat (q - 1) = 1 ∧ Nat.gcd e.toNat ((p - 1) * (q - 1)) = 1 ∧
        key.d.toNat < (p - 1) * (q - 1) ∧ key.d.toNat * key.e.toNat % ((p - 1) * (q - 1)) = 1

/-- R170: what the host refuses before it issues anything, and two errors of the block inside its procedures. The modulus 0
(code 3) reaches the caller at once. After a witness out of range inside a prime search, a host that reports test errors ends
with code 4, and one that counts them as failed tests goes on as after any failed test: R170 and R161's pseudocode differ
here, and the model has both hosts (log 17). That a `total_bits` above `W` is among the refusals is the model's choice
(log 19). -/
def Obligations.HostErrorsAreReported : Prop :=
  ∀ (W : Nat), Config.Admissible W → ∀ (limits : Contracts.Limits) (run : HostRun W),
    (∀ (b : Nat) (k : Word W), b < 2 ∨ k = 0 ∨ W < b →
      Contracts.generatePrime limits b k run = ⟨.failed .invalidArgument, run⟩) ∧
    (∀ (totalBits : Nat) (e k : Word W), e.toNat ≤ 1 ∨ k = 0 ∨ totalBits < 4 ∨ W < totalBits →
      Contracts.generateKeyPair limits totalBits e k run = ⟨.failed .invalidArgument, run⟩) ∧
    (∀ v e n : Word W, n.toNat ≤ v.toNat → Contracts.encryptUnit limits v e n run = ⟨.failed .invalidArgument, run⟩) ∧
    (run.block.Accepts → W + 8 ≤ limits.polls →
      (∀ c d : Word W, (Contracts.decryptUnit limits c d 0 run).answer = .failed (.blockError 3)) ∧
      ∀ (b tests used : Nat) (c k a : Word W) (rest : List (Word W)),
        Reference.CandidateOk c.toNat → c ≠ 3 → k ≠ 0 → run.source = a :: rest → ¬ Reference.WitnessOk c.toNat a.toNat →
          ∃ run', run'.source = rest ∧ run'.block.Accepts ∧
            Contracts.primeSearch limits b k (tests + 1) c used run =
              if limits.reportTestErrors then ⟨.failed (.blockError 4), run'⟩
              else if Contracts.leavesRange b c || decide (limits.maxIncrements ≤ used) then
                (Contracts.drawCandidate b run').andThen fun c run => Contracts.primeSearch limits b k tests c 0 run
              else Contracts.primeSearch limits b k tests (c + 2) (used + 1) run')

/-! ### Every width (R7, U5) -/

/-- R7: the machine of the host's interface is the machine of any width at the reference width; and at every width a step
runs the command that the next write to `CMD` decodes to, which is accepted when the block is free (log 8, log 9 for what
the copies and the stage are). -/
def Obligations.EveryWidthRunsTheCommands : Prop :=
  (∀ (i : Instr) (s : State), exec i s = execAt i s) ∧ (∀ s : State, step s = stepAt s) ∧
  ∀ W : Nat, Config.Admissible W → ∀ (s : State.At W) (i : Instr),
    (∀ (who : Agent) (c : Word W) (rest : List (Event W)),
      s.schedule = .write who (Reg.cmd.offset W) (Config.slotBytes W) c :: rest → decode c = some i →
        stepAt s = execAt i { s with schedule := rest }) ∧
    (s.Accepts →
      ∃ t, execAt i s = .next t ∧ t.status = s.status.runningAs i.opcode ∧ t.stage = .entry ∧ t.Running i ∧
        s = { t with status := s.status, work := s.work, stage := s.stage })

/-- R7: at every width, every step of every agent keeps the invariant. -/
def Obligations.StepKeepsTheInvariantAtEveryWidth : Prop :=
  ∀ W : Nat, Config.Admissible W → ∀ s t : State.At W, s.Inv → stepAt s = .next t → t.Inv

/-- R7: at every width, what a command publishes when it ends normally is the result of its rule, and from a state that
meets the invariant a running command comes to its end or asks for a witness (R224). -/
def Obligations.EveryCompletionIsRightAtEveryWidth : Prop :=
  ∀ W : Nat, Config.Admissible W → ∀ s : State.At W, s.Inv → s.status.phase = some .run →
    (∀ t, stepAt s = .next t → t.status.phase = some .done → t.status.err = false →
      ∃ i, decodeOpcode s.status.opc = some i ∧ Publishes i s t) ∧
    ∃ t, Reaches s t ∧ (t.status.phase = some .done ∨ t.status.phase = some .waitw)
end

