-- ==== Sys2Proof/Laws/Arithmetic.lean ====
section
/-! SUPPORT. The arithmetic of the datapath in `Nat` and `Int`: one lemma per operation on words, saying what it computes and
when (R8, R11, R12, R110, R137, R138). -/

namespace Sys2Proof.Machine

variable {W : Nat}

/-- A width of R7 gives room for every small number the rules name. -/
theorem admissible_room (h : Config.Admissible W) : 4294967296 ≤ 2 ^ W :=
  le_trans (by norm_num) (Nat.pow_le_pow_right (by norm_num : 0 < 2) h.1)

theorem admissible_reference : Config.Admissible Config.W := by decide

theorem word_toNat_lt (x : Word W) : x.toNat < 2 ^ W := x.isLt

theorem word_ofNat_toNat {n : Nat} (h : n < 2 ^ W) : (BitVec.ofNat W n).toNat = n := by
  rw [BitVec.toNat_ofNat, Nat.mod_eq_of_lt h]

theorem word_eq_zero_iff (x : Word W) : x = 0 ↔ x.toNat = 0 := by
  constructor
  · rintro rfl; rfl
  · intro h; exact BitVec.eq_of_toNat_eq (by simpa using h)

/-- The product register never loses a bit (R8). -/
theorem product_toNat (a b : Word W) : (product a b).toNat = a.toNat * b.toNat := by
  have h : a.toNat * b.toNat < 2 ^ W * 2 ^ W := Nat.mul_lt_mul'' a.isLt b.isLt
  rw [product, BitVec.toNat_ofNat, Nat.mod_eq_of_lt]
  rwa [two_mul, pow_add]

theorem reduce_toNat (p : DWord W) (m : Word W) (h : m ≠ 0) : (reduce p m).toNat = p.toNat % m.toNat := by
  have hm : 0 < m.toNat := Nat.pos_of_ne_zero (fun e => h ((word_eq_zero_iff m).2 e))
  exact word_ofNat_toNat (lt_trans (Nat.mod_lt _ hm) m.isLt)

/-- The multiplier computes `mulmod` of R110. -/
theorem mulmodWord_toNat (a b m : Word W) (h : m ≠ 0) :
    (mulmodWord a b m).toNat = Reference.mulmod a.toNat b.toNat m.toNat := by
  rw [mulmodWord, reduce_toNat _ _ h, product_toNat, Reference.mulmod]

theorem word_mod_toNat (a m : Word W) (h : m ≠ 0) : (BitVec.ofNat W (a.toNat % m.toNat)).toNat = a.toNat % m.toNat := by
  have hm : 0 < m.toNat := Nat.pos_of_ne_zero (fun e => h ((word_eq_zero_iff m).2 e))
  exact word_ofNat_toNat (lt_trans (Nat.mod_lt _ hm) m.isLt)

theorem word_half_toNat (a : Word W) : (BitVec.ofNat W (a.toNat / 2)).toNat = a.toNat / 2 :=
  word_ofNat_toNat (lt_of_le_of_lt (Nat.div_le_self _ _) a.isLt)

theorem word_succ_toNat (a : Word W) (h : a.toNat + 1 < 2 ^ W) : (a + 1).toNat = a.toNat + 1 := by
  have h1 : (1 : Word W).toNat = 1 := word_ofNat_toNat (lt_of_le_of_lt (Nat.le_add_left 1 _) h)
  rw [BitVec.toNat_add, h1, Nat.mod_eq_of_lt h]

theorem word_one_toNat (hW : Config.Admissible W) : (1 : Word W).toNat = 1 :=
  word_ofNat_toNat (lt_of_lt_of_le (by norm_num) (admissible_room hW))

theorem word_three_toNat (hW : Config.Admissible W) : (3 : Word W).toNat = 3 :=
  word_ofNat_toNat (lt_of_lt_of_le (by norm_num) (admissible_room hW))

/-- The coefficient 1 of R94's start. -/
theorem coefficient_one (hW : Config.Admissible W) : (1 : SWord W).toInt = 1 :=
  BitVec.toInt_one (by have := hW.1; omega)

theorem word_bit0 (a : Word W) : a.getLsbD 0 = decide (a.toNat % 2 = 1) := by
  simp [BitVec.getLsbD, Nat.testBit_zero]

theorem candidateOk_iff (n : Word W) : candidateOk n = true ↔ Reference.CandidateOk n.toNat := by
  rw [candidateOk, word_bit0]
  simp only [Bool.and_eq_true, decide_eq_true_eq, Reference.CandidateOk]
  omega

theorem witnessOk_iff (n a : Word W) : witnessOk n a = true ↔ Reference.WitnessOk n.toNat a.toNat := by
  simp [witnessOk, Reference.WitnessOk]

/-- `sval_W` is the two's-complement value (R12). -/
theorem sval_eq_toInt (v : Word W) : sval v = v.toInt := by
  rw [sval, BitVec.toInt_eq_msb_cond, BitVec.msb_eq_getLsbD_last]
  rfl

/-- `sval_W` inverts `tc_W` on the range of R12. -/
theorem sval_tc (x : Int) (hW : 0 < W) (h1 : -2 ^ (W - 1) ≤ x) (h2 : x < 2 ^ (W - 1)) : sval (tc x : Word W) = x := by
  rw [sval_eq_toInt, tc]
  exact BitVec.toInt_ofInt_eq_self hW h1 h2

/-- A coefficient that fits the signed `W+1`-bit register is stored exactly (R37). -/
theorem nextCoefficient_toInt (q : Word W) (c0 c1 : SWord W)
    (h : (c0.toInt - (q.toNat : Int) * c1.toInt).natAbs < 2 ^ W) :
    (nextCoefficient q c0 c1).toInt = c0.toInt - (q.toNat : Int) * c1.toInt := by
  have hz : ((c0.toInt - (q.toNat : Int) * c1.toInt).natAbs : Int) < 2 ^ W := by exact_mod_cast h
  rw [Int.natCast_natAbs, abs_lt] at hz
  exact BitVec.toInt_ofInt_eq_self (Nat.succ_pos W) hz.1.le hz.2

end Sys2Proof.Machine
end

