-- ==== Sys2Proof/Laws/State.lean ====
section
/-! SUPPORT. One lemma per field and update, each true by `rfl`: no later proof unfolds a record update of `STATUS`, of the
working registers or of the state. -/

namespace Sys2Proof.Machine

variable {W : Nat}

@[simp] theorem Status.accepted_busy (op : BitVec 8) (f : Status) : (f.accepted op).busy = f.busy := rfl

@[simp] theorem Status.accepted_done (op : BitVec 8) (f : Status) : (f.accepted op).done = false := rfl

@[simp] theorem Status.accepted_err (op : BitVec 8) (f : Status) : (f.accepted op).err = false := rfl

@[simp] theorem Status.accepted_wreq (op : BitVec 8) (f : Status) : (f.accepted op).wreq = f.wreq := rfl

@[simp] theorem Status.accepted_hzd (op : BitVec 8) (f : Status) : (f.accepted op).hzd = f.hzd := rfl

@[simp] theorem Status.accepted_fatal (op : BitVec 8) (f : Status) : (f.accepted op).fatal = f.fatal := rfl

@[simp] theorem Status.accepted_errcode (op : BitVec 8) (f : Status) : (f.accepted op).errcode = 0 := rfl

@[simp] theorem Status.accepted_opc (op : BitVec 8) (f : Status) : (f.accepted op).opc = op := rfl

@[simp] theorem Status.started_busy (f : Status) : (f.started).busy = true := rfl

@[simp] theorem Status.started_done (f : Status) : (f.started).done = f.done := rfl

@[simp] theorem Status.started_err (f : Status) : (f.started).err = f.err := rfl

@[simp] theorem Status.started_wreq (f : Status) : (f.started).wreq = f.wreq := rfl

@[simp] theorem Status.started_hzd (f : Status) : (f.started).hzd = f.hzd := rfl

@[simp] theorem Status.started_fatal (f : Status) : (f.started).fatal = f.fatal := rfl

@[simp] theorem Status.started_errcode (f : Status) : (f.started).errcode = f.errcode := rfl

@[simp] theorem Status.started_opc (f : Status) : (f.started).opc = f.opc := rfl

@[simp] theorem Status.completed_busy (f : Status) : (f.completed).busy = false := rfl

@[simp] theorem Status.completed_done (f : Status) : (f.completed).done = true := rfl

@[simp] theorem Status.completed_err (f : Status) : (f.completed).err = f.err := rfl

@[simp] theorem Status.completed_wreq (f : Status) : (f.completed).wreq = false := rfl

@[simp] theorem Status.completed_hzd (f : Status) : (f.completed).hzd = f.hzd := rfl

@[simp] theorem Status.completed_fatal (f : Status) : (f.completed).fatal = f.fatal := rfl

@[simp] theorem Status.completed_errcode (f : Status) : (f.completed).errcode = f.errcode := rfl

@[simp] theorem Status.completed_opc (f : Status) : (f.completed).opc = f.opc := rfl

@[simp] theorem Status.failed_busy (e : ErrorCode) (f : Status) : (f.failed e).busy = false := rfl

@[simp] theorem Status.failed_done (e : ErrorCode) (f : Status) : (f.failed e).done = true := rfl

@[simp] theorem Status.failed_err (e : ErrorCode) (f : Status) : (f.failed e).err = true := rfl

@[simp] theorem Status.failed_wreq (e : ErrorCode) (f : Status) : (f.failed e).wreq = false := rfl

@[simp] theorem Status.failed_hzd (e : ErrorCode) (f : Status) : (f.failed e).hzd = f.hzd := rfl

@[simp] theorem Status.failed_fatal (e : ErrorCode) (f : Status) :
    (f.failed e).fatal = (f.fatal || decide (e = .internal)) := rfl

@[simp] theorem Status.failed_errcode (e : ErrorCode) (f : Status) : (f.failed e).errcode = e.code := rfl

@[simp] theorem Status.failed_opc (e : ErrorCode) (f : Status) : (f.failed e).opc = f.opc := rfl

@[simp] theorem Status.hazard_busy (f : Status) : (f.hazard).busy = f.busy := rfl

@[simp] theorem Status.hazard_done (f : Status) : (f.hazard).done = f.done := rfl

@[simp] theorem Status.hazard_err (f : Status) : (f.hazard).err = f.err := rfl

@[simp] theorem Status.hazard_wreq (f : Status) : (f.hazard).wreq = f.wreq := rfl

@[simp] theorem Status.hazard_hzd (f : Status) : (f.hazard).hzd = true := rfl

@[simp] theorem Status.hazard_fatal (f : Status) : (f.hazard).fatal = f.fatal := rfl

@[simp] theorem Status.hazard_errcode (f : Status) : (f.hazard).errcode = f.errcode := rfl

@[simp] theorem Status.hazard_opc (f : Status) : (f.hazard).opc = f.opc := rfl

@[simp] theorem Status.witnessAsked_busy (f : Status) : (f.witnessAsked).busy = f.busy := rfl

@[simp] theorem Status.witnessAsked_done (f : Status) : (f.witnessAsked).done = f.done := rfl

@[simp] theorem Status.witnessAsked_err (f : Status) : (f.witnessAsked).err = f.err := rfl

@[simp] theorem Status.witnessAsked_wreq (f : Status) : (f.witnessAsked).wreq = true := rfl

@[simp] theorem Status.witnessAsked_hzd (f : Status) : (f.witnessAsked).hzd = f.hzd := rfl

@[simp] theorem Status.witnessAsked_fatal (f : Status) : (f.witnessAsked).fatal = f.fatal := rfl

@[simp] theorem Status.witnessAsked_errcode (f : Status) : (f.witnessAsked).errcode = f.errcode := rfl

@[simp] theorem Status.witnessAsked_opc (f : Status) : (f.witnessAsked).opc = f.opc := rfl

@[simp] theorem Status.witnessTaken_busy (f : Status) : (f.witnessTaken).busy = f.busy := rfl

@[simp] theorem Status.witnessTaken_done (f : Status) : (f.witnessTaken).done = f.done := rfl

@[simp] theorem Status.witnessTaken_err (f : Status) : (f.witnessTaken).err = f.err := rfl

@[simp] theorem Status.witnessTaken_wreq (f : Status) : (f.witnessTaken).wreq = false := rfl

@[simp] theorem Status.witnessTaken_hzd (f : Status) : (f.witnessTaken).hzd = f.hzd := rfl

@[simp] theorem Status.witnessTaken_fatal (f : Status) : (f.witnessTaken).fatal = f.fatal := rfl

@[simp] theorem Status.witnessTaken_errcode (f : Status) : (f.witnessTaken).errcode = f.errcode := rfl

@[simp] theorem Status.witnessTaken_opc (f : Status) : (f.witnessTaken).opc = f.opc := rfl

@[simp] theorem dropWithHazard_opa (s : State.At W) : (dropWithHazard s).opa = s.opa := rfl

@[simp] theorem dropWithHazard_opb (s : State.At W) : (dropWithHazard s).opb = s.opb := rfl

@[simp] theorem dropWithHazard_opm (s : State.At W) : (dropWithHazard s).opm = s.opm := rfl

@[simp] theorem dropWithHazard_rounds (s : State.At W) : (dropWithHazard s).rounds = s.rounds := rfl

@[simp] theorem dropWithHazard_res0 (s : State.At W) : (dropWithHazard s).res0 = s.res0 := rfl

@[simp] theorem dropWithHazard_res1 (s : State.At W) : (dropWithHazard s).res1 = s.res1 := rfl

@[simp] theorem dropWithHazard_res2 (s : State.At W) : (dropWithHazard s).res2 = s.res2 := rfl

@[simp] theorem dropWithHazard_status (s : State.At W) : (dropWithHazard s).status = s.status.hazard := rfl

@[simp] theorem dropWithHazard_work (s : State.At W) : (dropWithHazard s).work = s.work := rfl

@[simp] theorem dropWithHazard_stage (s : State.At W) : (dropWithHazard s).stage = s.stage := rfl

@[simp] theorem dropWithHazard_schedule (s : State.At W) : (dropWithHazard s).schedule = s.schedule := rfl

@[simp] theorem dropWithHazard_reads (s : State.At W) : (dropWithHazard s).reads = s.reads := rfl

@[simp] theorem dropWithHazard_draws (s : State.At W) : (dropWithHazard s).draws = s.draws := rfl

@[simp] theorem raiseError_opa (e : ErrorCode) (s : State.At W) : (raiseError e s).opa = s.opa := rfl

@[simp] theorem raiseError_opb (e : ErrorCode) (s : State.At W) : (raiseError e s).opb = s.opb := rfl

@[simp] theorem raiseError_opm (e : ErrorCode) (s : State.At W) : (raiseError e s).opm = s.opm := rfl

@[simp] theorem raiseError_rounds (e : ErrorCode) (s : State.At W) : (raiseError e s).rounds = s.rounds := rfl

@[simp] theorem raiseError_res0 (e : ErrorCode) (s : State.At W) : (raiseError e s).res0 = s.res0 := rfl

@[simp] theorem raiseError_res1 (e : ErrorCode) (s : State.At W) : (raiseError e s).res1 = s.res1 := rfl

@[simp] theorem raiseError_res2 (e : ErrorCode) (s : State.At W) : (raiseError e s).res2 = s.res2 := rfl

@[simp] theorem raiseError_status (e : ErrorCode) (s : State.At W) : (raiseError e s).status = s.status.failed e := rfl

@[simp] theorem raiseError_work (e : ErrorCode) (s : State.At W) : (raiseError e s).work = s.work := rfl

@[simp] theorem raiseError_stage (e : ErrorCode) (s : State.At W) : (raiseError e s).stage = s.stage := rfl

@[simp] theorem raiseError_schedule (e : ErrorCode) (s : State.At W) : (raiseError e s).schedule = s.schedule := rfl

@[simp] theorem raiseError_reads (e : ErrorCode) (s : State.At W) : (raiseError e s).reads = s.reads := rfl

@[simp] theorem raiseError_draws (e : ErrorCode) (s : State.At W) : (raiseError e s).draws = s.draws := rfl

@[simp] theorem complete_opa (a : Word W) (b c : Option (Word W)) (s : State.At W) : (complete a b c s).opa = s.opa := rfl

@[simp] theorem complete_opb (a : Word W) (b c : Option (Word W)) (s : State.At W) : (complete a b c s).opb = s.opb := rfl

@[simp] theorem complete_opm (a : Word W) (b c : Option (Word W)) (s : State.At W) : (complete a b c s).opm = s.opm := rfl

@[simp] theorem complete_rounds (a : Word W) (b c : Option (Word W)) (s : State.At W) : (complete a b c s).rounds = s.rounds := rfl

@[simp] theorem complete_res0 (a : Word W) (b c : Option (Word W)) (s : State.At W) : (complete a b c s).res0 = a := rfl

@[simp] theorem complete_res1 (a : Word W) (b c : Option (Word W)) (s : State.At W) : (complete a b c s).res1 = b.getD s.res1 := rfl

@[simp] theorem complete_res2 (a : Word W) (b c : Option (Word W)) (s : State.At W) : (complete a b c s).res2 = c.getD s.res2 := rfl

@[simp] theorem complete_status (a : Word W) (b c : Option (Word W)) (s : State.At W) :
    (complete a b c s).status = s.status.completed := rfl

@[simp] theorem complete_work (a : Word W) (b c : Option (Word W)) (s : State.At W) : (complete a b c s).work = s.work := rfl

@[simp] theorem complete_stage (a : Word W) (b c : Option (Word W)) (s : State.At W) : (complete a b c s).stage = s.stage := rfl

@[simp] theorem complete_schedule (a : Word W) (b c : Option (Word W)) (s : State.At W) :
    (complete a b c s).schedule = s.schedule := rfl

@[simp] theorem complete_reads (a : Word W) (b c : Option (Word W)) (s : State.At W) : (complete a b c s).reads = s.reads := rfl

@[simp] theorem complete_draws (a : Word W) (b c : Option (Word W)) (s : State.At W) : (complete a b c s).draws = s.draws := rfl

@[simp] theorem regRead_opa (who : Agent) (r : Reg) (s : State.At W) : (regRead who r s).opa = s.opa := rfl

@[simp] theorem regRead_opb (who : Agent) (r : Reg) (s : State.At W) : (regRead who r s).opb = s.opb := rfl

@[simp] theorem regRead_opm (who : Agent) (r : Reg) (s : State.At W) : (regRead who r s).opm = s.opm := rfl

@[simp] theorem regRead_rounds (who : Agent) (r : Reg) (s : State.At W) : (regRead who r s).rounds = s.rounds := rfl

@[simp] theorem regRead_res0 (who : Agent) (r : Reg) (s : State.At W) : (regRead who r s).res0 = s.res0 := rfl

@[simp] theorem regRead_res1 (who : Agent) (r : Reg) (s : State.At W) : (regRead who r s).res1 = s.res1 := rfl

@[simp] theorem regRead_res2 (who : Agent) (r : Reg) (s : State.At W) : (regRead who r s).res2 = s.res2 := rfl

@[simp] theorem regRead_status (who : Agent) (r : Reg) (s : State.At W) : (regRead who r s).status = s.status := rfl

@[simp] theorem regRead_work (who : Agent) (r : Reg) (s : State.At W) : (regRead who r s).work = s.work := rfl

@[simp] theorem regRead_stage (who : Agent) (r : Reg) (s : State.At W) : (regRead who r s).stage = s.stage := rfl

@[simp] theorem regRead_schedule (who : Agent) (r : Reg) (s : State.At W) : (regRead who r s).schedule = s.schedule := rfl

@[simp] theorem regRead_reads (who : Agent) (r : Reg) (s : State.At W) :
    (regRead who r s).reads = ⟨who, r, readValue r s⟩ :: s.reads := rfl

@[simp] theorem regRead_draws (who : Agent) (r : Reg) (s : State.At W) :
    (regRead who r s).draws = if readIsFree r s then s.draws + 1 else s.draws := rfl

@[simp] theorem resetBlock_opa (s : State.At W) : (resetBlock s).opa = 0 := rfl

@[simp] theorem resetBlock_opb (s : State.At W) : (resetBlock s).opb = 0 := rfl

@[simp] theorem resetBlock_opm (s : State.At W) : (resetBlock s).opm = 0 := rfl

@[simp] theorem resetBlock_rounds (s : State.At W) : (resetBlock s).rounds = 0 := rfl

@[simp] theorem resetBlock_res0 (s : State.At W) : (resetBlock s).res0 = 0 := rfl

@[simp] theorem resetBlock_res1 (s : State.At W) : (resetBlock s).res1 = 0 := rfl

@[simp] theorem resetBlock_res2 (s : State.At W) : (resetBlock s).res2 = 0 := rfl

@[simp] theorem resetBlock_status (s : State.At W) : (resetBlock s).status = Status.reset := rfl

@[simp] theorem resetBlock_work (s : State.At W) : (resetBlock s).work = unspecifiedWorking s.draws := rfl

@[simp] theorem resetBlock_stage (s : State.At W) : (resetBlock s).stage = .entry := rfl

@[simp] theorem resetBlock_schedule (s : State.At W) : (resetBlock s).schedule = s.schedule := rfl

@[simp] theorem resetBlock_reads (s : State.At W) : (resetBlock s).reads = s.reads := rfl

@[simp] theorem resetBlock_draws (s : State.At W) : (resetBlock s).draws = s.draws + workingDraws := rfl

@[simp] theorem gcdPass_ga (w : Working W) : (gcdPass w).ga = w.gb := rfl

@[simp] theorem gcdPass_gb (w : Working W) : (gcdPass w).gb = BitVec.ofNat W (w.ga.toNat % w.gb.toNat) := rfl

@[simp] theorem gcdPass_r0 (w : Working W) : (gcdPass w).r0 = w.r0 := rfl

@[simp] theorem gcdPass_r1 (w : Working W) : (gcdPass w).r1 = w.r1 := rfl

@[simp] theorem gcdPass_s0 (w : Working W) : (gcdPass w).s0 = w.s0 := rfl

@[simp] theorem gcdPass_s1 (w : Working W) : (gcdPass w).s1 = w.s1 := rfl

@[simp] theorem gcdPass_t0 (w : Working W) : (gcdPass w).t0 = w.t0 := rfl

@[simp] theorem gcdPass_t1 (w : Working W) : (gcdPass w).t1 = w.t1 := rfl

@[simp] theorem gcdPass_q (w : Working W) : (gcdPass w).q = w.q := rfl

@[simp] theorem gcdPass_acc (w : Working W) : (gcdPass w).acc = w.acc := rfl

@[simp] theorem gcdPass_pb (w : Working W) : (gcdPass w).pb = w.pb := rfl

@[simp] theorem gcdPass_pe (w : Working W) : (gcdPass w).pe = w.pe := rfl

@[simp] theorem gcdPass_pm (w : Working W) : (gcdPass w).pm = w.pm := rfl

@[simp] theorem gcdPass_prod (w : Working W) : (gcdPass w).prod = w.prod := rfl

@[simp] theorem gcdPass_mn (w : Working W) : (gcdPass w).mn = w.mn := rfl

@[simp] theorem gcdPass_mr (w : Working W) : (gcdPass w).mr = w.mr := rfl

@[simp] theorem gcdPass_md (w : Working W) : (gcdPass w).md = w.md := rfl

@[simp] theorem gcdPass_ma (w : Working W) : (gcdPass w).ma = w.ma := rfl

@[simp] theorem gcdPass_mx (w : Working W) : (gcdPass w).mx = w.mx := rfl

@[simp] theorem gcdPass_mi (w : Working W) : (gcdPass w).mi = w.mi := rfl

@[simp] theorem gcdPass_mj (w : Working W) : (gcdPass w).mj = w.mj := rfl

@[simp] theorem gcdPass_mk (w : Working W) : (gcdPass w).mk = w.mk := rfl

@[simp] theorem gcdPass_fa (w : Working W) : (gcdPass w).fa = w.fa := rfl

@[simp] theorem gcdPass_fb (w : Working W) : (gcdPass w).fb = w.fb := rfl

@[simp] theorem startCoefficients_ga (w : Working W) : (startCoefficients w).ga = w.ga := rfl

@[simp] theorem startCoefficients_gb (w : Working W) : (startCoefficients w).gb = w.gb := rfl

@[simp] theorem startCoefficients_r0 (w : Working W) : (startCoefficients w).r0 = w.r0 := rfl

@[simp] theorem startCoefficients_r1 (w : Working W) : (startCoefficients w).r1 = w.r1 := rfl

@[simp] theorem startCoefficients_s0 (w : Working W) : (startCoefficients w).s0 = 1 := rfl

@[simp] theorem startCoefficients_s1 (w : Working W) : (startCoefficients w).s1 = 0 := rfl

@[simp] theorem startCoefficients_t0 (w : Working W) : (startCoefficients w).t0 = 0 := rfl

@[simp] theorem startCoefficients_t1 (w : Working W) : (startCoefficients w).t1 = 1 := rfl

@[simp] theorem startCoefficients_q (w : Working W) : (startCoefficients w).q = w.q := rfl

@[simp] theorem startCoefficients_acc (w : Working W) : (startCoefficients w).acc = w.acc := rfl

@[simp] theorem startCoefficients_pb (w : Working W) : (startCoefficients w).pb = w.pb := rfl

@[simp] theorem startCoefficients_pe (w : Working W) : (startCoefficients w).pe = w.pe := rfl

@[simp] theorem startCoefficients_pm (w : Working W) : (startCoefficients w).pm = w.pm := rfl

@[simp] theorem startCoefficients_prod (w : Working W) : (startCoefficients w).prod = w.prod := rfl

@[simp] theorem startCoefficients_mn (w : Working W) : (startCoefficients w).mn = w.mn := rfl

@[simp] theorem startCoefficients_mr (w : Working W) : (startCoefficients w).mr = w.mr := rfl

@[simp] theorem startCoefficients_md (w : Working W) : (startCoefficients w).md = w.md := rfl

@[simp] theorem startCoefficients_ma (w : Working W) : (startCoefficients w).ma = w.ma := rfl

@[simp] theorem startCoefficients_mx (w : Working W) : (startCoefficients w).mx = w.mx := rfl

@[simp] theorem startCoefficients_mi (w : Working W) : (startCoefficients w).mi = w.mi := rfl

@[simp] theorem startCoefficients_mj (w : Working W) : (startCoefficients w).mj = w.mj := rfl

@[simp] theorem startCoefficients_mk (w : Working W) : (startCoefficients w).mk = w.mk := rfl

@[simp] theorem startCoefficients_fa (w : Working W) : (startCoefficients w).fa = w.fa := rfl

@[simp] theorem startCoefficients_fb (w : Working W) : (startCoefficients w).fb = w.fb := rfl

@[simp] theorem powerStart_ga (b e m : Word W) (w : Working W) : (powerStart b e m w).ga = w.ga := rfl

@[simp] theorem powerStart_gb (b e m : Word W) (w : Working W) : (powerStart b e m w).gb = w.gb := rfl

@[simp] theorem powerStart_r0 (b e m : Word W) (w : Working W) : (powerStart b e m w).r0 = w.r0 := rfl

@[simp] theorem powerStart_r1 (b e m : Word W) (w : Working W) : (powerStart b e m w).r1 = w.r1 := rfl

@[simp] theorem powerStart_s0 (b e m : Word W) (w : Working W) : (powerStart b e m w).s0 = w.s0 := rfl

@[simp] theorem powerStart_s1 (b e m : Word W) (w : Working W) : (powerStart b e m w).s1 = w.s1 := rfl

@[simp] theorem powerStart_t0 (b e m : Word W) (w : Working W) : (powerStart b e m w).t0 = w.t0 := rfl

@[simp] theorem powerStart_t1 (b e m : Word W) (w : Working W) : (powerStart b e m w).t1 = w.t1 := rfl

@[simp] theorem powerStart_q (b e m : Word W) (w : Working W) : (powerStart b e m w).q = w.q := rfl

@[simp] theorem powerStart_acc (b e m : Word W) (w : Working W) :
    (powerStart b e m w).acc = BitVec.ofNat W (1 % m.toNat) := rfl

@[simp] theorem powerStart_pb (b e m : Word W) (w : Working W) :
    (powerStart b e m w).pb = BitVec.ofNat W (b.toNat % m.toNat) := rfl

@[simp] theorem powerStart_pe (b e m : Word W) (w : Working W) : (powerStart b e m w).pe = e := rfl

@[simp] theorem powerStart_pm (b e m : Word W) (w : Working W) : (powerStart b e m w).pm = w.pm := rfl

@[simp] theorem powerStart_prod (b e m : Word W) (w : Working W) : (powerStart b e m w).prod = w.prod := rfl

@[simp] theorem powerStart_mn (b e m : Word W) (w : Working W) : (powerStart b e m w).mn = w.mn := rfl

@[simp] theorem powerStart_mr (b e m : Word W) (w : Working W) : (powerStart b e m w).mr = w.mr := rfl

@[simp] theorem powerStart_md (b e m : Word W) (w : Working W) : (powerStart b e m w).md = w.md := rfl

@[simp] theorem powerStart_ma (b e m : Word W) (w : Working W) : (powerStart b e m w).ma = w.ma := rfl

@[simp] theorem powerStart_mx (b e m : Word W) (w : Working W) : (powerStart b e m w).mx = w.mx := rfl

@[simp] theorem powerStart_mi (b e m : Word W) (w : Working W) : (powerStart b e m w).mi = w.mi := rfl

@[simp] theorem powerStart_mj (b e m : Word W) (w : Working W) : (powerStart b e m w).mj = w.mj := rfl

@[simp] theorem powerStart_mk (b e m : Word W) (w : Working W) : (powerStart b e m w).mk = w.mk := rfl

@[simp] theorem powerStart_fa (b e m : Word W) (w : Working W) : (powerStart b e m w).fa = w.fa := rfl

@[simp] theorem powerStart_fb (b e m : Word W) (w : Working W) : (powerStart b e m w).fb = w.fb := rfl

@[simp] theorem powerPass_ga (m : Word W) (w : Working W) : (powerPass m w).ga = w.ga := rfl

@[simp] theorem powerPass_gb (m : Word W) (w : Working W) : (powerPass m w).gb = w.gb := rfl

@[simp] theorem powerPass_r0 (m : Word W) (w : Working W) : (powerPass m w).r0 = w.r0 := rfl

@[simp] theorem powerPass_r1 (m : Word W) (w : Working W) : (powerPass m w).r1 = w.r1 := rfl

@[simp] theorem powerPass_s0 (m : Word W) (w : Working W) : (powerPass m w).s0 = w.s0 := rfl

@[simp] theorem powerPass_s1 (m : Word W) (w : Working W) : (powerPass m w).s1 = w.s1 := rfl

@[simp] theorem powerPass_t0 (m : Word W) (w : Working W) : (powerPass m w).t0 = w.t0 := rfl

@[simp] theorem powerPass_t1 (m : Word W) (w : Working W) : (powerPass m w).t1 = w.t1 := rfl

@[simp] theorem powerPass_q (m : Word W) (w : Working W) : (powerPass m w).q = w.q := rfl

@[simp] theorem powerPass_acc (m : Word W) (w : Working W) :
    (powerPass m w).acc = if w.pe.getLsbD 0 then mulmodWord w.acc w.pb m else w.acc := rfl

@[simp] theorem powerPass_pb (m : Word W) (w : Working W) : (powerPass m w).pb = mulmodWord w.pb w.pb m := rfl

@[simp] theorem powerPass_pe (m : Word W) (w : Working W) : (powerPass m w).pe = BitVec.ofNat W (w.pe.toNat / 2) := rfl

@[simp] theorem powerPass_pm (m : Word W) (w : Working W) : (powerPass m w).pm = w.pm := rfl

@[simp] theorem powerPass_prod (m : Word W) (w : Working W) : (powerPass m w).prod = product w.pb w.pb := rfl

@[simp] theorem powerPass_mn (m : Word W) (w : Working W) : (powerPass m w).mn = w.mn := rfl

@[simp] theorem powerPass_mr (m : Word W) (w : Working W) : (powerPass m w).mr = w.mr := rfl

@[simp] theorem powerPass_md (m : Word W) (w : Working W) : (powerPass m w).md = w.md := rfl

@[simp] theorem powerPass_ma (m : Word W) (w : Working W) : (powerPass m w).ma = w.ma := rfl

@[simp] theorem powerPass_mx (m : Word W) (w : Working W) : (powerPass m w).mx = w.mx := rfl

@[simp] theorem powerPass_mi (m : Word W) (w : Working W) : (powerPass m w).mi = w.mi := rfl

@[simp] theorem powerPass_mj (m : Word W) (w : Working W) : (powerPass m w).mj = w.mj := rfl

@[simp] theorem powerPass_mk (m : Word W) (w : Working W) : (powerPass m w).mk = w.mk := rfl

@[simp] theorem powerPass_fa (m : Word W) (w : Working W) : (powerPass m w).fa = w.fa := rfl

@[simp] theorem powerPass_fb (m : Word W) (w : Working W) : (powerPass m w).fb = w.fb := rfl

@[simp] theorem startDecompose_ga (w : Working W) : (startDecompose w).ga = w.ga := rfl

@[simp] theorem startDecompose_gb (w : Working W) : (startDecompose w).gb = w.gb := rfl

@[simp] theorem startDecompose_r0 (w : Working W) : (startDecompose w).r0 = w.r0 := rfl

@[simp] theorem startDecompose_r1 (w : Working W) : (startDecompose w).r1 = w.r1 := rfl

@[simp] theorem startDecompose_s0 (w : Working W) : (startDecompose w).s0 = w.s0 := rfl

@[simp] theorem startDecompose_s1 (w : Working W) : (startDecompose w).s1 = w.s1 := rfl

@[simp] theorem startDecompose_t0 (w : Working W) : (startDecompose w).t0 = w.t0 := rfl

@[simp] theorem startDecompose_t1 (w : Working W) : (startDecompose w).t1 = w.t1 := rfl

@[simp] theorem startDecompose_q (w : Working W) : (startDecompose w).q = w.q := rfl

@[simp] theorem startDecompose_acc (w : Working W) : (startDecompose w).acc = w.acc := rfl

@[simp] theorem startDecompose_pb (w : Working W) : (startDecompose w).pb = w.pb := rfl

@[simp] theorem startDecompose_pe (w : Working W) : (startDecompose w).pe = w.pe := rfl

@[simp] theorem startDecompose_pm (w : Working W) : (startDecompose w).pm = w.pm := rfl

@[simp] theorem startDecompose_prod (w : Working W) : (startDecompose w).prod = w.prod := rfl

@[simp] theorem startDecompose_mn (w : Working W) : (startDecompose w).mn = w.mn := rfl

@[simp] theorem startDecompose_mr (w : Working W) : (startDecompose w).mr = 0 := rfl

@[simp] theorem startDecompose_md (w : Working W) : (startDecompose w).md = BitVec.ofNat W (w.mn.toNat - 1) := rfl

@[simp] theorem startDecompose_ma (w : Working W) : (startDecompose w).ma = w.ma := rfl

@[simp] theorem startDecompose_mx (w : Working W) : (startDecompose w).mx = w.mx := rfl

@[simp] theorem startDecompose_mi (w : Working W) : (startDecompose w).mi = w.mi := rfl

@[simp] theorem startDecompose_mj (w : Working W) : (startDecompose w).mj = w.mj := rfl

@[simp] theorem startDecompose_mk (w : Working W) : (startDecompose w).mk = w.mk := rfl

@[simp] theorem startDecompose_fa (w : Working W) : (startDecompose w).fa = w.fa := rfl

@[simp] theorem startDecompose_fb (w : Working W) : (startDecompose w).fb = w.fb := rfl

@[simp] theorem halvePass_ga (w : Working W) : (halvePass w).ga = w.ga := rfl

@[simp] theorem halvePass_gb (w : Working W) : (halvePass w).gb = w.gb := rfl

@[simp] theorem halvePass_r0 (w : Working W) : (halvePass w).r0 = w.r0 := rfl

@[simp] theorem halvePass_r1 (w : Working W) : (halvePass w).r1 = w.r1 := rfl

@[simp] theorem halvePass_s0 (w : Working W) : (halvePass w).s0 = w.s0 := rfl

@[simp] theorem halvePass_s1 (w : Working W) : (halvePass w).s1 = w.s1 := rfl

@[simp] theorem halvePass_t0 (w : Working W) : (halvePass w).t0 = w.t0 := rfl

@[simp] theorem halvePass_t1 (w : Working W) : (halvePass w).t1 = w.t1 := rfl

@[simp] theorem halvePass_q (w : Working W) : (halvePass w).q = w.q := rfl

@[simp] theorem halvePass_acc (w : Working W) : (halvePass w).acc = w.acc := rfl

@[simp] theorem halvePass_pb (w : Working W) : (halvePass w).pb = w.pb := rfl

@[simp] theorem halvePass_pe (w : Working W) : (halvePass w).pe = w.pe := rfl

@[simp] theorem halvePass_pm (w : Working W) : (halvePass w).pm = w.pm := rfl

@[simp] theorem halvePass_prod (w : Working W) : (halvePass w).prod = w.prod := rfl

@[simp] theorem halvePass_mn (w : Working W) : (halvePass w).mn = w.mn := rfl

@[simp] theorem halvePass_mr (w : Working W) : (halvePass w).mr = w.mr + 1 := rfl

@[simp] theorem halvePass_md (w : Working W) : (halvePass w).md = BitVec.ofNat W (w.md.toNat / 2) := rfl

@[simp] theorem halvePass_ma (w : Working W) : (halvePass w).ma = w.ma := rfl

@[simp] theorem halvePass_mx (w : Working W) : (halvePass w).mx = w.mx := rfl

@[simp] theorem halvePass_mi (w : Working W) : (halvePass w).mi = w.mi := rfl

@[simp] theorem halvePass_mj (w : Working W) : (halvePass w).mj = w.mj := rfl

@[simp] theorem halvePass_mk (w : Working W) : (halvePass w).mk = w.mk := rfl

@[simp] theorem halvePass_fa (w : Working W) : (halvePass w).fa = w.fa := rfl

@[simp] theorem halvePass_fb (w : Working W) : (halvePass w).fb = w.fb := rfl

@[simp] theorem squarePass_ga (w : Working W) : (squarePass w).ga = w.ga := rfl

@[simp] theorem squarePass_gb (w : Working W) : (squarePass w).gb = w.gb := rfl

@[simp] theorem squarePass_r0 (w : Working W) : (squarePass w).r0 = w.r0 := rfl

@[simp] theorem squarePass_r1 (w : Working W) : (squarePass w).r1 = w.r1 := rfl

@[simp] theorem squarePass_s0 (w : Working W) : (squarePass w).s0 = w.s0 := rfl

@[simp] theorem squarePass_s1 (w : Working W) : (squarePass w).s1 = w.s1 := rfl

@[simp] theorem squarePass_t0 (w : Working W) : (squarePass w).t0 = w.t0 := rfl

@[simp] theorem squarePass_t1 (w : Working W) : (squarePass w).t1 = w.t1 := rfl

@[simp] theorem squarePass_q (w : Working W) : (squarePass w).q = w.q := rfl

@[simp] theorem squarePass_acc (w : Working W) : (squarePass w).acc = w.acc := rfl

@[simp] theorem squarePass_pb (w : Working W) : (squarePass w).pb = w.pb := rfl

@[simp] theorem squarePass_pe (w : Working W) : (squarePass w).pe = w.pe := rfl

@[simp] theorem squarePass_pm (w : Working W) : (squarePass w).pm = w.pm := rfl

@[simp] theorem squarePass_prod (w : Working W) : (squarePass w).prod = product w.mx w.mx := rfl

@[simp] theorem squarePass_mn (w : Working W) : (squarePass w).mn = w.mn := rfl

@[simp] theorem squarePass_mr (w : Working W) : (squarePass w).mr = w.mr := rfl

@[simp] theorem squarePass_md (w : Working W) : (squarePass w).md = w.md := rfl

@[simp] theorem squarePass_ma (w : Working W) : (squarePass w).ma = w.ma := rfl

@[simp] theorem squarePass_mx (w : Working W) : (squarePass w).mx = mulmodWord w.mx w.mx w.mn := rfl

@[simp] theorem squarePass_mi (w : Working W) : (squarePass w).mi = w.mi + 1 := rfl

@[simp] theorem squarePass_mj (w : Working W) : (squarePass w).mj = w.mj := rfl

@[simp] theorem squarePass_mk (w : Working W) : (squarePass w).mk = w.mk := rfl

@[simp] theorem squarePass_fa (w : Working W) : (squarePass w).fa = w.fa := rfl

@[simp] theorem squarePass_fb (w : Working W) : (squarePass w).fb = w.fb := rfl

end Sys2Proof.Machine
end

