-- ==== Sys2Proof/Laws/Ops.lean ====
section
/-! SUPPORT. What the decoder, the bus and the controller can do, said once. -/

namespace Sys2Proof.Machine

variable {W : Nat}

/-- At an admissible width the word of a command is its opcode as a number. -/
theorem encode_toNat (hW : Config.Admissible W) (i : Instr) : (encode i W).toNat = i.opcode.toNat := by
  rw [encode, BitVec.toNat_setWidth, BitVec.toNat_append]
  have h8 := i.opcode.isLt
  have := admissible_room hW
  have hz : (0 : BitVec (W - 8)).toNat = 0 := by simp
  rw [hz, Nat.zero_shiftLeft, Nat.zero_or]
  exact Nat.mod_eq_of_lt (by omega)

/-- A word decodes to a command exactly when it is that command's word (R74: the mask is all ones). -/
theorem decode_eq_some_iff (hW : Config.Admissible W) (c : Word W) (i : Instr) : decode c = some i ↔ c = encode i W := by
  have hr := admissible_room hW
  have hfit : ∀ r ∈ opcodeRows W, r.fits c = decide (c.toNat = r.instr.opcode.toNat) := by
    have key : ∀ k : Nat, k < 256 → ((c &&& BitVec.allOnes W) == BitVec.ofNat W k) = decide (c.toNat = k) := by
      intro k hk
      have hn : (BitVec.ofNat W k).toNat = k := word_ofNat_toNat (by omega)
      rw [BitVec.and_allOnes, Bool.eq_iff_iff, beq_iff_eq, decide_eq_true_eq]
      exact ⟨fun h => by rw [h, hn], fun h => BitVec.eq_of_toNat_eq (by rw [h, hn])⟩
    intro r hr
    simp only [opcodeRows, List.mem_cons, List.not_mem_nil, or_false] at hr
    rcases hr with rfl | rfl | rfl | rfl | rfl | rfl | rfl <;> exact key _ (by decide)
  have hi : c = encode i W ↔ c.toNat = i.opcode.toNat :=
    ⟨fun h => by rw [h, encode_toNat hW], fun h => BitVec.eq_of_toNat_eq (by rw [h, encode_toNat hW])⟩
  rw [hi, decode]
  constructor
  · intro h
    obtain ⟨r, hr, rfl⟩ := Option.map_eq_some_iff.1 h
    have := List.find?_some hr
    rw [hfit r (List.mem_of_find?_eq_some hr)] at this
    simpa using this
  · intro h
    rw [List.find?_congr hfit]
    simp only [h]
    cases i <;> rfl

/-- The two fields of a command's word (R70). -/
theorem encode_fields (hW : Config.Admissible W) (i : Instr) :
    (encode i W).extractLsb' 8 (W - 8) = 0 ∧ opcodeField (encode i W) = i.opcode := by
  have h8 := i.opcode.isLt
  constructor <;> apply BitVec.eq_of_toNat_eq
  · rw [BitVec.extractLsb'_toNat, encode_toNat hW, Nat.shiftRight_eq_div_pow, Nat.div_eq_of_lt h8]
    simp
  · rw [opcodeField, BitVec.extractLsb'_toNat, encode_toNat hW, Nat.shiftRight_zero, Nat.mod_eq_of_lt h8]

theorem decodeOpcode_opcode (i : Instr) : decodeOpcode i.opcode = some i := by
  cases i <;> decide

/-- The controller runs command `i` exactly when `OPC` is its opcode. -/
theorem decodeOpcode_eq_some_iff (op : BitVec 8) (i : Instr) : decodeOpcode op = some i ↔ op = i.opcode := by
  constructor
  · intro h
    have := List.find?_some h
    simpa using (beq_iff_eq.1 this).symm
  · rintro rfl
    exact decodeOpcode_opcode i

theorem execAt_eq_issue (i : Instr) (s : State.At W) : ∃ w, execAt i s = .next (issue i.opcode w s) := by
  cases i <;> exact ⟨_, rfl⟩

theorem issue_dropped (op : BitVec 8) (w : Working W) (s : State.At W) (h : s.status.busy = true ∨ s.status.fatal = true) :
    issue op w s = dropWithHazard s := by
  rw [issue, if_pos]
  simpa [Status.refusesCommands] using h

theorem issue_accepted (op : BitVec 8) (w : Working W) (s : State.At W) (hb : s.status.busy = false)
    (hf : s.status.fatal = false) :
    issue op w s = { s with status := (s.status.accepted op).started, work := w, stage := .entry } := by
  rw [issue, if_neg]
  simp [Status.refusesCommands, hb, hf]

/-- Every command issue is one of two things (R72). -/
theorem execAt_cases {i : Instr} {s t : State.At W} (h : execAt i s = .next t) :
    ((s.status.busy = true ∨ s.status.fatal = true) ∧ t = dropWithHazard s) ∨
    (s.status.busy = false ∧ s.status.fatal = false ∧
      ∃ w, t = { s with status := (s.status.accepted i.opcode).started, work := w, stage := .entry }) := by
  obtain ⟨w, hw⟩ := execAt_eq_issue i s
  rw [hw, Host.Outcome.next.injEq] at h
  subst h
  by_cases hbf : s.status.busy = true ∨ s.status.fatal = true
  · exact .inl ⟨hbf, issue_dropped _ _ _ hbf⟩
  · simp only [not_or, Bool.not_eq_true] at hbf
    exact .inr ⟨hbf.1, hbf.2, w, issue_accepted _ _ _ hbf.1 hbf.2⟩

/-- Every `CMD` write is one of three things (R72, R75). -/
theorem commandWrite_cases (hW : Config.Admissible W) {c : Word W} {s t : State.At W} (h : commandWrite c s = .next t) :
    ((s.status.busy = true ∨ s.status.fatal = true) ∧ t = dropWithHazard s) ∨
    (s.status.busy = false ∧ s.status.fatal = false ∧
      ((∃ i w, c = encode i W ∧
          t = { s with status := (s.status.accepted i.opcode).started, work := w, stage := .entry }) ∨
        (decode c = none ∧
          t = raiseError .illegalCmd { s with status := s.status.accepted (opcodeField c) }))) := by
  rw [commandWrite] at h
  split at h
  · rename_i i hi
    obtain ⟨hbf, rfl⟩ | ⟨hb, hf, w, rfl⟩ := execAt_cases h
    · exact .inl ⟨hbf, rfl⟩
    · exact .inr ⟨hb, hf, .inl ⟨i, w, (decode_eq_some_iff hW _ _).1 hi, rfl⟩⟩
  · rename_i hn
    rw [Host.Outcome.next.injEq] at h
    subst h
    by_cases hbf : s.status.busy = true ∨ s.status.fatal = true
    · refine .inl ⟨hbf, ?_⟩
      rw [issueIllegal, if_pos]
      simpa [Status.refusesCommands] using hbf
    · simp only [not_or, Bool.not_eq_true] at hbf
      refine .inr ⟨hbf.1, hbf.2, .inr ⟨hn, ?_⟩⟩
      rw [issueIllegal, if_neg]
      simp [Status.refusesCommands, hbf.1, hbf.2]

theorem commandWrite_answers (c : Word W) (s : State.At W) : ∃ t, commandWrite c s = .next t := by
  rw [commandWrite]
  split
  · obtain ⟨w, hw⟩ := execAt_eq_issue ‹_› s
    exact ⟨_, hw⟩
  · exact ⟨_, rfl⟩

/-- A write never stops the machine (R56). -/
theorem regWrite_answers (r : Reg) (v : Word W) (s : State.At W) : ∃ t, regWrite r v s = .next t := by
  cases r <;> first | exact commandWrite_answers v s | exact ⟨_, rfl⟩

theorem Reg.ofSlot_eq_some_iff (k : Nat) (r : Reg) : Reg.ofSlot k = some r ↔ k = r.slot := by
  constructor
  · intro h
    rw [Reg.ofSlot.eq_def] at h
    split at h <;> first | (cases h; rfl) | simp at h
  · rintro rfl
    cases r with
    | reserved k => revert k; decide
    | _ => rfl

theorem Reg.ofSlot_eq_none_iff (k : Nat) : Reg.ofSlot k = none ↔ 16 ≤ k := by
  rcases Nat.lt_or_ge k 16 with hk | hk
  · refine iff_of_false ?_ (by omega)
    interval_cases k <;> simp [Reg.ofSlot]
  · obtain ⟨j, rfl⟩ := Nat.exists_eq_add_of_le' hk
    simp [Reg.ofSlot]

/-- An access reaches a register exactly when it is that register's whole slot (R51, R54). -/
theorem regOfAccess_eq_some_iff (hW : Config.Admissible W) (offset bytes : Nat) (r : Reg) :
    regOfAccess offset bytes W = some r ↔ offset = r.offset W ∧ bytes = Config.slotBytes W := by
  have hb : 0 < Config.slotBytes W := Nat.div_pos (le_trans (by norm_num) hW.1) (by norm_num)
  rw [regOfAccess, Reg.offset]
  generalize Config.slotBytes W = n at hb
  constructor
  · intro h
    split at h
    · rename_i hc
      rw [Reg.ofSlot_eq_some_iff] at h
      exact ⟨by rw [← h, Nat.div_mul_cancel (Nat.dvd_of_mod_eq_zero hc.2)], hc.1⟩
    · simp at h
  · rintro ⟨rfl, rfl⟩
    rw [if_pos ⟨rfl, Nat.mul_mod_left _ _⟩, Nat.mul_div_cancel _ hb, Reg.ofSlot_eq_some_iff]

theorem regOfAccess_offset (hW : Config.Admissible W) (r : Reg) :
    regOfAccess (r.offset W) (Config.slotBytes W) W = some r :=
  (regOfAccess_eq_some_iff hW _ _ _).2 ⟨rfl, rfl⟩

theorem regOfAccess_none_iff (offset bytes : Nat) :
    regOfAccess offset bytes W = none ↔ WellFormed.slotAccess offset bytes W = false := by
  rw [regOfAccess, WellFormed.slotAccess]
  by_cases h1 : bytes = Config.slotBytes W <;> by_cases h2 : offset % Config.slotBytes W = 0 <;>
    simp [h1, h2, Reg.ofSlot_eq_none_iff, Config.slotCount]

/-- What a turn of the controller can be (R57, R39). -/
theorem controllerStep_cases {s t : State.At W} (h : controllerStep s = .next t) :
    (s.status.phase ≠ some .run ∧ t = s) ∨
    (s.status.phase = some .run ∧ ∃ i, s.status.opc = i.opcode ∧ iterate i s = .next t) := by
  rw [controllerStep] at h
  split at h
  · rename_i hp
    split at h
    · rename_i i hi
      exact .inr ⟨hp, i, (decodeOpcode_eq_some_iff _ _).1 hi, h⟩
    · simp at h
  · rename_i hp
    exact .inl ⟨hp, (Host.Outcome.next.injEq _ _ ▸ h).symm⟩

theorem controllerStep_run {s : State.At W} {i : Instr} (hp : s.status.phase = some .run) (ho : s.status.opc = i.opcode) :
    controllerStep s = iterate i s := by
  rw [controllerStep, if_pos hp, ho, decodeOpcode_opcode]

theorem controllerStep_rest {s : State.At W} (hp : s.status.phase ≠ some .run) : controllerStep s = .next s := by
  rw [controllerStep, if_neg hp]

theorem phase_run_iff (f : Status) : f.phase = some .run ↔ f.busy = true ∧ f.done = false ∧ f.wreq = false := by
  cases hb : f.busy <;> cases hd : f.done <;> cases hw : f.wreq <;> simp [Status.phase, hb, hd, hw]

theorem phase_idle_iff (f : Status) : f.phase = some .idle ↔ f.busy = false ∧ f.done = false ∧ f.wreq = false := by
  cases hb : f.busy <;> cases hd : f.done <;> cases hw : f.wreq <;> simp [Status.phase, hb, hd, hw]

theorem phase_done_iff (f : Status) : f.phase = some .done ↔ f.busy = false ∧ f.done = true ∧ f.wreq = false := by
  cases hb : f.busy <;> cases hd : f.done <;> cases hw : f.wreq <;> simp [Status.phase, hb, hd, hw]

theorem phase_waitw_iff (f : Status) : f.phase = some .waitw ↔ f.busy = true ∧ f.done = false ∧ f.wreq = true := by
  cases hb : f.busy <;> cases hd : f.done <;> cases hw : f.wreq <;> simp [Status.phase, hb, hd, hw]

/-- The flags a host polls for, at their bits of the `STATUS` word (R29). -/
theorem Status.word_polled (hW : Config.Admissible W) (f : Status) :
    (f.word W).getLsbD 1 = f.done ∧ (f.word W).getLsbD 2 = f.err ∧ (f.word W).getLsbD 3 = f.wreq ∧
      (f.word W).extractLsb' 8 4 = f.errcode := by
  have h := hW.1
  refine ⟨?_, ?_, ?_, ?_⟩
  all_goals simp only [Status.word, BitVec.getLsbD_setWidth, BitVec.getLsbD_append]
  · simp [show 1 < W by omega]
  · simp [show 2 < W by omega]
  · simp [show 3 < W by omega]
  · ext i hi
    simp only [BitVec.getElem_extractLsb', BitVec.getLsbD_setWidth, BitVec.getLsbD_append]
    have : i = 0 ∨ i = 1 ∨ i = 2 ∨ i = 3 := by omega
    rcases this with rfl | rfl | rfl | rfl <;>
      simp [BitVec.getLsbD_eq_getElem, show 8 < W by omega, show 9 < W by omega, show 10 < W by omega, show 11 < W by omega]

/-- Turns of the controller add up. -/
theorem controllerRun_add {m n : Nat} {s t : State.At W} (h : controllerRun m s = .next t) :
    controllerRun (m + n) s = controllerRun n t := by
  induction m generalizing s with
  | zero =>
    rw [controllerRun, Host.Outcome.next.injEq] at h
    rw [h, Nat.zero_add]
  | succ m ih =>
    rw [controllerRun] at h
    rw [Nat.add_right_comm, controllerRun]
    split at h
    · exact ih h
    · simp at h
    · simp at h

theorem controllerRun_one (s : State.At W) : controllerRun 1 s = controllerStep s := by
  rw [controllerRun]
  split <;> simp_all [controllerRun]

theorem controllerRun_succ {s t : State.At W} (h : controllerStep s = .next t) (n : Nat) :
    controllerRun (n + 1) s = controllerRun n t := by
  rw [controllerRun, h]

/-- A controller that has no step stays where it is. -/
theorem controllerRun_rest {s : State.At W} (hp : s.status.phase ≠ some .run) (n : Nat) : controllerRun n s = .next s := by
  induction n with
  | zero => rfl
  | succ n ih => rw [controllerRun_succ (controllerStep_rest hp), ih]

/-- Left alone, the controller has at most one place to come to rest in. -/
theorem controllerRun_rest_unique {m n : Nat} {s t u : State.At W} (ht : controllerRun m s = .next t)
    (hu : controllerRun n s = .next u) (pt : t.status.phase ≠ some .run) (pu : u.status.phase ≠ some .run) : t = u := by
  have key : ∀ {m n : Nat} {t u : State.At W}, m ≤ n → controllerRun m s = .next t → controllerRun n s = .next u →
      t.status.phase ≠ some .run → t = u := by
    intro m n t u hmn h1 h2 pt
    obtain ⟨k, rfl⟩ := Nat.exists_eq_add_of_le hmn
    rw [controllerRun_add h1, controllerRun_rest pt, Host.Outcome.next.injEq] at h2
    exact h2
  rcases Nat.le_total m n with h | h
  · exact key h ht hu pt
  · exact (key h hu ht pu).symm

end Sys2Proof.Machine
end

