-- ==== Sys2Proof/Laws/Reference.lean ====
section
/-! SUPPORT. The laws of the reference functions that the claims about the commands are built on. -/

namespace Sys2Proof.Machine.Reference

/-- More passes than the remainder needs change nothing: the recurrence of R94 has ended by then. -/
theorem xgcdFrom_fuel_enough (r1 : Nat) : ∀ (fuel r0 : Nat) (s0 s1 t0 t1 : Int), r1 < fuel →
    xgcdFrom fuel r0 r1 s0 s1 t0 t1 = xgcdFrom (r1 + 1) r0 r1 s0 s1 t0 t1 := by
  induction r1 using Nat.strong_induction_on with
  | _ r1 ih =>
    intro fuel r0 s0 s1 t0 t1 h
    obtain ⟨f, rfl⟩ : ∃ f, fuel = f + 1 := ⟨fuel - 1, by omega⟩
    by_cases hz : r1 = 0
    · simp [xgcdFrom, hz]
    · have hlt : r0 - r0 / r1 * r1 < r1 := by
        rw [mul_comm, ← Nat.mod_eq_sub_mul_div]
        exact Nat.mod_lt _ (Nat.pos_of_ne_zero hz)
      simp only [xgcdFrom, if_neg hz]
      rw [ih _ hlt f _ _ _ _ _ (by omega), ih _ hlt r1 _ _ _ _ _ hlt]

/-- One pass of the recurrence of R94. -/
theorem xgcdFrom_pass (r0 r1 : Nat) (s0 s1 t0 t1 : Int) (h : r1 ≠ 0) :
    xgcdFrom (r1 + 1) r0 r1 s0 s1 t0 t1 =
      xgcdFrom (r0 % r1 + 1) r1 (r0 % r1) s1 (s0 - (r0 / r1 : Nat) * s1) t1 (t0 - (r0 / r1 : Nat) * t1) := by
  have hlt : r0 % r1 < r1 := Nat.mod_lt _ (Nat.pos_of_ne_zero h)
  have hm : r0 - r0 / r1 * r1 = r0 % r1 := by rw [mul_comm, ← Nat.mod_eq_sub_mul_div]
  conv_lhs => rw [xgcdFrom, if_neg h]
  simp only [hm]
  exact xgcdFrom_fuel_enough _ _ _ _ _ _ _ hlt

/-- The end of the recurrence of R94. -/
theorem xgcdFrom_end (r0 : Nat) (s0 s1 t0 t1 : Int) (fuel : Nat) :
    xgcdFrom fuel r0 0 s0 s1 t0 t1 = (r0, s0, t0) := by
  cases fuel <;> simp [xgcdFrom]

/-- The loop of R131 ends with an odd `md` and the same `2^mr * md`. -/
theorem decomposeFrom_spec : ∀ (fuel mr md : Nat), 1 ≤ md → md ≤ fuel →
    2 ^ (decomposeFrom fuel mr md).1 * (decomposeFrom fuel mr md).2 = 2 ^ mr * md ∧
      (decomposeFrom fuel mr md).2 % 2 = 1
  | 0, _, _, h1, h2 => by omega
  | fuel + 1, mr, md, h1, h2 => by
    by_cases h : md % 2 = 0
    · have ih := decomposeFrom_spec fuel (mr + 1) (md / 2) (by omega) (by omega)
      rw [decomposeFrom, if_pos h]
      refine ⟨?_, ih.2⟩
      rw [ih.1, pow_succ, mul_assoc]
      congr 1
      omega
    · rw [decomposeFrom, if_neg h]
      exact ⟨rfl, by simpa using by omega⟩

/-- R131: `n - 1 = 2^r * d` with `d` odd. -/
theorem decompose_spec (n : Nat) (h : 2 ≤ n) :
    2 ^ (decompose n).1 * (decompose n).2 + 1 = n ∧ (decompose n).2 % 2 = 1 := by
  have := decomposeFrom_spec n 0 (n - 1) (by omega) (by omega)
  rw [decompose]
  refine ⟨?_, this.2⟩
  rw [this.1]
  omega

/-- R131: the decomposition is unique. -/
theorem decomposition_unique {r d r' d' : Nat} (hd : d % 2 = 1) (hd' : d' % 2 = 1)
    (h : 2 ^ r * d = 2 ^ r' * d') : r = r' ∧ d = d' := by
  have key : ∀ {r d r' d' : Nat}, d % 2 = 1 → 2 ^ r * d = 2 ^ r' * d' → r' ≤ r := by
    intro r d r' d' hd h
    have hco : Nat.Coprime (2 ^ r') d := Nat.Coprime.pow_left _ (by
      rw [Nat.coprime_two_left, Nat.odd_iff]; exact hd)
    have hdvd : 2 ^ r' ∣ 2 ^ r := hco.dvd_of_dvd_mul_right (h ▸ dvd_mul_right _ _)
    exact (Nat.pow_dvd_pow_iff_le_right (by norm_num)).1 hdvd
  have e : r = r' := le_antisymm (key hd' h.symm) (key hd h)
  subst e
  exact ⟨rfl, Nat.eq_of_mul_eq_mul_left (by positivity) h⟩

end Sys2Proof.Machine.Reference
end

