-- ==== Sys2Proof/Laws/Controller.lean ====
section
/-! SUPPORT. What one controller step of each command can do from a point its rule can be at, said once
(`iterate_iteration`), with the loop invariants it rests on. -/

namespace Sys2Proof.Machine

variable {W : Nat}

open Reference (CandidateOk WitnessOk mrRound)

/-- Alternating signs make the magnitudes of R96 add. -/
theorem natAbs_sub_mul {x y : Int} (q : Nat) (h : x * y ≤ 0) : (x - q * y).natAbs = x.natAbs + q * y.natAbs := by
  rcases le_total 0 x with hx | hx <;> rcases le_total 0 y with hy | hy
  · rcases eq_or_lt_of_le hx with rfl | hx
    · simp [Int.natAbs_mul]
    · have : y = 0 := by nlinarith
      subst this; simp
  · have : (0:Int) ≤ q * -y := mul_nonneg (by positivity) (by omega)
    have h2 : (q * y.natAbs : Nat) = (q * -y : Int).natAbs := by rw [Int.natAbs_mul, Int.natAbs_neg]; simp
    rw [h2]
    rw [mul_neg] at this ⊢
    omega
  · have : (0:Int) ≤ q * y := mul_nonneg (by positivity) (by omega)
    have h2 : (q * y.natAbs : Nat) = (q * y : Int).natAbs := by rw [Int.natAbs_mul]; simp
    rw [h2]; omega
  · rcases eq_or_lt_of_le hy with rfl | hy
    · simp
    · have : x = 0 := by nlinarith
      subst this; simp [Int.natAbs_mul]

/-- The coefficients of R94 alternate in sign. -/
theorem sign_step {x y : Int} (q : Nat) (h : x * y ≤ 0) : y * (x - q * y) ≤ 0 := by
  nlinarith [mul_nonneg (Int.natCast_nonneg q) (mul_self_nonneg y)]

/-- R94's variables at the start of the loop. -/
theorem xgcdPoint_start (a b : Nat) : XgcdPoint a b a b 1 0 0 1 where
  row0 := by simp
  row1 := by simp
  size_s := by simp
  size_t := by simp
  signs_s := by simp
  signs_t := by simp
  result := rfl
  common := rfl
  falling := .inl ⟨rfl, rfl, rfl, rfl⟩

/-- One pass of the loop of R94 keeps its invariant. -/
theorem xgcdPoint_pass {a b r0 r1 : Nat} {s0 s1 t0 t1 : Int} (p : XgcdPoint a b r0 r1 s0 s1 t0 t1) (h : r1 ≠ 0) :
    XgcdPoint a b r1 (r0 % r1) s1 (s0 - (r0 / r1 : Nat) * s1) t1 (t0 - (r0 / r1 : Nat) * t1) := by
  obtain ⟨h0, h1, hs, ht, gs, gt, hr, hc, hf⟩ := p
  have hdm := Nat.div_add_mod r0 r1
  set q := r0 / r1 with hq
  have hdmz : (r1 : Int) * q + ((r0 % r1 : Nat) : Int) = r0 := by exact_mod_cast hdm
  have hm : r0 % r1 < r1 := Nat.mod_lt _ (Nat.pos_of_ne_zero h)
  refine ⟨h1, ?_, ?_, ?_, sign_step q gs, sign_step q gt, ?_, ?_, ?_⟩
  · linear_combination h0 - (q : Int) * h1 - hdmz
  · rw [natAbs_sub_mul q gs]
    generalize s1.natAbs = x at *; generalize s0.natAbs = y at *; generalize r0 % r1 = m at *
    rw [← hs, ← hdm]; ring
  · rw [natAbs_sub_mul q gt]
    generalize t1.natAbs = x at *; generalize t0.natAbs = y at *; generalize r0 % r1 = m at *
    rw [← ht, ← hdm]; ring
  · rw [← hr, Reference.xgcdFrom_pass _ _ _ _ _ _ h]
  · rw [← hc, Nat.gcd_comm r0 r1, Nat.gcd_rec r1 r0, Nat.gcd_comm]
  · right
    refine ⟨hm, fun hz => ?_⟩
    rcases hf with ⟨e1, e2, e3, e4⟩ | ⟨hlt, -⟩
    · subst e1 e2 e3 e4
      simp
    · rw [hz, add_zero] at hdm
      have hq2 : 2 ≤ q := by
        clear hdmz
        clear_value q
        by_contra hcon
        have : q = 0 ∨ q = 1 := by omega
        rcases this with rfl | rfl <;> simp at hdm <;> omega
      rw [natAbs_sub_mul q gs, natAbs_sub_mul q gt]
      constructor <;> right
      · nlinarith [Nat.zero_le s0.natAbs]
      · nlinarith [Nat.zero_le t0.natAbs]

/-- The bound of R96 from the last pass. -/
theorem half_bound {x y g b : Nat} (hg : 0 < g) (hb : y * g = b) (h : x ≤ 1 ∨ 2 * x ≤ y) : x ≤ max 1 (b / (2 * g)) := by
  rcases h with h | h
  · exact le_trans h (le_max_left _ _)
  · refine le_trans ?_ (le_max_right _ _)
    rw [Nat.le_div_iff_mul_le (by omega), ← hb]
    nlinarith

/-- What the invariant says when the loop of R94 ends. -/
theorem xgcdPoint_end {a b r0 : Nat} {s0 s1 t0 t1 : Int} (p : XgcdPoint a b r0 0 s0 s1 t0 t1) :
    Reference.xgcd a b = (r0, s0, t0) ∧ r0 = Nat.gcd a b ∧
    (0 < r0 → s0.natAbs ≤ max 1 (b / (2 * r0)) ∧ t0.natAbs ≤ max 1 (a / (2 * r0))) ∧ (r0 = 0 → s0 = 1 ∧ t0 = 0) := by
  obtain ⟨h0, h1, hs, ht, gs, gt, hr, hc, hf⟩ := p
  rw [Reference.xgcdFrom_end] at hr
  simp only [mul_zero, zero_add] at hs ht
  refine ⟨hr.symm, by simpa using hc, fun hg => ?_, fun hz => ?_⟩
  · rcases hf with ⟨e1, e2, e3, e4⟩ | ⟨hlt, hh⟩
    · subst e1 e2 e3 e4
      simp
    · obtain ⟨hs', ht'⟩ := hh rfl
      exact ⟨half_bound hg hs hs', half_bound hg ht ht'⟩
  · rcases hf with ⟨e1, e2, e3, e4⟩ | ⟨hlt, hh⟩
    · exact ⟨e1, e3⟩
    · omega

/-- In the loop of R94 a new coefficient fits its register (R96, log 18). -/
theorem xgcdPoint_fits {a b r0 r1 : Nat} {s0 s1 t0 t1 : Int} (p : XgcdPoint a b r0 r1 s0 s1 t0 t1) (h : r1 ≠ 0)
    (ha : a < 2 ^ W) (hb : b < 2 ^ W) :
    (s0 - (r0 / r1 : Nat) * s1).natAbs < 2 ^ W ∧ (t0 - (r0 / r1 : Nat) * t1).natAbs < 2 ^ W := by
  have p' := xgcdPoint_pass p h
  have hs := p'.size_s
  have ht := p'.size_t
  have h1 : 1 ≤ r1 := Nat.pos_of_ne_zero h
  constructor
  · refine lt_of_le_of_lt ?_ hb
    rw [← hs]
    nlinarith [Nat.zero_le (s1.natAbs * (r0 % r1))]
  · refine lt_of_le_of_lt ?_ ha
    rw [← ht]
    nlinarith [Nat.zero_le (t1.natAbs * (r0 % r1))]

/-- A bound on the work the controller has left, for termination (R224). -/
def remaining (i : Instr) (s : State.At W) : Nat :=
  match s.stage with
  | .entry => 3 * 2 ^ W
  | .euclid => match i with | .gcd => s.work.gb.toNat | _ => s.work.r1.toNat
  | .power => 2 ^ W + s.work.pe.toNat
  | .decompose => 2 * 2 ^ W + s.work.md.toNat
  | .request => 0
  | .witness => 2 * 2 ^ W
  | .square => 1 + (s.work.mr.toNat - s.work.mi.toNat)

/-- What a normal completion of `i` publishes, at the state that completes (R91, R94, R111, R115, R132, R135, R141). -/
def Completes (i : Instr) (s : State.At W) (r0 : Word W) (r1 r2 : Option (Word W)) : Prop :=
  match i with
  | .gcd => r0 = BitVec.ofNat W (Nat.gcd s.opa.toNat s.opb.toNat) ∧ r1 = none ∧ r2 = none
  | .xgcd => r0 = BitVec.ofNat W (Reference.xgcd s.opa.toNat s.opb.toNat).1 ∧
      r1 = some (tc (Reference.xgcd s.opa.toNat s.opb.toNat).2.1) ∧ r2 = some (tc (Reference.xgcd s.opa.toNat s.opb.toNat).2.2)
  | .mulmod => s.opm ≠ 0 ∧ r0 = BitVec.ofNat W (s.opa.toNat * s.opb.toNat % s.opm.toNat) ∧ r1 = none ∧ r2 = none
  | .powmod => s.opm ≠ 0 ∧ r0 = BitVec.ofNat W (s.opa.toNat ^ s.opb.toNat % s.opm.toNat) ∧ r1 = none ∧ r2 = none
  | .factor => 2 ≤ s.opm.toNat ∧ (∃ d, r1 = some d ∧ 2 ^ r0.toNat * d.toNat + 1 = s.opm.toNat ∧ d.toNat % 2 = 1) ∧ r2 = none
  | .mrround => CandidateOk s.opm.toNat ∧ WitnessOk s.opm.toNat s.opa.toNat ∧ r2 = none ∧
      ∃ w r d, r1 = some w ∧ 2 ^ r * d + 1 = s.opm.toNat ∧ d % 2 = 1 ∧
        r0 = verdictWord (mrRound s.opm.toNat r d s.opa.toNat).1 ∧ w.toNat = (mrRound s.opm.toNat r d s.opa.toNat).2
  | .mrtest => CandidateOk s.opm.toNat ∧ s.rounds ≠ 0 ∧ r2 = none ∧
      ((s.stage = .entry ∧ s.opm = 3 ∧ r0 = 1 ∧ r1 = some 0) ∨
       ((s.stage = .power ∨ s.stage = .square) ∧ Decomposed s.work ∧ WitnessOk s.opm.toNat s.work.ma.toNat ∧
         s.work.mj.toNat < s.rounds.toNat ∧ ∃ j, r1 = some j ∧ j.toNat = s.work.mj.toNat + 1 ∧
         ((r0 = 0 ∧ (mrRound s.opm.toNat s.work.mr.toNat s.work.md.toNat s.work.ma.toNat).1 = false) ∨
         (r0 = 1 ∧ j = s.rounds ∧ (mrRound s.opm.toNat s.work.mr.toNat s.work.md.toNat s.work.ma.toNat).1 = true))))

/-- Which error a step of `i` raises, and when (R190). -/
def Fails (i : Instr) (s : State.At W) (e : ErrorCode) : Prop :=
  match i with
  | .gcd | .xgcd => False
  | .mulmod | .powmod => e = .argModulus ∧ s.opm = 0
  | .factor => e = .argN ∧ s.opm.toNat ≤ 1
  | .mrround => (e = .argN ∧ ¬ CandidateOk s.opm.toNat) ∨
      (e = .argWitness ∧ CandidateOk s.opm.toNat ∧ ¬ WitnessOk s.opm.toNat s.opa.toNat)
  | .mrtest => (s.stage = .entry ∧ e = .argN ∧ ¬ CandidateOk s.opm.toNat) ∨
      (s.stage = .entry ∧ e = .argRounds ∧ CandidateOk s.opm.toNat ∧ s.rounds = 0) ∨
      (s.stage = .witness ∧ e = .argWitness ∧ CandidateOk s.opm.toNat ∧ ¬ WitnessOk s.opm.toNat s.work.ma.toNat)

/-- What `MRTEST` keeps from step to step within a round. -/
def GoesOn (i : Instr) (s t : State.At W) : Prop :=
  match i with
  | .mrtest =>
    (s.stage = .entry ∧ t.stage = .decompose ∧ s.opm ≠ 3 ∧ s.rounds ≠ 0) ∨ (s.stage = .decompose ∧ t.stage = .decompose) ∨
    (s.stage = .decompose ∧ t.stage = .request ∧ t.work.mj = 0) ∨
    ((s.stage = .witness ∨ s.stage = .power ∨ s.stage = .square) ∧ (t.stage = .power ∨ t.stage = .square) ∧
      t.work.ma = s.work.ma ∧ t.work.mj = s.work.mj ∧ t.work.mr = s.work.mr ∧ t.work.md = s.work.md) ∨
    ((s.stage = .power ∨ s.stage = .square) ∧ t.stage = .request ∧ t.work.mr = s.work.mr ∧ t.work.md = s.work.md ∧
      t.work.mj.toNat = s.work.mj.toNat + 1 ∧ WitnessOk s.opm.toNat s.work.ma.toNat ∧
      (mrRound s.opm.toNat s.work.mr.toNat s.work.md.toNat s.work.ma.toNat).1 = true)
  | _ => True

/-- Everything a controller step of `i` can do from a point of its rule. -/
inductive Iteration (i : Instr) (s : State.At W) : Result W → Prop
  | go (w : Working W) (g : Stage) : ({ s with work := w, stage := g } : State.At W).Running i → remaining i { s with work := w, stage := g } < remaining i s →
      GoesOn i s { s with work := w, stage := g } → Iteration i s (.next { s with work := w, stage := g })
  | ask : i = .mrtest → s.stage = .request → Iteration i s (.next { s with status := s.status.witnessAsked })
  | err (e : ErrorCode) : e ≠ .internal → Fails i s e → Iteration i s (.next (raiseError e s))
  | fin (w : Working W) (r0 r1 r2) : Completes i s r0 r1 r2 → Iteration i s (.next (complete r0 r1 r2 { s with work := w }))

/-- Writing back the stage a state has changes nothing. -/
theorem stage_eta {s : State.At W} {g : Stage} (hs : s.stage = g) (w : Working W) : ({ s with work := w } : State.At W) = { s with work := w, stage := g } := by rw [← hs]

/-- `GCD`'s controller step, said once (R91). -/
theorem iter_gcd_iteration {s : State.At W} (h : s.Running .gcd) : Iteration .gcd s (iterGcd s) := by
  have h0 := h
  unfold State.At.Running at h
  rw [iterGcd]
  cases hs : s.stage <;> simp only [hs] at h ⊢
  · obtain ⟨h1, h2⟩ := h
    refine Iteration.go _ _ ?_ ?_ trivial
    · simp only [State.At.Running, orderPair, h1, h2]
      split
      · exact Nat.gcd_comm _ _
      · simp [h1,h2]
    · have := (orderPair s.work).gb.isLt
      simp only [remaining, hs]
      omega
  · split
    · rename_i hz
      have e : complete s.work.ga none none s = complete s.work.ga none none { s with work := s.work } := rfl
      rw [e]
      refine Iteration.fin _ _ _ _ ⟨?_, rfl, rfl⟩
      rw [hz] at h
      rw [← h]
      simp
    · rename_i hz
      have hb := Nat.mod_lt s.work.ga.toNat (Nat.pos_of_ne_zero (fun e => hz ((word_eq_zero_iff _).2 e)))
      refine Iteration.go _ _ ?_ ?_ trivial
      · simp only [State.At.Running, gcdPass_ga, gcdPass_gb, word_mod_toNat _ _ hz]
        rw [← h, Nat.gcd_comm, ← Nat.gcd_rec, Nat.gcd_comm]
      · simp only [remaining, hs, gcdPass_gb, word_mod_toNat _ _ hz]
        exact hb

/-- `XGCD`'s controller step, said once (R94). -/
theorem iter_xgcd_iteration (hW : Config.Admissible W) {s : State.At W} (h : s.Running .xgcd) : Iteration .xgcd s (iterXgcd s) := by
  unfold State.At.Running at h
  rw [iterXgcd]
  cases hs : s.stage <;> simp only [hs] at h ⊢
  · obtain ⟨h1, h2⟩ := h
    refine Iteration.go _ _ ?_ ?_ trivial
    · simp only [State.At.Running, startCoefficients, h1, h2]
      rw [coefficient_one hW, show (0 : SWord W).toInt = 0 from BitVec.toInt_zero]
      exact xgcdPoint_start _ _
    · have := (startCoefficients s.work).r1.isLt
      simp only [remaining, hs]
      omega
  · split
    · rename_i hz
      have e : ∀ a b c, complete a b c s = complete a b c { s with work := s.work } := fun _ _ _ => rfl
      rw [e]
      rw [hz] at h
      obtain ⟨e1, -⟩ := xgcdPoint_end h
      refine Iteration.fin _ _ _ _ ⟨?_, ?_, ?_⟩ <;> rw [e1]
      simp
    · rename_i hz
      have hz' : s.work.r1.toNat ≠ 0 := fun e => hz ((word_eq_zero_iff _).2 e)
      have hb := Nat.mod_lt s.work.r0.toNat (Nat.pos_of_ne_zero hz')
      obtain ⟨f1, f2⟩ := xgcdPoint_fits h hz' s.opa.isLt s.opb.isLt
      have hq : (BitVec.ofNat W (s.work.r0.toNat / s.work.r1.toNat)).toNat = s.work.r0.toNat / s.work.r1.toNat :=
        word_ofNat_toNat (lt_of_le_of_lt (Nat.div_le_self _ _) s.work.r0.isLt)
      have hr : (xgcdPass s.work).r1.toNat = s.work.r0.toNat % s.work.r1.toNat := by
        rw [xgcdPass]
        simp only [hq]
        rw [mul_comm, ← Nat.mod_eq_sub_mul_div]
        exact word_mod_toNat _ _ hz
      refine Iteration.go _ _ ?_ ?_ trivial
      · simp only [State.At.Running, hr]
        have hs1 : (xgcdPass s.work).s1.toInt = s.work.s0.toInt - (s.work.r0.toNat / s.work.r1.toNat : Nat) * s.work.s1.toInt := by
          simp only [xgcdPass]
          rw [nextCoefficient_toInt] <;> rw [hq]
          exact f1
        have ht1 : (xgcdPass s.work).t1.toInt = s.work.t0.toInt - (s.work.r0.toNat / s.work.r1.toNat : Nat) * s.work.t1.toInt := by
          simp only [xgcdPass]
          rw [nextCoefficient_toInt] <;> rw [hq]
          exact f2
        rw [hs1, ht1]
        exact xgcdPoint_pass h hz'
      · simp only [remaining, hs, hr]
        exact hb

/-- `MULMOD`'s controller step, said once (R111). -/
theorem iter_mulmod_iteration {s : State.At W} (h : s.Running .mulmod) : Iteration .mulmod s (iterMulmod s) := by
  unfold State.At.Running at h
  rw [iterMulmod]
  cases hs : s.stage <;> simp only [hs] at h ⊢
  obtain ⟨h1, h2, h3⟩ := h
  split
  · rename_i hz
    exact Iteration.err _ (by decide) ⟨rfl, h3 ▸ hz⟩
  · rename_i hz
    rw [← stage_eta hs]
    refine Iteration.fin _ _ _ _ ?_
    refine ⟨h3 ▸ hz, ?_, rfl, rfl⟩
    rw [reduce, product_toNat, h1, h2, h3]

/-- A word that is not 0 is positive. -/
theorem word_pos {m : Word W} (h : m ≠ 0) : 0 < m.toNat := Nat.pos_of_ne_zero (fun e => h ((word_eq_zero_iff _).2 e))

/-- R114's variables at the start of the loop. -/
theorem powerStart_point (hW : Config.Admissible W) (b e m : Word W) (w : Working W) (hm : m ≠ 0) : PowerPoint b.toNat e.toNat m.toNat (powerStart b e m w) := by
  have h1 : (BitVec.ofNat W (1 % m.toNat)).toNat = 1 % m.toNat := by
    have := word_mod_toNat 1 m hm
    rwa [word_one_toNat hW] at this
  simp only [PowerPoint, powerStart_acc, powerStart_pb, powerStart_pe, h1, word_mod_toNat _ _ hm]
  refine ⟨Nat.mod_lt _ (word_pos hm), ?_⟩
  rw [Nat.mul_mod, Nat.mod_mod, ← Nat.mul_mod, one_mul, ← Nat.pow_mod]

/-- One pass of the loop of R114 keeps its invariant. -/
theorem powerPass_point {b e : Nat} {m : Word W} {w : Working W} (hm : m ≠ 0) (h : PowerPoint b e m.toNat w) :
    PowerPoint b e m.toNat (powerPass m w) := by
  obtain ⟨h1, h2⟩ := h
  have hmp := word_pos hm
  simp only [PowerPoint, powerPass_acc, powerPass_pb, powerPass_pe, word_half_toNat, word_bit0, decide_eq_true_eq, mulmodWord_toNat _ _ _ hm]
  constructor
  · split
    · rw [mulmodWord_toNat _ _ _ hm]; exact Nat.mod_lt _ hmp
    · exact h1
  · rw [← h2]
    have hp := Nat.div_add_mod w.pe.toNat 2
    have e1 : (Reference.mulmod w.pb.toNat w.pb.toNat m.toNat) ^ (w.pe.toNat / 2) % m.toNat = w.pb.toNat ^ (2 * (w.pe.toNat / 2)) % m.toNat := by
      rw [Reference.mulmod, ← Nat.pow_mod, pow_mul, sq]
    rw [Nat.mul_mod, e1]
    split
    · rename_i hb
      rw [mulmodWord_toNat _ _ _ hm, Reference.mulmod, Nat.mod_mod, ← Nat.mul_mod]
      conv_rhs => rw [← hp, hb, pow_succ]
      congr 1; ring
    · rename_i hb
      rw [← Nat.mul_mod]
      conv_rhs => rw [← hp, show w.pe.toNat % 2 = 0 by omega, add_zero]

/-- `POWMOD`'s controller step, said once (R114). -/
theorem iter_powmod_iteration (hW : Config.Admissible W) {s : State.At W} (h : s.Running .powmod) : Iteration .powmod s (iterPowmod s) := by
  unfold State.At.Running at h
  rw [iterPowmod]
  obtain ⟨hpm, h⟩ := h
  cases hs : s.stage <;> simp only [hs] at h ⊢
  · split
    · rename_i hz
      exact Iteration.err _ (by decide) ⟨rfl, hpm ▸ hz⟩
    · rename_i hz
      refine Iteration.go _ _ ?_ ?_ trivial
      · refine ⟨hpm, ?_⟩
        simp only
        rw [← h.1, ← h.2, ← hpm]
        exact powerStart_point hW _ _ _ _ hz
      · have := s.work.pe.isLt
        simp only [remaining, hs, powerStart_pe]
        omega
  · have hm : s.opm ≠ 0 := by
      rintro e
      have := h.1
      rw [e] at this
      simp at this
    split
    · rename_i hz
      have e : ∀ a b c, complete a b c s = complete a b c { s with work := s.work } := fun _ _ _ => rfl
      rw [e]
      refine Iteration.fin _ _ _ _ ⟨hm, ?_, rfl, rfl⟩
      rw [← h.2, hz]
      have : s.work.acc.toNat % s.opm.toNat = s.work.acc.toNat := Nat.mod_eq_of_lt h.1
      simp [this]
    · rename_i hz
      refine Iteration.go _ _ ?_ ?_ trivial
      · refine ⟨hpm, ?_⟩
        rw [hpm]
        exact powerPass_point hm h
      · have := word_pos hz
        simp only [remaining, hs, powerPass_pe, word_half_toNat]
        omega

/-- R131's variables at the start of the loop. -/
theorem startDecompose_point {w : Working W} (h : 2 ≤ w.mn.toNat) : DecomposePoint (startDecompose w) := by
  have : (BitVec.ofNat W (w.mn.toNat - 1)).toNat = w.mn.toNat - 1 := word_ofNat_toNat (lt_of_le_of_lt (Nat.sub_le _ _) w.mn.isLt)
  simp only [DecomposePoint, startDecompose_md, startDecompose_mr, startDecompose_mn, this]
  simp; omega

/-- R131: the guard on `mr` is never reached (log 15). -/
theorem decomposePoint_mr {w : Working W} (h : DecomposePoint w) : w.mr.toNat < W := by
  obtain ⟨h1, h2⟩ := h
  by_contra hc
  have : 2 ^ W ≤ 2 ^ w.mr.toNat := Nat.pow_le_pow_right (by norm_num) (by omega)
  have := w.mn.isLt
  nlinarith

/-- One pass of the loop of R131 keeps its invariant. -/
theorem halvePass_point {w : Working W} (h : DecomposePoint w) (he : w.md.toNat % 2 = 0) : DecomposePoint (halvePass w) := by
  have hr := decomposePoint_mr h
  obtain ⟨h1, h2⟩ := h
  simp only [DecomposePoint, halvePass_md, halvePass_mr, halvePass_mn, word_half_toNat]
  rw [word_succ_toNat _ (by have := Nat.lt_two_pow_self (n := W); omega), ← h1, pow_succ, mul_assoc]
  refine ⟨?_, by omega⟩
  congr 2; omega

/-- A pass of the loop of R131 makes progress. -/
theorem remaining_halvePass {i} {s : State.At W} (hs : s.stage = .decompose) (h : DecomposePoint s.work) :
    remaining i { s with work := halvePass s.work, stage := .decompose } < remaining i s := by
  simp only [remaining, hs, halvePass_md, word_half_toNat]
  have := h.2
  omega

/-- `FACTOR`'s controller step, said once (R131, R132). -/
theorem iter_factor_iteration {s : State.At W} (h : s.Running .factor) : Iteration .factor s (iterFactor s) := by
  unfold State.At.Running at h
  rw [iterFactor]
  obtain ⟨hmn, h⟩ := h
  cases hs : s.stage <;> simp only [hs] at h ⊢
  · split
    · rename_i hz
      exact Iteration.err _ (by decide) ⟨rfl, hmn ▸ hz⟩
    · rename_i hz
      refine Iteration.go _ _ ⟨hmn, ?_⟩ ?_ trivial
      · exact startDecompose_point (by omega)
      · have := (startDecompose s.work).md.isLt
        simp only [remaining, hs]
        omega
  · rw [iterDecompose]
    split
    · rename_i he
      rw [if_neg (by have := decomposePoint_mr h; omega), stage_eta hs]
      exact Iteration.go _ _ ⟨hmn, halvePass_point h he⟩ (remaining_halvePass hs h) trivial
    · rename_i he
      rw [finishFactor]
      have e : ∀ a b c, complete a b c s = complete a b c { s with work := s.work } := fun _ _ _ => rfl
      rw [e]
      have h2 := h.1
      rw [hmn] at h2
      refine Iteration.fin _ _ _ _ ⟨?_, ⟨_, rfl, h2, by omega⟩, rfl⟩
      have := h.2
      have : 1 ≤ 2 ^ s.work.mr.toNat := Nat.one_le_two_pow
      nlinarith

/-- The comparison `x = n - 1` of R134. -/
theorem isMinusOne_iff (x n : Word W) : isMinusOne x n = true ↔ x.toNat + 1 = n.toNat := by simp [isMinusOne]

/-- A candidate with a witness in range is not 0 (R137). -/
theorem mn_ne_zero {w : Working W} (h : WitnessOk w.mn.toNat w.ma.toNat) : w.mn ≠ 0 := by
  intro e; rw [e] at h; simp [WitnessOk] at h

/-- An odd candidate has `r >= 1` (R131). -/
theorem decomposed_mr_pos {w : Working W} (hc : CandidateOk w.mn.toNat) (h : Decomposed w) : 1 ≤ w.mr.toNat := by
  by_contra hcon
  have e : w.mr.toNat = 0 := by omega
  have := h.1.1
  have h2 := h.2
  rw [e] at this
  simp at this
  have := hc.1
  omega

/-- R134's variables when the exponentiation starts. -/
theorem startRound_point (hW : Config.Admissible W) {s : State.At W} (hd : Decomposed s.work) (hw : WitnessOk s.work.mn.toNat s.work.ma.toNat) :
    RoundPower (startRound s).work := by
  refine ⟨hd, hw, ?_⟩
  exact powerStart_point hW s.work.ma s.work.md s.work.mn s.work (mn_ne_zero hw)

/-- What a step of a round does (R134). -/
inductive RoundStep (s : State.At W) (finish : Bool → State.At W → State.At W) : State.At W → Prop
  | go (w : Working W) (g : Stage) : (g = .power ∨ g = .square) → (g = .power → RoundPower w) → (g = .square → RoundSquare w) →
      (w.mn = s.work.mn ∧ w.ma = s.work.ma ∧ w.mr = s.work.mr ∧ w.md = s.work.md ∧ w.mj = s.work.mj ∧ w.mk = s.work.mk) →
      (∀ i, remaining i {s with work := w, stage := g} < remaining i s) → RoundStep s finish { s with work := w, stage := g }
  | fin (w : Working W) (v : Bool) : (w.mn = s.work.mn ∧ w.ma = s.work.ma ∧ w.mr = s.work.mr ∧ w.md = s.work.md ∧ w.mj = s.work.mj ∧ w.mk = s.work.mk) →
      (v, w.mi.toNat) = mrRound s.work.mn.toNat s.work.mr.toNat s.work.md.toNat s.work.ma.toNat →
      RoundStep s finish (finish v { s with work := w })

/-- A controller step of a round in its exponentiation (R134). -/
theorem roundPower_step (hW : Config.Admissible W) {s : State.At W} (finish) (hs : s.stage = .power) (hc : CandidateOk s.work.mn.toNat) (h : RoundPower s.work) :
    RoundStep s finish (iterRoundPower finish s) := by
  obtain ⟨hd, hw, hp⟩ := h
  have hmn := mn_ne_zero hw
  have hr := decomposed_mr_pos hc hd
  have hrW := decomposePoint_mr hd.1
  rw [iterRoundPower]
  split
  · rename_i hz
    have hacc : s.work.acc.toNat = Reference.powmod s.work.ma.toNat s.work.md.toNat s.work.mn.toNat := by
      have := hp.2
      rw [hz] at this
      rw [Reference.powmod, ← this]
      simp [Nat.mod_eq_of_lt hp.1]
    have h1 : s.work.acc = 1 ↔ s.work.acc.toNat = 1 := by
      constructor
      · intro e; rw [e, word_one_toNat hW]
      · intro e; exact BitVec.eq_of_toNat_eq (by rw [e, word_one_toNat hW])
    have hc2 := hc.2
    by_cases hv : (s.work.acc = 1 || isMinusOne s.work.acc s.work.mn) = true
    · simp only [hv, if_true]
      refine RoundStep.fin _ _ ⟨rfl, rfl, rfl, rfl, rfl, rfl⟩ ?_
      simp only [Bool.or_eq_true, isMinusOne_iff, decide_eq_true_eq, h1, hacc] at hv
      rw [mrRound, if_pos]
      · simp
      · omega
    · simp only [hv, Bool.false_eq_true, if_false]
      simp only [Bool.or_eq_true, isMinusOne_iff, decide_eq_true_eq, h1, hacc] at hv
      refine RoundStep.go _ _ (.inr rfl) (by simp) (fun _ => ?_) ⟨rfl, rfl, rfl, rfl, rfl, rfl⟩ ?_
      · refine ⟨hd, hw, ?_, hp.1, ?_⟩
        · simp; omega
        · simp only
          rw [mrRound, if_neg (by omega), ← hacc]
          simp
      · intro i
        simp only [remaining, hs]
        have hWP : W < 2 ^ W := Nat.lt_two_pow_self
        omega
  · rename_i hz
    rw [stage_eta hs]
    refine RoundStep.go _ _ (.inl rfl) (fun _ => ⟨hd, hw, ?_⟩) (by simp) ⟨rfl, rfl, rfl, rfl, rfl, rfl⟩ ?_
    · exact powerPass_point hmn hp
    · intro i
      have := word_pos hz
      simp only [remaining, hs, powerPass_pe, word_half_toNat]
      omega

/-- A controller step of a round in its squaring loop (R134). -/
theorem roundSquare_step {s : State.At W} (finish) (hs : s.stage = .square) (hc : CandidateOk s.work.mn.toNat) (h : RoundSquare s.work) :
    RoundStep s finish (iterRoundSquare finish s) := by
  obtain ⟨hd, hw, hi, hx, hsq⟩ := h
  have hmn := mn_ne_zero hw
  have hrW := decomposePoint_mr hd.1
  have hWP : W < 2 ^ W := Nat.lt_two_pow_self
  rw [iterRoundSquare]
  have hmi : (s.work.mi + 1).toNat = s.work.mi.toNat + 1 := word_succ_toNat _ (by omega)
  have hmx := mulmodWord_toNat s.work.mx s.work.mx _ hmn
  have hc2 := hc.2
  split
  · rename_i hlt
    obtain ⟨l, hl⟩ : ∃ l, s.work.mr.toNat - 1 - s.work.mi.toNat = l + 1 := ⟨s.work.mr.toNat - 1 - s.work.mi.toNat - 1, by omega⟩
    rw [hl, Reference.squarings] at hsq
    by_cases hv : isMinusOne (squarePass s.work).mx (squarePass s.work).mn = true
    · simp only [hv, if_true]
      refine RoundStep.fin _ _ ⟨rfl, rfl, rfl, rfl, rfl, rfl⟩ ?_
      rw [isMinusOne_iff] at hv
      simp only [squarePass_mx, squarePass_mn, squarePass_mi, hmx, hmi] at hv ⊢
      rw [← hsq, if_pos (by omega)]
    · simp only [hv, Bool.false_eq_true, if_false]
      rw [isMinusOne_iff] at hv
      simp only [squarePass_mx, squarePass_mn, hmx] at hv
      rw [if_neg (by omega)] at hsq
      rw [stage_eta hs]
      refine RoundStep.go _ _ (.inr rfl) (by simp) (fun _ => ⟨hd, hw, ?_, ?_, ?_⟩) ⟨rfl, rfl, rfl, rfl, rfl, rfl⟩ ?_
      · simp only [squarePass_mi, squarePass_mr, hmi]; omega
      · simp only [squarePass_mx, squarePass_mn, hmx]; exact Nat.mod_lt _ (word_pos hmn)
      · simp only [squarePass_mx, squarePass_mn, squarePass_mi, squarePass_mr, squarePass_md, squarePass_ma, hmx, hmi]
        rw [← hsq]
        congr 1; omega
      · intro i
        simp only [remaining, hs, squarePass_mi, squarePass_mr, hmi]; omega
  · rename_i hlt
    refine RoundStep.fin s.work _ ⟨rfl, rfl, rfl, rfl, rfl, rfl⟩ ?_
    rw [← hsq, show s.work.mr.toNat - 1 - s.work.mi.toNat = 0 by omega, Reference.squarings]

/-- A round's end in `MRROUND` (R135). -/
theorem finishMrround_iteration {s : State.At W} (w : Working W) (v : Bool) (ho : s.work.mn = s.opm) (hoa : s.work.ma = s.opa) (hc : CandidateOk s.work.mn.toNat)
   (hw : WitnessOk s.work.mn.toNat s.work.ma.toNat) (hd : Decomposed s.work)
   (e : (v, w.mi.toNat) = mrRound s.work.mn.toNat s.work.mr.toNat s.work.md.toNat s.work.ma.toNat) :
    Iteration .mrround s (.next (finishMrround v { s with work := w })) := by
  rw [finishMrround]
  refine Iteration.fin w _ _ _ ⟨ho ▸ hc, ho ▸ hoa ▸ hw, rfl, w.mi, s.work.mr.toNat, s.work.md.toNat, rfl, ?_, hd.2, ?_, ?_⟩
  · rw [← ho]; exact hd.1.1
  · rw [← ho, ← hoa, ← e]
  · rw [← ho, ← hoa, ← e]

/-- `MRROUND`'s controller step, said once (R134, R135). -/
theorem iter_mrround_iteration (hW : Config.Admissible W) {s : State.At W} (h : s.Running .mrround) : Iteration .mrround s (iterMrround s) := by
  unfold State.At.Running at h
  rw [iterMrround]
  obtain ⟨hmn, hma, h⟩ := h
  cases hs : s.stage <;> simp only [hs] at h ⊢
  · split
    · rename_i hz
      refine Iteration.err _ (by decide) (.inl ⟨rfl, ?_⟩)
      rw [← hmn, ← candidateOk_iff]; simpa using hz
    · rename_i hz
      have hc : CandidateOk s.work.mn.toNat := by rw [← candidateOk_iff]; simpa using hz
      split
      · rename_i hw
        refine Iteration.err _ (by decide) (.inr ⟨rfl, hmn ▸ hc, ?_⟩)
        rw [← hmn, ← hma, ← witnessOk_iff]; simpa using hw
      · rename_i hw
        have hw : WitnessOk s.work.mn.toNat s.work.ma.toNat := by rw [← witnessOk_iff]; simpa using hw
        refine Iteration.go _ _ ⟨hmn, hma, hc, hw, startDecompose_point (by have := hc.2; omega)⟩ ?_ trivial
        have := (startDecompose s.work).md.isLt
        simp only [remaining, hs]
        omega
  · obtain ⟨hc, hp⟩ := h
    obtain ⟨hd, hw, -⟩ := id hp
    have hstep := roundPower_step hW finishMrround hs hc hp
    generalize iterRoundPower finishMrround s = t at hstep ⊢
    rcases hstep with ⟨w, g, hg, h1, h2, ⟨e1, e2, e3, e4, e5, e6⟩, hm⟩ | ⟨w, v, ⟨e1, e2, e3, e4, e5, e6⟩, e⟩
    · refine Iteration.go _ _ ⟨e1 ▸ hmn, e2 ▸ hma, ?_⟩ (hm _) trivial
      rcases hg with rfl | rfl
      · exact ⟨by simpa [e1] using hc, h1 rfl⟩
      · exact ⟨by simpa [e1] using hc, h2 rfl⟩
    · exact finishMrround_iteration w v hmn hma hc hw hd e
  · obtain ⟨hc, hw, hp⟩ := h
    rw [iterDecompose]
    split
    · rename_i he
      rw [if_neg (by have := decomposePoint_mr hp; omega), stage_eta hs]
      exact Iteration.go _ _ ⟨hmn, hma, hc, hw, halvePass_point hp he⟩ (remaining_halvePass hs hp) trivial
    · rename_i he
      have hd : Decomposed s.work := ⟨hp, by omega⟩
      refine Iteration.go _ _ ⟨hmn, hma, hc, startRound_point hW hd hw⟩ ?_ trivial
      have := s.work.md.isLt
      simp only [remaining, hs, powerStart_pe]
      omega
  · obtain ⟨hc, hp⟩ := h
    obtain ⟨hd, hw, -⟩ := id hp
    have hstep := roundSquare_step finishMrround hs hc hp
    generalize iterRoundSquare finishMrround s = t at hstep ⊢
    rcases hstep with ⟨w, g, hg, h1, h2, ⟨e1, e2, e3, e4, e5, e6⟩, hm⟩ | ⟨w, v, ⟨e1, e2, e3, e4, e5, e6⟩, e⟩
    · refine Iteration.go _ _ ⟨e1 ▸ hmn, e2 ▸ hma, ?_⟩ (hm _) trivial
      rcases hg with rfl | rfl
      · exact ⟨by simpa [e1] using hc, h1 rfl⟩
      · exact ⟨by simpa [e1] using hc, h2 rfl⟩
    · exact finishMrround_iteration w v hmn hma hc hw hd e

/-- A round's end in `MRTEST` (R141). -/
theorem finishMrtestRound_iteration {s : State.At W} (w : Working W) (v : Bool) (ho : s.work.mn = s.opm) (hk : s.work.mk = s.rounds) (hq : s.status.wreq = false)
   (hc : CandidateOk s.work.mn.toNat) (hj : s.work.mj.toNat < s.work.mk.toNat) (hst : s.stage = .power ∨ s.stage = .square)
   (hw : WitnessOk s.work.mn.toNat s.work.ma.toNat) (hd : Decomposed s.work)
   (he : w.mn = s.work.mn ∧ w.ma = s.work.ma ∧ w.mr = s.work.mr ∧ w.md = s.work.md ∧ w.mj = s.work.mj ∧ w.mk = s.work.mk)
   (e : (v, w.mi.toNat) = mrRound s.work.mn.toNat s.work.mr.toNat s.work.md.toNat s.work.ma.toNat) :
    Iteration .mrtest s (.next (finishMrtestRound v { s with work := w })) := by
  obtain ⟨e1, e2, e3, e4, e5, e6⟩ := he
  have hk0 : s.rounds ≠ 0 := by rw [← hk]; rintro e0; rw [e0] at hj; simp at hj
  have hjs : (w.mj + 1).toNat = s.work.mj.toNat + 1 := by
    rw [e5]; exact word_succ_toNat _ (by have := s.work.mk.isLt; omega)
  have hmn5 : 5 ≤ s.work.mn.toNat := by
    have := hw.1; have := hw.2; have := hc.1; omega
  rw [finishMrtestRound]
  cases v with
  | false =>
    simp only [Bool.not_false, if_true]
    refine Iteration.fin _ _ _ _ ⟨ho ▸ hc, hk0, rfl, .inr ⟨hst, hd, ho ▸ hw, hk ▸ hj, _, rfl, hjs, .inl ⟨rfl, ?_⟩⟩⟩
    rw [← ho, ← e]
  | true =>
    simp only [Bool.not_true, Bool.false_eq_true, if_false]
    split
    · rename_i hjk
      refine Iteration.fin _ _ _ _ ⟨ho ▸ hc, hk0, rfl, .inr ⟨hst, hd, ho ▸ hw, hk ▸ hj, _, rfl, hjs, .inr ⟨rfl, ?_, ?_⟩⟩⟩
      · rw [hjk, e6, hk]
      · rw [← ho, ← e]
    · rename_i hjk
      refine Iteration.go _ _ ⟨e1 ▸ ho, e6 ▸ hk, by simp [hq], ?_⟩ ?_ (.inr (.inr (.inr (.inr ⟨hst, rfl, e3, e4, hjs, ho ▸ hw, ?_⟩))))
      · refine ⟨by simpa [e1] using hc, by simpa [e1] using hmn5, ?_, ?_⟩
        · simp only [hjs, e6]
          have : w.mj + 1 ≠ w.mk := hjk
          have : (w.mj + 1).toNat ≠ w.mk.toNat := fun h => this (BitVec.eq_of_toNat_eq h)
          rw [hjs, e6] at this
          omega
        · obtain ⟨⟨d1, d2⟩, d3⟩ := hd
          exact ⟨⟨by simpa [e1, e3, e4] using d1, by simpa [e4] using d2⟩, by simpa [e4] using d3⟩
      · simp only [remaining]
        rcases hst with h | h <;> rw [h] <;> simp
      · rw [← ho, ← e]

/-- `MRTEST`'s controller step, said once (R141). -/
theorem iter_mrtest_iteration (hW : Config.Admissible W) {s : State.At W} (h : s.Running .mrtest) (hq : s.status.wreq = false) : Iteration .mrtest s (iterMrtest s) := by
  unfold State.At.Running at h
  rw [iterMrtest]
  obtain ⟨hmn, hmk, hwq, h⟩ := h
  cases hs : s.stage <;> simp only [hs] at h ⊢
  · split
    · rename_i hz
      refine Iteration.err _ (by decide) (.inl ⟨hs, rfl, ?_⟩)
      rw [← hmn, ← candidateOk_iff]; simpa using hz
    · rename_i hz
      have hc : CandidateOk s.work.mn.toNat := by rw [← candidateOk_iff]; simpa using hz
      split
      · rename_i hk
        exact Iteration.err _ (by decide) (.inr (.inl ⟨hs, rfl, hmn ▸ hc, hmk ▸ hk⟩))
      · rename_i hk
        split
        · rename_i h3
          have e : ∀ a b c, complete a b c s = complete a b c { s with work := s.work } := fun _ _ _ => rfl
          rw [e]
          exact Iteration.fin _ _ _ _ ⟨hmn ▸ hc, hmk ▸ hk, rfl, .inl ⟨hs, hmn ▸ h3, rfl, rfl⟩⟩
        · rename_i h3
          have h3' : s.work.mn.toNat ≠ 3 := fun e => h3 (BitVec.eq_of_toNat_eq (by rw [e, word_three_toNat hW]))
          refine Iteration.go _ _ ⟨hmn, hmk, by simp [hq], hc, ?_, ?_, startDecompose_point (by have := hc.2; omega)⟩ ?_ (.inl ⟨hs, rfl, hmn ▸ h3, hmk ▸ hk⟩)
          · have := hc.1; have := hc.2
            simp only [startDecompose_mn]; omega
          · exact word_pos hk
          · have := (startDecompose s.work).md.isLt
            simp only [remaining, hs]
            omega
  · obtain ⟨hc, hj, hp⟩ := h
    obtain ⟨hd, hw, -⟩ := id hp
    have hstep := roundPower_step hW finishMrtestRound hs hc hp
    generalize iterRoundPower finishMrtestRound s = t at hstep ⊢
    rcases hstep with ⟨w, g, hg, h1, h2, ⟨e1, e2, e3, e4, e5, e6⟩, hm⟩ | ⟨w, v, he, e⟩
    · refine Iteration.go _ _ ⟨e1 ▸ hmn, e6 ▸ hmk, by simp [hq], ?_⟩ (hm _) (.inr (.inr (.inr (.inl ⟨by simp [hs], by simpa using hg, e2, e5, e3, e4⟩))))
      rcases hg with rfl | rfl
      · exact ⟨by simpa [e1] using hc, by simpa [e5, e6] using hj, h1 rfl⟩
      · exact ⟨by simpa [e1] using hc, by simpa [e5, e6] using hj, h2 rfl⟩
    · exact finishMrtestRound_iteration w v hmn hmk hq hc hj (.inl hs) hw hd he e
  · obtain ⟨hc, h5, hk, hp⟩ := h
    rw [iterDecompose]
    split
    · rename_i he
      rw [if_neg (by have := decomposePoint_mr hp; omega), stage_eta hs]
      exact Iteration.go _ _ ⟨hmn, hmk, by simp [hq], hc, h5, hk, halvePass_point hp he⟩ (remaining_halvePass hs hp) (.inr (.inl ⟨hs, rfl⟩))
    · rename_i he
      have hd : Decomposed s.work := ⟨hp, by omega⟩
      refine Iteration.go _ _ ⟨hmn, hmk, by simp [hq], hc, h5, hk, hd⟩ ?_ (.inr (.inr (.inl ⟨hs, rfl, rfl⟩)))
      simp only [remaining, hs]
      omega
  · have e : ({ s with status := s.status.witnessAsked, stage := .request } : State.At W) = { s with status := s.status.witnessAsked } := by rw [← hs]
    rw [e]
    exact Iteration.ask rfl hs
  · obtain ⟨hc, h5, hj, hd⟩ := h
    split
    · rename_i hw
      refine Iteration.err _ (by decide) (.inr (.inr ⟨hs, rfl, hmn ▸ hc, ?_⟩))
      rw [← hmn, ← witnessOk_iff]; simpa using hw
    · rename_i hw
      have hw : WitnessOk s.work.mn.toNat s.work.ma.toNat := by rw [← witnessOk_iff]; simpa using hw
      refine Iteration.go _ _ ⟨hmn, hmk, by simp [hq], hc, hj, startRound_point hW hd hw⟩ ?_ (.inr (.inr (.inr (.inl ⟨by simp [hs], .inl rfl, rfl, rfl, rfl, rfl⟩))))
      have := s.work.md.isLt
      simp only [remaining, hs, powerStart_pe]
      omega
  · obtain ⟨hc, hj, hp⟩ := h
    obtain ⟨hd, hw, -⟩ := id hp
    have hstep := roundSquare_step finishMrtestRound hs hc hp
    generalize iterRoundSquare finishMrtestRound s = t at hstep ⊢
    rcases hstep with ⟨w, g, hg, h1, h2, ⟨e1, e2, e3, e4, e5, e6⟩, hm⟩ | ⟨w, v, he, e⟩
    · refine Iteration.go _ _ ⟨e1 ▸ hmn, e6 ▸ hmk, by simp [hq], ?_⟩ (hm _) (.inr (.inr (.inr (.inl ⟨by simp [hs], by simpa using hg, e2, e5, e3, e4⟩))))
      rcases hg with rfl | rfl
      · exact ⟨by simpa [e1] using hc, by simpa [e5, e6] using hj, h1 rfl⟩
      · exact ⟨by simpa [e1] using hc, by simpa [e5, e6] using hj, h2 rfl⟩
    · exact finishMrtestRound_iteration w v hmn hmk hq hc hj (.inr hs) hw hd he e

/-- A controller step from a point of a running command, for all seven commands. -/
theorem iterate_iteration (hW : Config.Admissible W) {i : Instr} {s : State.At W} (h : s.Running i) (hq : s.status.wreq = false) : Iteration i s (iterate i s) := by
  cases i
  · exact iter_gcd_iteration h
  · exact iter_xgcd_iteration hW h
  · exact iter_mulmod_iteration h
  · exact iter_powmod_iteration hW h
  · exact iter_factor_iteration h
  · exact iter_mrround_iteration hW h
  · exact iter_mrtest_iteration hW h hq

end Sys2Proof.Machine
end

