-- ==== Sys2Proof/Laws/Step.lean ====
section
/-! SUPPORT. What one step of the whole machine can do, said once (`step_cases`), from any state. -/

namespace Sys2Proof.Machine

variable {W : Nat}

/-- R72's condition in terms of the flags. -/
theorem accepts_iff (s : State.At W) : s.Accepts ↔ s.status.busy = false ∧ s.status.wreq = false ∧ s.status.fatal = false := by
  rw [State.At.Accepts, phase_idle_iff, phase_done_iff]
  cases s.status.done <;> simp <;> tauto

/-- The operand copies a command takes (R41). -/
def operandCopies : Instr → State.At W → Machine.Working W
  | .gcd => copyGcd | .xgcd => copyXgcd | .mulmod => copyMulmod | .powmod => copyPowmod
  | .factor => copyFactor | .mrround => copyMrround | .mrtest => copyMrtest

/-- An accepted command copies its operands and starts (R72). -/
theorem execAt_accept (i : Instr) (s : State.At W) (hb : s.status.busy = false) (hf : s.status.fatal = false) :
    execAt i s = .next { s with status := s.status.runningAs i.opcode, work := operandCopies i s, stage := .entry } := by
  have : ∀ i, execAt i s = .next (issue i.opcode (operandCopies i s) s) := by intro i; cases i <;> rfl
  rw [this, issue_accepted _ _ _ hb hf]; rfl


/-- Everything a turn of the controller can do. -/
inductive Turn (s : State.At W) : State.At W → Prop
  | rest : s.status.phase ≠ some .run → Turn s s
  | work (w : Working W) (g : Stage) : s.status.phase = some .run → Turn s { s with work := w, stage := g }
  | ask : s.status.phase = some .run → s.status.opc = Instr.mrtest.opcode → Turn s { s with status := s.status.witnessAsked }
  | error (e : ErrorCode) : s.status.phase = some .run → Turn s (raiseError e s)
  | complete (w : Working W) (r0 : Word W) (r1 r2 : Option (Word W)) : s.status.phase = some .run →
      (r1 ≠ none → s.status.opc ∈ [Instr.xgcd.opcode, Instr.factor.opcode, Instr.mrround.opcode, Instr.mrtest.opcode]) →
      (r2 ≠ none → s.status.opc = Instr.xgcd.opcode) → Turn s (Machine.complete r0 r1 r2 { s with work := w })

/-- Every turn of the controller is one of `Turn`'s. -/
theorem controllerStep_turn {s t : State.At W} (h : controllerStep s = .next t) : Turn s t := by
  obtain ⟨hp, rfl⟩ | ⟨hp, i, ho, h⟩ := controllerStep_cases h
  · exact .rest hp
  have hwork : ∀ w, Turn s { s with work := w } := fun w => .work w s.stage hp
  have hcomp : ∀ r0 r1 r2, (r1 ≠ none → s.status.opc ∈ [Instr.xgcd.opcode, Instr.factor.opcode, Instr.mrround.opcode, Instr.mrtest.opcode]) →
      (r2 ≠ none → s.status.opc = Instr.xgcd.opcode) → Turn s (Machine.complete r0 r1 r2 s) :=
    fun r0 r1 r2 => .complete s.work r0 r1 r2 hp
  have hdec : ∀ f : State.At W → State.At W, Turn s (f s) → Turn s (iterDecompose f s) := by
    intro f hf
    rw [iterDecompose]
    split
    · split
      · exact .error _ hp
      · exact hwork _
    · exact hf
  have hpow : ∀ f : Bool → State.At W → State.At W, (∀ v w, Turn s (f v { s with work := w })) → Turn s (iterRoundPower f s) := by
    intro f hf
    rw [iterRoundPower]
    dsimp only
    split
    · split
      · exact hf _ _
      · exact .work _ _ hp
    · exact hwork _
  have hsq : ∀ f : Bool → State.At W → State.At W, (∀ v w, Turn s (f v { s with work := w })) → Turn s (iterRoundSquare f s) := by
    intro f hf
    rw [iterRoundSquare]
    dsimp only
    split
    · split
      · exact hf _ _
      · exact hwork _
    · exact hf _ s.work
  have hmr : i = .mrround → ∀ v w, Turn s (finishMrround v { s with work := w }) := by
    rintro rfl v w
    exact .complete _ _ _ _ hp (by simp [ho]) (by simp)
  have hmt : i = .mrtest → ∀ v w, Turn s (finishMrtestRound v { s with work := w }) := by
    rintro rfl v w
    rw [finishMrtestRound]
    dsimp only
    split
    · exact .complete _ _ _ _ hp (by simp [ho]) (by simp)
    · split
      · exact .complete _ _ _ _ hp (by simp [ho]) (by simp)
      · exact .work _ _ hp
  cases i <;> simp only [iterate, iterGcd, iterXgcd, iterMulmod, iterPowmod, iterFactor, iterMrround, iterMrtest] at h <;>
    repeat' split at h
  all_goals (try (simp only [Host.Outcome.next.injEq, reduceCtorEq] at h))
  all_goals (try subst h)
  all_goals first
    | exact .error _ hp
    | exact .ask hp ho
    | exact .work _ _ hp
    | exact hwork _
    | exact hcomp _ _ _ (by simp [ho]) (by simp [ho])
    | exact .complete _ _ _ _ hp (by simp [ho]) (by simp [ho])
    | exact hdec _ (hcomp _ _ _ (by simp [ho]) (by simp [ho]))
    | exact hdec _ (.work _ _ hp)
    | exact hpow _ (hmr rfl)
    | exact hsq _ (hmr rfl)
    | exact hpow _ (hmt rfl)
    | exact hsq _ (hmt rfl)

/-- The state with the next event taken off the schedule. -/
def eventTaken (s : State.At W) : State.At W := { s with schedule := s.schedule.tail }

/-- A write that comes next is no reset. -/
theorem resetNext_of_nextWrites {s : State.At W} {r : Reg} {v : Word W} (h : s.NextWrites r v) : s.resetNext = false := by
  obtain ⟨who, rest, h⟩ := h
  rw [State.At.resetNext, h]
  rfl

/-- Everything a step can do, whoever takes it (R55, R56, R57, R72, R139, R210). -/
inductive StepsTo (s : State.At W) : State.At W → Prop
  | turn {t : State.At W} : s.resetNext = false → Turn (eventTaken s) t → s.controllerNext →
      controllerStep (eventTaken s) = .next t → StepsTo s t
  | read (who : Agent) (r : Reg) : s.resetNext = false → StepsTo s (regRead who r (eventTaken s))
  | drop : s.resetNext = false → StepsTo s (dropWithHazard (eventTaken s))
  | none : s.resetNext = false → StepsTo s (eventTaken s)
  | accept (c : Word W) (i : Instr) (w : Working W) : s.NextWrites .cmd c → decode c = some i → s.status.busy = false →
      s.status.fatal = false → (w = operandCopies i (eventTaken s)) →
      StepsTo s { eventTaken s with status := (s.status.accepted i.opcode).started, work := w, stage := .entry }
  | illegal (c : Word W) : s.NextWrites .cmd c → decode c = Option.none → s.status.busy = false → s.status.fatal = false →
      StepsTo s (raiseError .illegalCmd { eventTaken s with status := s.status.accepted (opcodeField c) })
  | opa (v) : s.NextWrites .opa v → s.status.busy = false → StepsTo s { eventTaken s with opa := v }
  | opb (v) : s.NextWrites .opb v → s.status.busy = false → StepsTo s { eventTaken s with opb := v }
  | opm (v) : s.NextWrites .opm v → s.status.busy = false → StepsTo s { eventTaken s with opm := v }
  | rounds (v) : s.NextWrites .rounds v → s.status.busy = false → StepsTo s { eventTaken s with rounds := v }
  | witness (a : Word W) : s.NextWrites .witness a → s.status.wreq = true →
      StepsTo s { eventTaken s with status := s.status.witnessTaken, work := { s.work with ma := a }, stage := .witness }
  | reset : s.resetNext = true → StepsTo s (resetBlock (eventTaken s))

/-- Every `CMD` write, with the operands it copies (R72). -/
theorem commandWrite_inversion {c : Word W} {s t : State.At W} (h : commandWrite c s = .next t) :
    t = dropWithHazard s ∨ (s.status.busy = false ∧ s.status.fatal = false ∧
      ((∃ i, decode c = some i ∧ t = { s with status := (s.status.accepted i.opcode).started, work := operandCopies i s, stage := .entry }) ∨
       (decode c = none ∧ t = raiseError .illegalCmd { s with status := s.status.accepted (opcodeField c) }))) := by
  rw [commandWrite] at h
  by_cases hbf : s.status.busy = false ∧ s.status.fatal = false
  · refine .inr ⟨hbf.1, hbf.2, ?_⟩
    split at h
    · rename_i i hi
      rw [execAt_accept i s hbf.1 hbf.2, Host.Outcome.next.injEq] at h
      exact .inl ⟨i, hi, h.symm⟩
    · rename_i hn
      rw [Host.Outcome.next.injEq, issueIllegal, if_neg (by simp [Status.refusesCommands, hbf])] at h
      exact .inr ⟨hn, h.symm⟩
  · have hbf : s.status.busy = true ∨ s.status.fatal = true := by
      revert hbf; cases s.status.busy <;> cases s.status.fatal <;> simp
    left
    split at h
    · rcases execAt_cases h with h | h
      · exact h.2
      · rcases hbf with e | e <;> simp [h.1, h.2.1] at e
    · rw [Host.Outcome.next.injEq, issueIllegal, if_pos (by simpa [Status.refusesCommands] using hbf)] at h
      exact h.symm

/-- Every step that answers a next state is one of `StepsTo`'s. -/
theorem step_cases (hW : Config.Admissible W) {s t : State.At W} (h : stepAt s = .next t) : StepsTo s t := by
  rw [stepAt] at h
  split at h
  · rename_i hs
    have e : s = eventTaken s := by rw [eventTaken]; simp [hs]; rw [← hs]
    have h' : controllerStep (eventTaken s) = .next t := e ▸ h
    exact .turn (by simp [State.At.resetNext, hs]) (controllerStep_turn h') (.inl hs) h'
  · rename_i ev rest hs
    have e : ({ s with schedule := rest } : State.At W) = eventTaken s := by simp [eventTaken, hs]
    rw [e] at h
    have hr : ∀ x : Bool, (ev == .reset) = x → s.resetNext = x := by
      rintro x rfl; simp only [State.At.resetNext, hs, List.head?_cons]; rfl
    cases ev with
    | read who offset bytes =>
      replace hr := hr false rfl
      simp only [perform] at h
      split at h
      · rw [Host.Outcome.next.injEq] at h; subst h; exact .read _ _ hr
      · simp at h
    | controller => exact .turn (hr false rfl) (controllerStep_turn h) (.inr (by simp [hs])) h
    | reset =>
      simp only [perform, Host.Outcome.next.injEq] at h; subst h
      exact .reset (hr true rfl)
    | write who offset bytes v =>
      replace hr := hr false rfl
      simp only [perform] at h
      split at h
      · rename_i r hra
        rw [regOfAccess_eq_some_iff hW] at hra
        obtain ⟨rfl, rfl⟩ := hra
        have hop : ∀ x : State.At W, (Host.Outcome.next (writeOperand x (eventTaken s)) : Result W) = .next t →
            t = dropWithHazard (eventTaken s) ∨ (s.status.busy = false ∧ t = x) := by
          intro x hx
          rw [Host.Outcome.next.injEq, writeOperand] at hx
          split at hx
          · exact .inl hx.symm
          · rename_i hb
            exact .inr ⟨by simpa [eventTaken] using hb, hx.symm⟩
        have hv : s.NextWrites r v := ⟨who, rest, hs⟩
        cases r <;> simp only [regWrite] at h
        case cmd =>
          rcases commandWrite_inversion h with rfl | ⟨hb, hf, ⟨i, hi, rfl⟩ | ⟨hn, rfl⟩⟩
          · exact .drop hr
          · exact .accept v i _ hv hi hb hf rfl
          · exact .illegal v hv hn hb hf
        case opa => rcases hop _ h with rfl | ⟨hb, rfl⟩; exacts [.drop hr, .opa v hv hb]
        case opb => rcases hop _ h with rfl | ⟨hb, rfl⟩; exacts [.drop hr, .opb v hv hb]
        case opm => rcases hop _ h with rfl | ⟨hb, rfl⟩; exacts [.drop hr, .opm v hv hb]
        case rounds => rcases hop _ h with rfl | ⟨hb, rfl⟩; exacts [.drop hr, .rounds v hv hb]
        case witness =>
          rw [Host.Outcome.next.injEq, deliverWitness] at h
          split at h <;> subst h
          · exact .witness v hv ‹_›
          · exact .drop hr
        all_goals (rw [Host.Outcome.next.injEq] at h; subst h; exact .none hr)
      · simp at h

end Sys2Proof.Machine
end

