-- ==== Sys2Proof/Laws/Host.lean ====
section
/-! SUPPORT. What the host's lines, polls and call forms do on a block (R77, R78, R171), one lemma per operation, so that a
proof about a host procedure unfolds none of them. -/

namespace Sys2Proof.Machine

variable {W : Nat}

/-- A procedure that goes on and ends with a value: both of its parts do. -/
theorem Ended.andThen_eq_value {α β : Type} {x : Ended W α} {next : α → HostRun W → Ended W β} {b : β} {run' : HostRun W}
    (h : x.andThen next = ⟨.value b, run'⟩) : ∃ a run₁, x = ⟨.value a, run₁⟩ ∧ next a run₁ = ⟨.value b, run'⟩ := by
  rcases x with ⟨a | f, run₁⟩
  · exact ⟨a, run₁, rfl, h⟩
  · simp [Ended.andThen] at h

theorem afterResult_noBlockError (r : Result W) (run : HostRun W) : (afterResult r run).answer.isBlockError = false := by
  cases r <;> rfl

theorem Ended.andThen_noBlockError {α β : Type} {x : Ended W α} {next : α → HostRun W → Ended W β}
    (h : x.answer.isBlockError = false) (hn : ∀ a run, (next a run).answer.isBlockError = false) :
    (x.andThen next).answer.isBlockError = false := by
  rcases x with ⟨a | f, run⟩
  · exact hn a run
  · cases f <;> first | rfl | exact h

@[simp] theorem readValue_status (s : State.At W) : readValue .status s = s.status.word W := by
  simp [readValue, readIsFree]

/-- A read of `STATUS` changes the log of reads alone. -/
theorem regRead_ofStatus (who : Agent) (s : State.At W) : ∃ rs, regRead who .status s = { s with reads := rs } :=
  ⟨⟨who, .status, readValue .status s⟩ :: s.reads, by simp [regRead, readIsFree]⟩

/-- A read of a result register when no command runs (R55). -/
theorem hostRead_result {r : Reg} (hr : r = .res0 ∨ r = .res1) {run : HostRun W} (hb : run.block.status.busy = false) :
    ∃ rs, hostRead r run = ⟨.value (if r = .res0 then run.block.res0 else run.block.res1),
      { run with block := { run.block with reads := rs } }⟩ := by
  refine ⟨⟨.host 0, r, readValue r run.block⟩ :: run.block.reads, ?_⟩
  rcases hr with rfl | rfl <;> simp [hostRead, regRead, readIsFree, readValue, hb]

/-- A write of an operand register when no command runs (R56). -/
theorem hostWrite_operand {r : Reg} {v : Word W} {run : HostRun W} {x : State.At W} (hb : run.block.status.busy = false)
    (h : regWrite r v run.block = .next (writeOperand x run.block)) :
    hostWrite r v run = ⟨.value (), { run with block := x }⟩ := by
  rw [hostWrite, h, writeOperand, hb]
  rfl

/-- The block when it has accepted command `i` (R72). -/
def issuedBlock (i : Instr) (s : State.At W) : State.At W :=
  { s with status := s.status.runningAs i.opcode, work := operandCopies i s, stage := .entry }

/-- A command written to a free block is accepted (R72). -/
theorem hostWrite_command (hW : Config.Admissible W) {i : Instr} {run : HostRun W} (hb : run.block.status.busy = false)
    (hf : run.block.status.fatal = false) :
    hostWrite .cmd (encode i W) run = ⟨.value (), { run with block := issuedBlock i run.block }⟩ := by
  rw [hostWrite, regWrite, commandWrite, (decode_eq_some_iff hW _ _).2 rfl]
  simp only [execAt_accept i _ hb hf, afterResult, issuedBlock]

/-- One more poll of `wait`: it ends on `DONE = 1`, else the others have their turn (R77). -/
theorem pollStatus_wait_succ (hW : Config.Admissible W) (n : Nat) (run : HostRun W) :
    ∃ rs, pollStatus waitPoll (n + 1) run =
      if run.block.status.done then ⟨.value (), { run with block := { run.block with reads := rs } }⟩
      else (othersTurn { run with block := { run.block with reads := rs } }).andThen fun _ run => pollStatus waitPoll n run := by
  obtain ⟨rs, hrs⟩ := regRead_ofStatus (.host 0) run.block
  refine ⟨rs, ?_⟩
  rw [pollStatus, hostRead]
  simp only [Ended.andThen, readValue_status, waitPoll, (Status.word_polled hW _).1, hrs]
  cases run.block.status.done <;> rfl

/-- The others' turn when no witness is wanted: the controller's step. -/
theorem othersTurn_noWitness (hW : Config.Admissible W) {run : HostRun W} (hw : run.block.status.wreq = false) :
    ∃ rs, ∀ t, controllerStep ({ run.block with reads := rs } : State.At W) = .next t →
      othersTurn run = ⟨.value (), { run with block := t }⟩ := by
  obtain ⟨rs, hrs⟩ := regRead_ofStatus (.source 0) run.block
  refine ⟨rs, fun t ht => ?_⟩
  rw [othersTurn, sourceTurn]
  simp only [readValue_status, (Status.word_polled hW _).2.2.1, hw, hrs, Ended.andThen, ht, afterResult]

/-- The others' turn when a witness is wanted and the source has one: it is taken, and the controller goes on (R139). -/
theorem othersTurn_witness (hW : Config.Admissible W) {run : HostRun W} {a : Word W} {rest : List (Word W)}
    (hw : run.block.status.wreq = true) (hs : run.source = a :: rest) :
    ∃ rs, ∀ t, controllerStep ({ run.block with reads := rs, status := run.block.status.witnessTaken, work := { run.block.work with ma := a }, stage := .witness } : State.At W) = .next t →
      othersTurn run = ⟨.value (), { block := t, source := rest }⟩ := by
  obtain ⟨rs, hrs⟩ := regRead_ofStatus (.source 0) run.block
  refine ⟨rs, fun t ht => ?_⟩
  have hd : regWrite .witness a ({ run.block with reads := rs } : State.At W) = .next { run.block with reads := rs, status := run.block.status.witnessTaken, work := { run.block.work with ma := a }, stage := .witness } := by
    simp [regWrite, deliverWitness, hw]
  rw [othersTurn, sourceTurn]
  simp only [readValue_status, (Status.word_polled hW _).2.2.1, hw, hrs, hs, hd, Ended.andThen, ht, afterResult]

/-- A `wait` does not report the error it finds: that is the look at `STATUS` after it (R170). -/
theorem pollStatus_wait_noBlockError (n : Nat) : ∀ run : HostRun W, (pollStatus waitPoll n run).answer.isBlockError = false := by
  induction n with
  | zero => exact fun _ => rfl
  | succ n ih =>
    intro run
    rw [pollStatus]
    refine Ended.andThen_noBlockError rfl fun _ run => ?_
    split
    · rfl
    · exact afterResult_noBlockError _ _
    · refine Ended.andThen_noBlockError ?_ fun _ run => ih run
      rw [othersTurn]
      refine Ended.andThen_noBlockError ?_ fun _ _ => afterResult_noBlockError _ _
      unfold sourceTurn
      dsimp only
      split <;> first | exact afterResult_noBlockError _ _ | rfl

/-- The command of a call form. -/
def CallForm.instr : CallForm W → Instr
  | .gcd _ _ => .gcd
  | .xgcd _ _ => .xgcd
  | .mulmod _ _ _ => .mulmod
  | .powmod _ _ _ => .powmod
  | .factor _ => .factor
  | .mrround _ _ => .mrround
  | .mrtest _ _ _ => .mrtest

/-- The block with the operands of a call form written. -/
def CallForm.load (s : State.At W) : CallForm W → State.At W
  | .gcd a b => { s with opa := a, opb := b }
  | .xgcd a b => { s with opa := a, opb := b }
  | .mulmod a b m => { s with opa := a, opb := b, opm := m }
  | .powmod a b m => { s with opa := a, opb := b, opm := m }
  | .factor n => { s with opm := n }
  | .mrround n a => { s with opa := a, opm := n }
  | .mrtest n k _ => { s with opm := n, rounds := k }

/-- A call form on a free block, its witnesses left to the source: the operands, the command, and the wait (R78). -/
theorem runLines_expand (hW : Config.Admissible W) {form : CallForm W} {run : HostRun W} (polls : Nat)
    (hb : run.block.status.busy = false) (hf : run.block.status.fatal = false)
    (hform : ∀ n k ws, form = .mrtest n k ws → ws = []) :
    runLines polls form.expand run =
      pollStatus waitPoll polls { run with block := issuedBlock form.instr (form.load run.block) } := by
  have last : ∀ x : Ended W Unit, (x.andThen fun _ run => ⟨.value (), run⟩) = x := by
    rintro ⟨_ | _, _⟩ <;> rfl
  have cmd : ∀ (i : Instr) (run : HostRun W), run.block.status.busy = false → run.block.status.fatal = false →
      runLines polls [.cmd i, .wait] run = pollStatus waitPoll polls { run with block := issuedBlock i run.block } := by
    intro i run hb hf
    simp only [runLines, runLine, hostWrite_command hW hb hf]
    exact last _
  have wr : ∀ (r : Reg) (v : Word W) (rest : List (HostLine W)) (run : HostRun W) (x : State.At W),
      run.block.status.busy = false → regWrite r v run.block = .next (writeOperand x run.block) →
      runLines polls (.wr r v :: rest) run = runLines polls rest { run with block := x } := by
    intro r v rest run x hb h
    rw [runLines, runLine, hostWrite_operand hb h]
    rfl
  cases form with
  | gcd a b =>
    rw [CallForm.expand, wr .opa a _ _ _ (by exact hb) rfl, wr .opb b _ _ _ (by exact hb) rfl, cmd _ _ (by exact hb) (by exact hf)]
    rfl
  | xgcd a b =>
    rw [CallForm.expand, wr .opa a _ _ _ (by exact hb) rfl, wr .opb b _ _ _ (by exact hb) rfl, cmd _ _ (by exact hb) (by exact hf)]
    rfl
  | mulmod a b m =>
    rw [CallForm.expand, wr .opa a _ _ _ (by exact hb) rfl, wr .opb b _ _ _ (by exact hb) rfl,
      wr .opm m _ _ _ (by exact hb) rfl, cmd _ _ (by exact hb) (by exact hf)]
    rfl
  | powmod a b m =>
    rw [CallForm.expand, wr .opa a _ _ _ (by exact hb) rfl, wr .opb b _ _ _ (by exact hb) rfl,
      wr .opm m _ _ _ (by exact hb) rfl, cmd _ _ (by exact hb) (by exact hf)]
    rfl
  | factor n => rw [CallForm.expand, wr .opm n _ _ _ (by exact hb) rfl, cmd _ _ (by exact hb) (by exact hf)]; rfl
  | mrround n a =>
    rw [CallForm.expand, wr .opm n _ _ _ (by exact hb) rfl, wr .opa a _ _ _ (by exact hb) rfl, cmd _ _ (by exact hb) (by exact hf)]
    rfl
  | mrtest n k ws =>
    obtain rfl := hform n k ws rfl
    rw [CallForm.expand]
    simp only [List.map_nil, List.append_nil, List.cons_append, List.nil_append]
    rw [wr .opm n _ _ _ (by exact hb) rfl, wr .rounds k _ _ _ (by exact hb) rfl, cmd _ _ (by exact hb) (by exact hf)]
    rfl

end Sys2Proof.Machine
end

