-- ==== Sys2Proof/Laws/PerInstr.lean ====
section
/-! SUPPORT. What holds of every command as syntax, one lemma for each constructor. -/

namespace Sys2Proof.Laws.CommandWord

/-- A command is well formed, and at every width its word is one that R71 calls legal, with its opcode in bits 7:0. -/
def Statement (i : Instr) : Prop :=
  i.wellFormed = true ∧ ∀ W, Config.Admissible W →
    WellFormed.legalWord (encode i W) = true ∧ opcodeField (encode i W) = i.opcode

/-- The statement from the two fields of the word. -/
theorem of_fields (i : Instr) (h1 : i.wellFormed = true)
    (h2 : ([0x01, 0x02, 0x03, 0x04, 0x05, 0x06, 0x07] : List (BitVec 8)).contains i.opcode = true) : Statement i := by
  refine ⟨h1, fun W hW => ?_⟩
  obtain ⟨hz, ho⟩ := Machine.encode_fields hW i
  refine ⟨?_, ho⟩
  rw [opcodeField] at ho
  rw [WellFormed.legalWord, hz, ho, h2]
  simp

theorem gcd : Statement .gcd := of_fields _ rfl (by decide)

theorem xgcd : Statement .xgcd := of_fields _ rfl (by decide)

theorem mulmod : Statement .mulmod := of_fields _ rfl (by decide)

theorem powmod : Statement .powmod := of_fields _ rfl (by decide)

theorem factor : Statement .factor := of_fields _ rfl (by decide)

theorem mrround : Statement .mrround := of_fields _ rfl (by decide)

theorem mrtest : Statement .mrtest := of_fields _ rfl (by decide)

end Sys2Proof.Laws.CommandWord
end

