-- ==== Sys2Proof/Tests/Slice0.lean ====
section
/-! SUPPORT. Tests and witnesses. The expected values are those of spec/95_test_vectors.md (section in each comment) or of the
encoding tables of 30_encoding.md. -/

open Sys2Proof Sys2Proof.Machine

namespace Sys2Proof.Tests

/-- The block after reset with its operand registers written. -/
def loaded (a b m k : Word) : State :=
  { State.reset with opa := a, opb := b, opm := m, rounds := k }

/-- The state a step answers; the reset state when it answers none. -/
def nextOf (r : Result Config.W) : State :=
  match r with
  | .next t => t
  | .fault _ | .refused _ => State.reset

/-- A command just accepted. -/
def issued (i : Instr) (a b m k : Word) : State :=
  nextOf (exec i (loaded a b m k))

/-- A command in phase RUN at a given point. -/
def running (i : Instr) (a b m k : Word) (g : Stage) (w : Working Config.W) : State :=
  { loaded a b m k with status := Status.reset.runningAs i.opcode, stage := g, work := w }

/-- `MRTEST 193, 1` in phase WAITW, with `OPA = 11` (95_test_vectors.md 2.9). -/
def waiting : State :=
  { loaded 11 0 193 1 with
    status := { Status.reset.runningAs 0x07 with wreq := true }, stage := .request,
    work := { Working.reset with mn := 193, mk := 1, mr := 6, md := 3 } }

/-- The block after a fatal error (R187, R194). -/
def fatal : State :=
  { State.reset with status := { Status.reset.erredAs 0x05 6 with fatal := true } }

/-- The block in phase DONE after an error of `MULMOD`, with a hazard noted. -/
def doneWithError : State :=
  { loaded 9 9 0 0 with status := { Status.reset.erredAs 0x03 3 with hzd := true } }

/-! ### Well-formedness: words and accesses that are refused (R54, R71; 95_test_vectors.md 2.8) -/

theorem test_zero_word_illegal : WellFormed.legalWord (0 : Word) = false ∧ decode (0 : Word) = none := by decide

theorem test_opcode_8_illegal : WellFormed.legalWord (0x08 : Word) = false ∧ decode (0x08 : Word) = none := by decide

theorem test_zero_field_set_illegal : WellFormed.legalWord (0x101 : Word) = false ∧ decode (0x101 : Word) = none := by decide

theorem test_top_bit_illegal :
    WellFormed.legalWord (0x8000000000000004 : Word) = false ∧ decode (0x8000000000000004 : Word) = none := by decide

theorem test_narrow_access_refused : WellFormed.slotAccess 0x10 4 = false ∧ regOfAccess 0x10 4 = none := by decide

theorem test_misaligned_access_refused : WellFormed.slotAccess 0x14 8 = false ∧ regOfAccess 0x14 8 = none := by decide

theorem test_outside_access_refused : WellFormed.slotAccess 0x80 8 = false ∧ regOfAccess 0x80 8 = none := by decide

theorem test_last_slot_accepted : WellFormed.slotAccess 0x78 8 = true ∧ regOfAccess 0x78 8 = some (.reserved 5) := by
  decide

/-! ### Decoding: the word column of R74 -/

theorem test_decode_gcd : decode (0x0000000000000001 : Word) = some .gcd := by decide

theorem test_decode_xgcd : decode (0x0000000000000002 : Word) = some .xgcd := by decide

theorem test_decode_mulmod : decode (0x0000000000000003 : Word) = some .mulmod := by decide

theorem test_decode_powmod : decode (0x0000000000000004 : Word) = some .powmod := by decide

theorem test_decode_factor : decode (0x0000000000000005 : Word) = some .factor := by decide

theorem test_decode_mrround : decode (0x0000000000000006 : Word) = some .mrround := by decide

theorem test_decode_mrtest : decode (0x0000000000000007 : Word) = some .mrtest := by decide

/-! ### One step of each command -/

/-- 2.1: `GCD 0, 5` exchanges its operands first. -/
theorem test_gcd_exchanges : (nextOf (controllerStep (issued .gcd 0 5 0 0))).work.ga = 5 := by decide

/-- 2.1: `GCD 5, 0` publishes 5. -/
theorem test_gcd_publishes :
    (nextOf (controllerStep (running .gcd 5 0 0 0 .euclid { Working.reset with ga := 5 }))).res0 = 5 := by decide

/-- Part 1, first row of the table of S7: one pass of R94. -/
theorem test_xgcd_pass :
    let t := nextOf (controllerStep (running .xgcd 421 111 0 0 .euclid
      { Working.reset with r0 := 421, r1 := 111, s0 := 1, t1 := 1 }))
    t.work.r1 = 88 ∧ t.work.s1 = 1 ∧ t.work.t1.toInt = -3 := by decide

/-- Part 1, S7: the words of the coefficients -29 and 110. -/
theorem test_xgcd_publishes :
    let t := nextOf (controllerStep (running .xgcd 421 111 0 0 .euclid
      { Working.reset with r0 := 1, s0 := BitVec.ofInt 65 (-29), s1 := 111, t0 := 110, t1 := BitVec.ofInt 65 (-421) }))
    t.res1 = 0xFFFFFFFFFFFFFFE3 ∧ t.res2 = 0x6E := by decide

/-- 2.3: a truncated product would give 4. -/
theorem test_mulmod_exact :
    (nextOf (controllerStep (issued .mulmod 0xFFFFFFFFFFFFFFFE 0xFFFFFFFFFFFFFFFE 0xFFFFFFFFFFFFFFFF 0))).res0 = 1 := by
  decide

/-- 2.3: `MULMOD 9, 9, 0`. -/
theorem test_mulmod_modulus_zero :
    (nextOf (controllerStep (issued .mulmod 9 9 0 0))).status.word = 0x030306 := by decide

/-- 2.4, trace of `POWMOD 4, 3, 33`, iteration 2. -/
theorem test_powmod_pass :
    let t := nextOf (controllerStep (running .powmod 4 3 33 0 .power
      { Working.reset with acc := 4, pb := 16, pe := 1, pm := 33 }))
    t.work.acc = 31 ∧ t.work.pb = 25 ∧ t.work.pe = 0 := by decide

/-- 2.4: `POWMOD 5, 0, 1` starts with `acc = 0`. -/
theorem test_powmod_modulus_one : (nextOf (controllerStep (issued .powmod 5 0 1 0))).work.acc = 0 := by decide

/-- 2.5: `FACTOR 1`. -/
theorem test_factor_one : (nextOf (controllerStep (issued .factor 0 0 1 0))).status.word = 0x050106 := by decide

/-- 2.5: `FACTOR 25` publishes 3 and 3. -/
theorem test_factor_publishes :
    let t := nextOf (controllerStep (running .factor 0 0 25 0 .decompose
      { Working.reset with mn := 25, mr := 3, md := 3 }))
    t.res0 = 3 ∧ t.res1 = 3 := by decide

/-- 2.6: `MRROUND 5, 4` is out of range (`a = n - 1`). -/
theorem test_mrround_witness : (nextOf (controllerStep (issued .mrround 4 0 5 0))).status.word = 0x060406 := by decide

/-- 2.6, `MRROUND 193, 5`: the fifth squaring gives 192 and ends the round. -/
theorem test_mrround_last_squaring :
    let t := nextOf (controllerStep (running .mrround 5 0 193 0 .square
      { Working.reset with mn := 193, mr := 6, md := 3, ma := 5, mx := 112, mi := 4 }))
    t.res0 = 1 ∧ t.res1 = 5 := by decide

/-- 2.7: `STATUS` when `MRTEST` asks for a witness. -/
theorem test_mrtest_asks :
    (nextOf (controllerStep (running .mrtest 0 0 193 3 .request
      { Working.reset with mn := 193, mk := 3, mr := 6, md := 3 }))).status.word = 0x070009 := by decide

/-- 2.7: `MRTEST 3, 4` asks for no witness. -/
theorem test_mrtest_three :
    let t := nextOf (controllerStep (issued .mrtest 0 0 3 4))
    t.res0 = 1 ∧ t.res1 = 0 ∧ t.status.word = 0x070002 := by decide

/-- 2.9: an operand write in phase WAITW. -/
theorem test_hazard :
    let t := nextOf (regWrite .opa 5 waiting)
    t.opa = 11 ∧ t.status.word = 0x070019 := by decide

/-- 2.8: the illegal word 0x101. -/
theorem test_illegal_word : (nextOf (regWrite .cmd 0x101 State.reset)).status.word = 0x010506 := by decide

/-! ### Witnesses of the hypotheses of the statements -/

/-- A running command at a point of its rule meets the invariant. -/
theorem inv_of_running {i : Instr} {s : State} (h : s.status = Status.reset.runningAs i.opcode) (hr : s.Running i) :
    s.Inv := by
  refine ⟨?_, by rw [h]; rfl, fun _ => ⟨i, by rw [h]; exact decodeOpcode_opcode i, hr⟩⟩
  rw [h]
  constructor <;> cases i <;> decide

theorem witness_DecodeInvertsEncode :
    Instr.mrtest.wellFormed = true ∧ decode (0x0000000000000007 : Word) = some .mrtest := by decide

theorem witness_StepRunsTheDecodedCommand :
    ({ State.reset with schedule := [.write (.host 0) 0x00 8 2] } : State).schedule
        = .write (.host 0) Reg.cmd.offset Config.slotBytes 2 :: [] ∧
      decode (2 : Word) = some .xgcd ∧ Instr.xgcd.wellFormed = true ∧ decodeTableWord 64 7 = some .mrtest := by decide

theorem witness_EveryCommandIsAcceptedWhenFree :
    (State.reset.status.busy = false ∧ State.reset.status.fatal = false) ∧
      (doneWithError.status.busy = false ∧ doneWithError.status.fatal = false) := by decide

theorem witness_CommandWriteDroppedWhileBusyOrFatal :
    waiting.status.busy = true ∧ fatal.status.fatal = true := by decide

theorem witness_IllegalWordEndsInAnError :
    (0x101 : Word).extractLsb' 8 (Config.W - 8) ≠ 0 ∧ (0 : Word).extractLsb' 0 8 = 0 ∧
      8 ≤ ((0x08 : Word).extractLsb' 0 8).toNat ∧ doneWithError.Accepts ∧ waiting.status.busy = true ∧
      fatal.status.fatal = true := by decide

theorem witness_CommandIssueFrame :
    (∃ t, exec .gcd (loaded 1 2 3 4) = .next t ∧ (loaded 1 2 3 4).status.busy = false ∧
      (loaded 1 2 3 4).status.fatal = false ∧ readIsFree .opa t = false) ∧
    ∃ t, exec .gcd waiting = .next t ∧ readIsFree .rounds t = false :=
  ⟨⟨_, rfl, by decide⟩, _, rfl, by decide⟩

theorem witness_OperandWritesTakenOrDropped :
    waiting.status.busy = true ∧ (loaded 1 2 3 4).status.busy = false := by decide

theorem witness_WitnessTakenOnlyWhenWanted :
    waiting.status.wreq = true ∧ State.reset.status.wreq = false := by decide

theorem witness_ReadOnlyWritesChangeNothing :
    Reg.status = .status ∧ Reg.res0 = .res0 ∧ Reg.res1 = .res1 ∧ Reg.res2 = .res2 ∧ ∃ k, Reg.reserved 5 = .reserved k :=
  ⟨rfl, rfl, rfl, rfl, 5, rfl⟩

theorem witness_ReadsReturnTheRegisters :
    ({ waiting with schedule := [.read (.host 0) 0x30 8] } : State).schedule
        = .read (.host 0) Reg.res0.offset Config.slotBytes :: [] ∧ waiting.status.busy = true ∧
      ({ doneWithError with schedule := [.read (.host 0) 0x40 8] } : State).schedule
        = .read (.host 0) Reg.res2.offset Config.slotBytes :: [] ∧ doneWithError.status.busy = false := by decide

theorem witness_OnlySlotAccessesExist :
    Config.Admissible Config.W ∧ Config.Admissible 32 ∧ WellFormed.slotAccess 0x40 4 32 = false ∧
      WellFormed.slotAccess 0x3E 4 32 = false ∧ WellFormed.slotAccess 0x80 8 = false ∧
      WellFormed.slotAccess 0x7C 8 = false ∧ WellFormed.slotAccess 0x78 4 = false ∧
      ({ State.reset with schedule := [.read (.host 0) 0x80 8] } : State).schedule = .read (.host 0) 0x80 8 :: [] ∧
      ({ State.reset with schedule := [.write (.host 0) 0x7C 8 1] } : State).schedule
        = .write (.host 0) 0x7C 8 1 :: [] := by decide

theorem witness_AgentsAreAlike : regOfAccess 0x48 8 = some .witness := by decide

theorem witness_CommandsOnNeverWrittenOperands :
    State.reset.Accepts ∧ State.reset.opa = 0 ∧ State.reset.opb = 0 ∧ State.reset.opm = 0 ∧ State.reset.rounds = 0 := by
  decide

theorem witness_GcdComputesGreatestCommonDivisor : (loaded 421 111 0 0).Accepts ∧ doneWithError.Accepts := by decide

theorem witness_XgcdComputesTheRecurrence : (loaded 421 111 0 0).Accepts ∧ doneWithError.Accepts := by decide

theorem witness_XgcdBezoutIdentityIsExact : (loaded 0xFFFFFFFFFFFFFFFF 2 0 0).Accepts := by decide

theorem witness_XgcdCoefficientsAreSmall : 0 < Nat.gcd 23 0 ∧ 0 < Nat.gcd 421 111 := by decide

theorem witness_MulmodMultipliesExactly :
    (loaded 7 8 5 0).Accepts ∧ (loaded 7 8 5 0).opm ≠ 0 ∧ doneWithError.Accepts ∧ doneWithError.opm = 0 := by decide

theorem witness_PowmodRaisesToThePower :
    (loaded 5 0 1 0).Accepts ∧ (loaded 5 0 1 0).opm ≠ 0 ∧ (loaded 5 3 0 0).Accepts ∧ (loaded 5 3 0 0).opm = 0 := by decide

theorem witness_PowmodTakesBitlenIterations :
    (loaded 4 3 33 0).Accepts ∧ (loaded 4 3 33 0).opm ≠ 0 ∧
      exec .powmod (loaded 4 3 33 0) = .next (issued .powmod 4 3 33 0) := ⟨by decide, by decide, rfl⟩

theorem witness_FactorDecomposes :
    (loaded 0 0 2 0).Accepts ∧ 2 ≤ (loaded 0 0 2 0).opm.toNat ∧ (loaded 0 0 1 0).opm.toNat ≤ 1 := by decide

theorem witness_MrroundComputesTheRound :
    (loaded 3 0 5 0).Accepts ∧ Reference.CandidateOk (loaded 3 0 5 0).opm.toNat ∧
      Reference.WitnessOk (loaded 3 0 5 0).opm.toNat (loaded 3 0 5 0).opa.toNat ∧
      2 ^ 2 * 1 + 1 = (loaded 3 0 5 0).opm.toNat ∧ 1 % 2 = 1 := by decide

theorem witness_MrroundChecksItsArguments :
    (loaded 2 0 4 0).Accepts ∧ ¬ Reference.CandidateOk (loaded 2 0 4 0).opm.toNat ∧ (loaded 2 0 3 0).Accepts ∧
      Reference.CandidateOk (loaded 2 0 3 0).opm.toNat ∧
      ¬ Reference.WitnessOk (loaded 2 0 3 0).opm.toNat (loaded 2 0 3 0).opa.toNat := by decide

theorem witness_MrtestChecksItsArguments :
    (loaded 0 0 4 3).Accepts ∧ ¬ Reference.CandidateOk (loaded 0 0 4 3).opm.toNat ∧ (loaded 0 0 193 0).Accepts ∧
      Reference.CandidateOk (loaded 0 0 193 0).opm.toNat ∧ (loaded 0 0 193 0).rounds = 0 ∧
      (loaded 0 0 3 1).opm = 3 ∧ (loaded 0 0 3 1).rounds ≠ 0 := by decide

theorem witness_MrtestAsksForAWitness :
    (loaded 0 0 5 1).Accepts ∧ Reference.CandidateOk (loaded 0 0 5 1).opm.toNat ∧ (loaded 0 0 5 1).opm ≠ 3 ∧
      (loaded 0 0 5 1).rounds ≠ 0 := by decide

/-- 2.7, `MRTEST 561, 3; 50, 2`: composite in the second round; and the three outcomes of the statement. -/
theorem witness_MrtestRunsTheRounds :
    (loaded 0 0 561 3).Accepts ∧ Reference.mrTest 561 3 [] = .waiting 0 ∧ Reference.mrTest 561 3 [50] = .waiting 1 ∧
      Reference.mrTest 561 3 [50, 2] = .verdict false 2 ∧ Reference.mrTest 193 3 [2, 1] = .error .argWitness := by
  decide

theorem witness_PrimesPassEveryWitness :
    Nat.Prime 13 ∧ Reference.WitnessOk 13 11 ∧ 2 ^ 2 * 3 + 1 = 13 ∧ 3 % 2 = 1 :=
  ⟨by norm_num, by decide, by decide, by decide⟩

theorem witness_SecondPowerIsTheSquare : 1 ≤ 1 := by decide

/-- `MULMOD` with modulus 0 errs in its step. -/
theorem witness_ErrorsArePrecise :
    ∃ t, step (issued .mulmod 9 9 0 0) = .next t ∧ (issued .mulmod 9 9 0 0).status.err = false ∧ t.status.err = true ∧
      (issued .mulmod 9 9 0 0).status.busy = true :=
  ⟨_, rfl, by decide⟩

theorem witness_FatalErrorLatches :
    ∃ t, fatal.status.fatal = true ∧ fatal.status.busy = false ∧ fatal.status.wreq = false ∧ step fatal = .next t ∧
      fatal.resetNext = false :=
  ⟨_, rfl, rfl, rfl, rfl, rfl⟩

theorem witness_HazardFlagIsSticky :
    ∃ t, step doneWithError = .next t ∧ doneWithError.status.hzd = true ∧ doneWithError.resetNext = false :=
  ⟨_, rfl, rfl, rfl⟩

theorem witness_HazardFlagAffectsNothingElse : ∃ t, step (issued .gcd 6 4 0 0) = .next t := ⟨_, rfl⟩

theorem reset_legal : State.reset.status.Legal := by
  constructor <;> decide

/-- Every cause of `PhaseMoves`, and the reset: IDLE to RUN, IDLE to DONE, RUN to DONE, RUN to WAITW, WAITW to RUN, WAITW to
IDLE. -/
theorem witness_PhaseTransitionsAreR38s :
    State.reset.status.Legal ∧ (issued .gcd 6 4 0 0).status.Legal ∧ waiting.status.Legal ∧
      (nextOf (step { State.reset with schedule := [commandWriteEvent 1] })).status.phase = some .run ∧
      (nextOf (step { State.reset with schedule := [commandWriteEvent 0] })).status.phase = some .done ∧
      (nextOf (step (issued .mulmod 9 9 0 0))).status.phase = some .done ∧
      (nextOf (step { waiting with status := { waiting.status with wreq := false } })).status.phase = some .waitw ∧
      (nextOf (step { waiting with schedule := [slotWrite (.source 0) .witness 11] })).status.phase = some .run ∧
      (nextOf (step { waiting with schedule := [.reset] })).status.phase = some .idle :=
  ⟨reset_legal, by constructor <;> decide, by constructor <;> decide, by decide, by decide, by decide, by decide, by decide,
    by decide⟩

theorem witness_StepKeepsFlagsLegal : State.reset.status.Legal ∧ ∃ t, step State.reset = .next t :=
  ⟨reset_legal, _, rfl⟩

/-- The host writes 7 to `OPM`. -/
theorem witness_OperandsChangeOnlyByTheirWrite :
    let s : State := { State.reset with schedule := [.write (.host 0) 0x20 8 7] }
    ∃ t, step s = .next t ∧ s.resetNext = false ∧ readValue .opm t ≠ readValue .opm s :=
  ⟨_, rfl, by decide⟩

/-- `GCD 6, 0` completes. -/
def gcdEnding : State :=
  running .gcd 6 0 0 0 .euclid { Working.reset with ga := 6 }

theorem witness_ResultsArePublishedWithDone :
    ∃ t, step gcdEnding = .next t ∧ gcdEnding.resetNext = false ∧ t.res0 ≠ gcdEnding.res0 :=
  ⟨_, rfl, by decide⟩

/-- `XGCD 23, 1` completes: the coefficients are 0 and 1. -/
def xgcdEnding : State :=
  running .xgcd 23 1 0 0 .euclid
    { Working.reset with r0 := 1, s0 := 0, s1 := 1, t0 := 1, t1 := BitVec.ofInt 65 (-23) }

theorem witness_UnnamedResultsKeepTheirValue :
    (∃ t, controllerStep xgcdEnding = .next t ∧ t.res2 ≠ xgcdEnding.res2) ∧
      ∃ t, controllerStep (running .factor 0 0 25 0 .decompose { Working.reset with mn := 25, mr := 3, md := 3 }) = .next t ∧
        t.res1 ≠ 0 :=
  ⟨⟨_, rfl, by decide⟩, _, rfl, by decide⟩

theorem witness_IdleBlockDoesNothing :
    State.reset.schedule = [] ∧ State.reset.status.phase ≠ some .run ∧ waiting.status.phase ≠ some .run ∧
      ({ waiting with schedule := [.controller] } : State).schedule = .controller :: [] := by decide

theorem gcdEnding_inv : gcdEnding.Inv :=
  inv_of_running (i := .gcd) rfl (by show Nat.gcd 6 0 = Nat.gcd 6 0; rfl)

theorem witness_StepKeepsTheInvariant : gcdEnding.Inv ∧ ∃ t, step gcdEnding = .next t := ⟨gcdEnding_inv, _, rfl⟩

theorem witness_LegalStatesNeverFault : gcdEnding.Inv ∧ ({ gcdEnding with schedule := [.read (.host 0) 1 1] } : State).Inv :=
  ⟨gcdEnding_inv, gcdEnding_inv.1, gcdEnding_inv.2, gcdEnding_inv.3⟩

theorem witness_RunEndsInDoneOrWait : gcdEnding.Inv ∧ gcdEnding.status.phase = some .run := ⟨gcdEnding_inv, by decide⟩

/-- The hypotheses of `EveryCompletionIsRight` for one state. -/
def Completing (s : State) : Prop :=
  s.Inv ∧ ∃ t, step s = .next t ∧ s.status.phase = some .run ∧ t.status.phase = some .done ∧ t.status.err = false

theorem witness_EveryCompletionIsRight_gcd : Completing gcdEnding := ⟨gcdEnding_inv, _, rfl, by decide⟩

theorem witness_EveryCompletionIsRight_xgcd : Completing xgcdEnding :=
  ⟨inv_of_running (i := .xgcd) rfl (by constructor <;> decide), _, rfl, by decide⟩

theorem witness_EveryCompletionIsRight_mulmod : Completing (issued .mulmod 7 8 5 0) :=
  ⟨inv_of_running (i := .mulmod) rfl ⟨rfl, rfl, rfl⟩, _, rfl, by decide⟩

theorem witness_EveryCompletionIsRight_powmod :
    Completing (running .powmod 4 3 33 0 .power { Working.reset with acc := 31, pb := 25, pe := 0, pm := 33 }) :=
  ⟨inv_of_running (i := .powmod) rfl ⟨rfl, by decide, by decide⟩, _, rfl, by decide⟩

theorem witness_EveryCompletionIsRight_factor :
    Completing (running .factor 0 0 25 0 .decompose { Working.reset with mn := 25, mr := 3, md := 3 }) :=
  ⟨inv_of_running (i := .factor) rfl ⟨rfl, by decide, by decide⟩, _, rfl, by decide⟩

theorem witness_EveryCompletionIsRight_mrround :
    Completing (running .mrround 2 0 107 0 .power
      { Working.reset with mn := 107, mr := 1, md := 53, ma := 2, acc := 106 }) :=
  ⟨inv_of_running (i := .mrround) rfl
    ⟨rfl, rfl, by decide, ⟨⟨by decide, by decide⟩, by decide⟩, by decide, by decide, by decide⟩, _, rfl, by decide⟩

theorem witness_EveryCompletionIsRight_mrtest_prime :
    Completing (running .mrtest 0 0 107 1 .power
      { Working.reset with mn := 107, mk := 1, mr := 1, md := 53, ma := 2, acc := 106 }) :=
  ⟨inv_of_running (i := .mrtest) rfl
    ⟨rfl, rfl, by decide, by decide, by decide, ⟨⟨by decide, by decide⟩, by decide⟩, by decide, by decide, by decide⟩,
    _, rfl, by decide⟩

theorem witness_EveryCompletionIsRight_mrtest_composite :
    Completing (running .mrtest 0 0 9 1 .square
      { Working.reset with mn := 9, mk := 1, mr := 3, md := 1, ma := 2, mx := 7, mi := 2 }) :=
  ⟨inv_of_running (i := .mrtest) rfl
    ⟨rfl, rfl, by decide, by decide, by decide, ⟨⟨by decide, by decide⟩, by decide⟩, by decide, by decide, by decide,
      by decide⟩,
    _, rfl, by decide⟩

theorem witness_EveryCompletionIsRight_mrtest_three : Completing (issued .mrtest 0 0 3 4) :=
  ⟨inv_of_running (i := .mrtest) rfl ⟨rfl, rfl, by decide, trivial⟩, _, rfl, by decide⟩

/-- Two blocks with different results and hazard flags run `FACTOR 25`. -/
theorem witness_EndsDependOnOperandsOnly :
    let s₁ := loaded 9 9 25 0
    let s₂ : State := { loaded 9 9 25 0 with res0 := 77, res2 := 5, status := { Status.reset.endedAs 0x01 with hzd := true } }
    ∃ t₁ t₂ u₁ u₂, s₁.Accepts ∧ s₂.Accepts ∧ exec .factor s₁ = .next t₁ ∧ exec .factor s₂ = .next t₂ ∧
      controllerRun 5 t₁ = .next u₁ ∧ controllerRun 5 t₂ = .next u₂ ∧ u₁.status.phase = some .done ∧
      u₂.status.phase = some .done ∧ u₁.status.err = false :=
  ⟨_, _, _, _, by decide, by decide, rfl, rfl, rfl, rfl, by decide⟩

theorem witness_PrivateExponentInvertsE :
    1 < (20 : Word).toNat ∧ Nat.gcd (3 : Word).toNat (20 : Word).toNat = 1 ∧ 1 < (2 : Word).toNat ∧
      Nat.gcd (3 : Word).toNat (2 : Word).toNat = 1 := by decide

/-! ### The host contracts (43_host_contracts.md; 95_test_vectors.md, program P2) -/

def limits : Contracts.Limits :=
  { polls := 72, tests := 2, maxIncrements := 1, primes := 1, reportTestErrors := true }

/-- A host with a block just after reset and a source that gives `source`. -/
def host (source : List Word) : HostRun Config.W :=
  { block := State.reset, source := source }

/-- Bits 4 and 0 of a candidate of 5 bits are set whatever is drawn (R161). -/
theorem test_candidate_range :
    Contracts.candidateFromDraw 5 (3 : Word) = 19 ∧ Contracts.candidateFromDraw 5 (0xFFFFFFFFFFFFFFE0 : Word) = 17 := by
  decide

/-- From the candidate 25, composite by the witness 2, to 27, composite, to a fresh 29: after one increment (R161, R162). -/
theorem test_prime_search :
    (Contracts.generatePrime { limits with tests := 3 } 5 1 (host [25, 2, 2, 29, 2])).answer = .value (29 : Word) := by
  decide

/-- An increment would leave the range `[2^2, 2^3)` at 7, and at `2^W - 1` (R161). -/
theorem test_leaves_range :
    Contracts.leavesRange 3 (7 : Word) = true ∧ Contracts.leavesRange 3 (5 : Word) = false ∧
      Contracts.leavesRange 64 (0xFFFFFFFFFFFFFFFF : Word) = true ∧
      Contracts.leavesRange 64 (0xFFFFFFFFFFFFFFFD : Word) = false := by decide

/-- The key of P2: p = 61, q = 53, e = 17 gives n = 3233 and d = 2753 (R166). -/
theorem test_key_pair :
    (Contracts.generateKeyPair limits 12 17 1 (host [61, 2, 53, 2])).answer =
      .value { n := 3233, e := 17, d := 2753 } := by decide

/-- P2: 65 is encrypted to 2790, and the round trip of two units. -/
theorem test_ciphertext :
    (Contracts.encryptUnits limits [65, 0] (17 : Word) 3233 (host [])).answer = .value [2790, 0] ∧
      (Contracts.decryptUnits limits [2790, 0] (2753 : Word) 3233 (host [])).answer = .value [65, 0] := by decide

/-- R170: a modulus 0 reaches the caller as code 3. -/
theorem test_block_error :
    (Contracts.decryptUnit limits 5 3 (0 : Word) (host [])).answer = .failed (.blockError 3) := by decide

/-- A witness out of range, 1 for the candidate 27: reported (R170), or followed by the next candidate, 29 (R161; log 17). -/
theorem test_witness_error_in_search :
    (Contracts.generatePrime limits 5 1 (host [27, 1, 2])).answer = .failed (.blockError 4) ∧
      (Contracts.generatePrime { limits with reportTestErrors := false } 5 1 (host [27, 1, 2])).answer = .value 29 := by
  decide

/-- A procedure with that answer ends somewhere. -/
theorem ended_with {α : Type} {x : Ended Config.W α} {a : HostResult α} (h : x.answer = a) : ∃ run', x = ⟨a, run'⟩ :=
  ⟨x.run, by rw [← h]⟩

theorem witness_CipherRoundTrip :
    Config.Admissible Config.W ∧ Nat.Prime (61 : Word).toNat ∧ Nat.Prime (53 : Word).toNat ∧ (61 : Word) ≠ 53 ∧
      (61 : Word).toNat * (53 : Word).toNat < 2 ^ Config.W ∧ (host []).block.Accepts ∧
      (∃ run', Contracts.keyFromPrimes limits 61 53 17 (host []) = ⟨.value { n := 3233, e := 17, d := 2753 }, run'⟩) ∧
      Config.W + 3 ≤ limits.polls ∧ ∀ v ∈ ([65, 3232] : List Word), v.toNat < (3233 : Word).toNat :=
  ⟨by decide, by show Nat.Prime 61; norm_num, by show Nat.Prime 53; norm_num, by decide, by decide, by decide,
    ended_with (by decide), by decide, List.forall_mem_cons.2 ⟨by decide, List.forall_mem_singleton.2 (by decide)⟩⟩

theorem witness_PrimeSearchStaysInRange :
    Config.Admissible Config.W ∧ (host [2, 2, 29, 2]).block.Accepts ∧ 2 ≤ 5 ∧ 5 ≤ Config.W ∧
      Contracts.CandidateInRange 5 (25 : Word).toNat ∧
      (∃ run', Contracts.primeSearch limits 5 1 3 (25 : Word) 0 (host [2, 2, 29, 2]) = ⟨.value 29, run'⟩) ∧
      ∃ run', Contracts.generatePrime limits 2 1 (host [0]) = ⟨.value (3 : Word), run'⟩ :=
  ⟨by decide, by decide, by decide, by decide, by decide, ended_with (by decide), ended_with (by decide)⟩

theorem witness_GeneratedKeysAreSound :
    Config.Admissible Config.W ∧ (host [61, 2, 53, 2]).block.Accepts ∧
      ∃ run', Contracts.generateKeyPair limits 12 17 1 (host [61, 2, 53, 2]) =
        ⟨.value { n := 3233, e := 17, d := 2753 }, run'⟩ :=
  ⟨by decide, by decide, ended_with (by decide)⟩

theorem witness_HostErrorsAreReported :
    Config.Admissible Config.W ∧ Config.W < 65 ∧ (0 : Word).toNat ≤ (0 : Word).toNat ∧ (host [1]).block.Accepts ∧
      Config.W + 8 ≤ limits.polls ∧ Reference.CandidateOk (25 : Word).toNat ∧ (25 : Word) ≠ 3 ∧ (1 : Word) ≠ 0 ∧
      (host [1]).source = 1 :: [] ∧ ¬ Reference.WitnessOk (25 : Word).toNat (1 : Word).toNat := by decide

/-! ### Every width (R7) -/

/-- A block of 32 bits. -/
def narrow : State.At 32 :=
  { (State.At.reset 32) with schedule := [.write (.host 0) 0x00 4 1], opa := 0xFFFFFFFF, opb := 7, opm := 10 }

/-- The offsets of a 32-bit block are four bytes apart, and its `MULMOD` is exact (R8, R51). -/
theorem test_narrow_block :
    Reg.witness.offset 32 = 0x24 ∧ regOfAccess 0x24 4 32 = some .witness ∧
      (match execAt .mulmod narrow with
        | .next t => (match controllerStep t with | .next u => u.res0 | .fault _ | .refused _ => 0)
        | .fault _ | .refused _ => 0) = 5 := by decide

theorem witness_AdmissibleWidths : Config.Admissible 32 ∧ Config.Admissible 64 ∧ Config.Admissible 4096 ∧ ¬ Config.Admissible 24 := by
  decide

theorem witness_EveryWidthRunsTheCommands :
    narrow.schedule = .write (.host 0) (Reg.cmd.offset 32) (Config.slotBytes 32) 1 :: [] ∧
      decode (1 : Word 32) = some .gcd ∧ narrow.Accepts := by decide

/-- `GCD 6, 0` completes on a 32-bit block. -/
def narrowEnding : State.At 32 :=
  { (State.At.reset 32) with opa := 6, status := Status.reset.runningAs 0x01, stage := .euclid,
                             work := { Working.reset with ga := 6 } }

theorem witness_EveryWidth_steps :
    narrowEnding.Inv ∧ narrowEnding.status.phase = some .run ∧
      ∃ t, stepAt narrowEnding = .next t ∧ t.status.phase = some .done ∧ t.status.err = false :=
  ⟨⟨by constructor <;> decide, rfl, fun _ => ⟨.gcd, by decide, by show Nat.gcd 6 0 = Nat.gcd 6 0; rfl⟩⟩, by decide, _, rfl,
    by decide⟩

end Sys2Proof.Tests
end

namespace Sys2Proof.Machine

variable {W : Nat}

/-! ### The flags stay legal (R30, R31, R34) -/

/-- While a command runs nothing is reported yet (R31, R34). -/
theorem Status.Legal.noReport_of_busy {f : Status} (h : f.Legal) (hb : f.busy = true) :
    f.err = false ∧ f.errcode = 0 ∧ f.fatal = false := by
  have hd := h.busy_not_done hb
  have he : f.err = false := by
    by_contra hne
    simp [h.err_done (by simpa using hne)] at hd
  have hc : f.errcode = 0 := by
    by_contra hne
    simp [h.err_iff_code.2 hne] at he
  refine ⟨he, hc, ?_⟩
  by_contra hne
  have hi := h.fatal_iff_internal.1 (by simpa using hne)
  rw [hc] at hi
  exact absurd hi (by decide)

/-- A witness is wanted only while a command runs (R38). -/
theorem Status.Legal.wreq_of_not_busy {f : Status} (h : f.Legal) (hb : f.busy = false) : f.wreq = false := by
  by_contra hne
  simp [(h.wreq_mrtest (by simpa using hne)).1] at hb

theorem Status.reset_legal : Status.reset.Legal := by
  constructor <;> decide

/-- `HZD` takes part in no law of the flags (R32). -/
theorem Status.Legal.hazard {f : Status} (h : f.Legal) : f.hazard.Legal :=
  ⟨h.busy_not_done, h.err_done, h.wreq_mrtest, h.err_iff_code, h.code_listed, h.fatal_iff_internal, h.idle_no_opcode,
    h.busy_opcode⟩

/-- Error entry makes the flags legal, whatever they were before, when `FATAL` was not set (R191). -/
theorem Status.failed_legal (e : ErrorCode) {f : Status} (hf : f.fatal = false) : (f.failed e).Legal where
  busy_not_done := by simp
  err_done := by simp
  wreq_mrtest := by simp
  err_iff_code := by cases e <;> simp [ErrorCode.code]
  code_listed := by cases e <;> simp [ErrorCode.code]
  fatal_iff_internal := by cases e <;> simp [ErrorCode.code, hf]
  idle_no_opcode := by simp
  busy_opcode := by simp

/-- Normal completion of a running command (R33). -/
theorem Status.Legal.completed {f : Status} (h : f.Legal) (hb : f.busy = true) : f.completed.Legal := by
  obtain ⟨he, hc, hf⟩ := h.noReport_of_busy hb
  constructor <;> simp [he, hc, hf, ErrorCode.code]

/-- Acceptance of a command (R72). -/
theorem Status.Legal.runningAs {f : Status} (h : f.Legal) (hb : f.busy = false) (hf : f.fatal = false) (i : Instr) :
    (f.runningAs i.opcode).Legal := by
  have hw := h.wreq_of_not_busy hb
  constructor <;> simp [Status.runningAs, hw, hf, decodeOpcode_opcode, ErrorCode.code]

/-- The controller of `MRTEST` asks for a witness (R142). -/
theorem Status.Legal.witnessAsked {f : Status} (h : f.Legal) (hb : f.busy = true) (ho : f.opc = Instr.mrtest.opcode) :
    f.witnessAsked.Legal :=
  { h with wreq_mrtest := fun _ => ⟨hb, ho⟩ }

/-- A witness is taken (R139). -/
theorem Status.Legal.witnessTaken {f : Status} (h : f.Legal) : f.witnessTaken.Legal :=
  { h with wreq_mrtest := by simp }

/-- A turn of the controller keeps the flags legal. -/
theorem Turn.keeps_legal {s t : State.At W} (h : s.status.Legal) (ht : Turn s t) : t.status.Legal := by
  cases ht with
  | rest _ => exact h
  | work w g _ => exact h
  | ask hp ho => exact h.witnessAsked ((phase_run_iff _).1 hp).1 ho
  | error e hp => exact Status.failed_legal e (h.noReport_of_busy ((phase_run_iff _).1 hp).1).2.2
  | complete w r0 r1 r2 hp _ _ => exact h.completed ((phase_run_iff _).1 hp).1

/-- Every step of every agent keeps the flags legal, at every width. -/
theorem stepAt_keeps_legal (hW : Config.Admissible W) {s t : State.At W} (h : s.status.Legal) (hs : stepAt s = .next t) :
    t.status.Legal := by
  cases step_cases hW hs with
  | turn _ ht _ _ => exact Turn.keeps_legal (s := eventTaken s) h ht
  | read _ _ _ => exact h
  | drop _ => exact h.hazard
  | none _ => exact h
  | accept c i w _ _ hb hf _ => exact h.runningAs hb hf i
  | illegal c _ _ hb hf => exact Status.failed_legal _ hf
  | opa v _ _ => exact h
  | opb v _ _ => exact h
  | opm v _ _ => exact h
  | rounds v _ _ => exact h
  | witness a _ _ => exact h.witnessTaken
  | reset _ => exact Status.reset_legal

/-! ### The invariant is kept (R36, R94, R114, R131, R134, R141) -/

/-- An accepted command stands at the entry of its rule, with its operands copied (R72). -/
theorem issuedBlock_running (i : Instr) {s : State.At W} (hw : s.status.wreq = false) : (issuedBlock i s).Running i := by
  have hw' : (issuedBlock i s).status.wreq = true → (issuedBlock i s).stage = .request := fun h => by
    rw [show (issuedBlock i s).status.wreq = s.status.wreq from rfl, hw] at h
    exact absurd h (by decide)
  cases i with
  | gcd => exact ⟨rfl, rfl⟩
  | xgcd => exact ⟨rfl, rfl⟩
  | mulmod => exact ⟨rfl, rfl, rfl⟩
  | powmod => exact ⟨rfl, rfl, rfl⟩
  | factor => exact ⟨rfl, trivial⟩
  | mrround => exact ⟨rfl, rfl, trivial⟩
  | mrtest => exact ⟨rfl, rfl, hw', trivial⟩

/-- Only `MRTEST` waits for a witness, and it does so at its request (R142). -/
theorem State.At.Inv.running_of_wreq {s : State.At W} (h : s.Inv) (hw : s.status.wreq = true) :
    s.status.opc = Instr.mrtest.opcode ∧ s.Running .mrtest := by
  obtain ⟨hb, ho⟩ := h.flags.wreq_mrtest hw
  obtain ⟨i, hi, hr⟩ := h.working hb
  rw [ho, decodeOpcode_opcode, Option.some.injEq] at hi
  exact ⟨ho, hi ▸ hr⟩

/-- While a witness is asked for, `MRTEST` keeps the point of its rule. -/
theorem witnessAsked_running {s : State.At W} (h : s.Running .mrtest) (hs : s.stage = .request) :
    ({ s with status := s.status.witnessAsked } : State.At W).Running .mrtest := by
  obtain ⟨hn, hk, -, hp⟩ := h
  exact ⟨hn, hk, fun _ => hs, hp⟩

/-- The witness taken, `MRTEST` stands before its check, at the decomposition it had (R139, R141). -/
theorem witnessTaken_running {s : State.At W} (h : s.Running .mrtest) (hw : s.status.wreq = true) (a : Word W) :
    ({ s with status := s.status.witnessTaken, work := { s.work with ma := a }, stage := .witness } : State.At W).Running
      .mrtest := by
  obtain ⟨hn, hk, hq, hp⟩ := h
  rw [hq hw] at hp
  exact ⟨hn, hk, fun h => absurd h (by simp), hp⟩

/-- A controller step from a point of the running command (R57). -/
theorem controllerStep_iteration (hW : Config.Admissible W) {i : Instr} {s : State.At W} (hp : s.status.phase = some .run)
    (ho : s.status.opc = i.opcode) (h : s.Running i) : Iteration i s (controllerStep s) := by
  rw [controllerStep_run hp ho]
  exact iterate_iteration hW h ((phase_run_iff _).1 hp).2.2

/-- The command that runs in a state of the invariant, at a point of its rule. -/
theorem State.At.Inv.running {s : State.At W} (h : s.Inv) (hp : s.status.phase = some .run) :
    ∃ i : Instr, s.status.opc = i.opcode ∧ s.Running i := by
  obtain ⟨i, hi, hr⟩ := h.working ((phase_run_iff _).1 hp).1
  exact ⟨i, (decodeOpcode_eq_some_iff _ _).1 hi, hr⟩

/-- What a controller step does, in terms of the command that runs, keeps the invariant. -/
theorem Iteration.keeps_inv {i : Instr} {s t : State.At W} (h : s.Inv) (hl : t.status.Legal) (ho : s.status.opc = i.opcode)
    (hr : s.Running i) (hi : Iteration i s (.next t)) : t.Inv := by
  cases hi with
  | go w g hr' _ _ => exact ⟨hl, h.notFatal, fun _ => ⟨i, (decodeOpcode_eq_some_iff _ _).2 ho, hr'⟩⟩
  | ask hm hs =>
    subst hm
    exact ⟨hl, h.notFatal, fun _ => ⟨.mrtest, (decodeOpcode_eq_some_iff _ _).2 ho, witnessAsked_running hr hs⟩⟩
  | err e he _ => exact ⟨hl, by simp [h.notFatal, he], fun hb => absurd hb (by simp)⟩
  | fin w r0 r1 r2 _ => exact ⟨hl, h.notFatal, fun hb => absurd hb (by simp)⟩

/-- A turn of the controller keeps the invariant. -/
theorem controllerStep_keeps_inv (hW : Config.Admissible W) {s t : State.At W} (h : s.Inv) (hs : controllerStep s = .next t) :
    t.Inv := by
  by_cases hp : s.status.phase = some .run
  · obtain ⟨i, ho, hr⟩ := h.running hp
    exact Iteration.keeps_inv h ((controllerStep_turn hs).keeps_legal h.flags) ho hr
      (hs ▸ controllerStep_iteration hW hp ho hr)
  · rw [controllerStep_rest hp, Host.Outcome.next.injEq] at hs
    exact hs ▸ h

/-- The invariant does not speak of the schedule. -/
theorem State.At.Inv.eventTaken {s : State.At W} (h : s.Inv) : (eventTaken s).Inv :=
  ⟨h.flags, h.notFatal, h.working⟩

/-- When no command runs, the invariant is about the flags alone. -/
theorem inv_of_not_busy {s : State.At W} (hl : s.status.Legal) (hf : s.status.fatal = false) (hb : s.status.busy = false) :
    s.Inv :=
  ⟨hl, hf, fun h => absurd h (by simp [hb])⟩

/-- Every step of every agent keeps the invariant. -/
theorem stepAt_keeps_inv (hW : Config.Admissible W) {s t : State.At W} (h : s.Inv) (hs : stepAt s = .next t) : t.Inv := by
  have hl := stepAt_keeps_legal hW h.flags hs
  cases step_cases hW hs with
  | turn _ _ _ hc => exact controllerStep_keeps_inv hW h.eventTaken hc
  | read _ _ _ => exact ⟨hl, h.notFatal, h.working⟩
  | drop _ => exact ⟨hl, h.notFatal, h.working⟩
  | none _ => exact h.eventTaken
  | accept c i w _ _ hb hf hw =>
    subst hw
    exact ⟨hl, hf, fun _ => ⟨i, decodeOpcode_opcode i, issuedBlock_running i (h.flags.wreq_of_not_busy hb)⟩⟩
  | illegal c _ _ hb hf => exact inv_of_not_busy hl (by simp [hf]) (by simp)
  | opa v _ hb => exact inv_of_not_busy hl h.notFatal hb
  | opb v _ hb => exact inv_of_not_busy hl h.notFatal hb
  | opm v _ hb => exact inv_of_not_busy hl h.notFatal hb
  | rounds v _ hb => exact inv_of_not_busy hl h.notFatal hb
  | witness a _ hw =>
    obtain ⟨ho, hr⟩ := h.running_of_wreq hw
    exact ⟨hl, h.notFatal, fun _ => ⟨.mrtest, (decodeOpcode_eq_some_iff _ _).2 ho, witnessTaken_running hr hw a⟩⟩
  | reset _ => exact inv_of_not_busy hl rfl rfl

/-- Settles O58: the invariant as a step lemma, by what a step can do. -/
theorem stepKeepsTheInvariantAtEveryWidth : Obligations.StepKeepsTheInvariantAtEveryWidth :=
  fun _ hW _ _ => stepAt_keeps_inv hW

/-! ### The machine of every width runs the commands (R7, R72) -/

/-- A whole-slot write that comes next is a `RegWrite` of that register (R56). -/
theorem stepAt_slotWrite (hW : Config.Admissible W) {s : State.At W} {who : Agent} {r : Reg} {v : Word W}
    {rest : List (Event W)} (hs : s.schedule = .write who (r.offset W) (Config.slotBytes W) v :: rest) :
    stepAt s = regWrite r v { s with schedule := rest } := by
  simp [stepAt, hs, perform, regOfAccess_offset hW]

/-- Settles O57: `exec` and `step` are the generic machine at 64, and a command word is written, decoded and accepted at
every width. -/
theorem everyWidthRunsTheCommands : Obligations.EveryWidthRunsTheCommands := by
  refine ⟨fun i s => by cases i <;> rfl, fun _ => rfl, fun W hW s i => ⟨fun who c rest hs hi => ?_, fun ha => ?_⟩⟩
  · rw [stepAt_slotWrite hW hs, regWrite, commandWrite, hi]
  · obtain ⟨hb, hw, hf⟩ := (accepts_iff s).1 ha
    exact ⟨issuedBlock i s, execAt_accept i s hb hf, rfl, rfl, issuedBlock_running i hw, rfl⟩

end Sys2Proof.Machine

/-! ### Primes pass the Miller-Rabin round (R146) -/

namespace Sys2Proof.Machine.Reference

/-- A residue modulo a prime that is not 1 is not 1 in the field. -/
theorem cast_ne_one {n x : Nat} (hn : n.Prime) (hx : x < n) (h : x ≠ 1) : (x : ZMod n) ≠ 1 := by
  intro e
  rw [← Nat.cast_one, ZMod.natCast_eq_natCast_iff', Nat.mod_eq_of_lt hx, Nat.mod_eq_of_lt hn.one_lt] at e
  exact h e

/-- A residue modulo `n` that is not `n - 1` is not -1 in the field. -/
theorem cast_ne_neg_one {n x : Nat} (hx : x < n) (h : x ≠ n - 1) : (x : ZMod n) ≠ -1 := by
  intro e
  have h0 : ((x + 1 : Nat) : ZMod n) = 0 := by rw [Nat.cast_succ, e, neg_add_cancel]
  have := Nat.le_of_dvd (Nat.succ_pos x) ((ZMod.natCast_eq_zero_iff _ _).1 h0)
  omega

/-- The squaring loop of R134 modulo a prime, from a value that is neither 1 nor -1: if enough squarings lead to 1, the
loop meets -1, because 1 has no other square roots. -/
theorem squarings_of_prime {n : Nat} (hn : n.Prime) : ∀ (left x i : Nat), (x : ZMod n) ≠ 1 → (x : ZMod n) ≠ -1 →
    (x : ZMod n) ^ 2 ^ (left + 1) = 1 → (squarings left n x i).1 = true
  | 0, x, i, h1, h2, hp => by
    have := Fact.mk hn
    exact absurd ((sq_eq_one_iff.1 (by simpa using hp)).resolve_right h2) h1
  | left + 1, x, i, h1, h2, hp => by
    have := Fact.mk hn
    have hlt : mulmod x x n < n := Nat.mod_lt _ hn.pos
    have hsq : ((mulmod x x n : Nat) : ZMod n) = x ^ 2 := by rw [mulmod, ZMod.natCast_mod, Nat.cast_mul, sq]
    rw [squarings]
    split
    · rfl
    · rename_i hne
      refine squarings_of_prime hn left _ _ ?_ (cast_ne_neg_one hlt hne) ?_
      · rw [hsq]
        exact fun h => h1 ((sq_eq_one_iff.1 h).resolve_right h2)
      · rw [hsq, ← pow_mul, ← pow_succ', hp]

/-- R146: a prime passes the round on every witness in range. -/
theorem mrRound_of_prime {n r d a : Nat} (hn : n.Prime) (hw : WitnessOk n a) (hnd : 2 ^ r * d + 1 = n) (hd : d % 2 = 1) :
    (mrRound n r d a).1 = true := by
  have := Fact.mk hn
  obtain ⟨ha, han⟩ := hw
  have hr : r ≠ 0 := by
    rintro rfl
    have := hn.eq_two_or_odd
    omega
  obtain ⟨l, rfl⟩ := Nat.exists_eq_add_one_of_ne_zero hr
  rw [mrRound]
  split
  · rfl
  · rename_i hne
    rw [not_or] at hne
    have hlt : powmod a d n < n := Nat.mod_lt _ hn.pos
    have ha0 : (a : ZMod n) ≠ 0 := by
      rw [Ne, ZMod.natCast_eq_zero_iff]
      exact Nat.not_dvd_of_pos_of_lt (by omega) (by omega)
    have hfermat : ((powmod a d n : Nat) : ZMod n) ^ 2 ^ (l + 1) = 1 := by
      rw [powmod, ZMod.natCast_mod, Nat.cast_pow, ← pow_mul, mul_comm d, show 2 ^ (l + 1) * d = n - 1 by omega]
      exact ZMod.pow_card_sub_one_eq_one ha0
    exact squarings_of_prime hn l _ 0 (cast_ne_one hn hlt hne.1) (cast_ne_neg_one hlt hne.2) hfermat

end Sys2Proof.Machine.Reference

namespace Sys2Proof.Machine

variable {W : Nat}

open Reference (CandidateOk WitnessOk mrRound)

/-! ### What the recurrence of R94 comes to -/

/-- From any of its points the recurrence comes to its end, where its result is `xgcd(a, b)`. -/
theorem xgcdPoint_reaches_end {a b : Nat} (r1 : Nat) : ∀ {r0 : Nat} {s0 s1 t0 t1 : Int},
    XgcdPoint a b r0 r1 s0 s1 t0 t1 →
      ∃ s t : Int, XgcdPoint a b (Reference.xgcd a b).1 0 (Reference.xgcd a b).2.1 s (Reference.xgcd a b).2.2 t := by
  induction r1 using Nat.strong_induction_on with
  | _ r1 ih =>
    intro r0 s0 s1 t0 t1 p
    by_cases hz : r1 = 0
    · subst hz
      rw [(xgcdPoint_end p).1]
      exact ⟨s1, t1, p⟩
    · exact ih _ (Nat.mod_lt _ (Nat.pos_of_ne_zero hz)) (xgcdPoint_pass p hz)

/-- What `xgcd(a, b)` of R94 is: the greatest common divisor, the identity of R95 and the magnitudes of R96. -/
theorem xgcd_spec (a b : Nat) :
    (Reference.xgcd a b).1 = Nat.gcd a b ∧
    (a : Int) * (Reference.xgcd a b).2.1 + b * (Reference.xgcd a b).2.2 = Nat.gcd a b ∧
    (0 < Nat.gcd a b → (Reference.xgcd a b).2.1.natAbs ≤ max 1 (b / (2 * Nat.gcd a b)) ∧
      (Reference.xgcd a b).2.2.natAbs ≤ max 1 (a / (2 * Nat.gcd a b))) ∧
    (Nat.gcd a b = 0 → (Reference.xgcd a b).2.1 = 1 ∧ (Reference.xgcd a b).2.2 = 0) := by
  obtain ⟨s, t, p⟩ := xgcdPoint_reaches_end b (xgcdPoint_start a b)
  obtain ⟨-, hg, hbound, hzero⟩ := xgcdPoint_end p
  have hrow := p.row0
  rw [hg] at hrow hbound hzero
  exact ⟨hg, hrow, hbound, hzero⟩

/-- A value bounded as in R96 is in the range of R12. -/
theorem sval_tc_of_half {x : Int} {b g : Nat} (hW : Config.Admissible W) (hb : b < 2 ^ W) (hg : 0 < g)
    (h : x.natAbs ≤ max 1 (b / (2 * g))) : sval (tc x : Word W) = x := by
  have hW1 := hW.1
  have hpow : 2 ^ W = 2 * 2 ^ (W - 1) := by rw [← pow_succ', Nat.sub_add_cancel (by omega)]
  have hone : 1 < 2 ^ (W - 1) := Nat.one_lt_two_pow (by omega)
  have hhalf : b / (2 * g) ≤ b / 2 := Nat.div_le_div_left (by omega) (by norm_num)
  have hlt : x.natAbs < 2 ^ (W - 1) := by
    rcases le_max_iff.1 h with h | h <;> omega
  have hz : |x| < 2 ^ (W - 1) := by rw [Int.abs_eq_natAbs]; exact_mod_cast hlt
  rw [abs_lt] at hz
  exact sval_tc x (by omega) hz.1.le hz.2

/-- The words of the coefficients of `xgcd(a, b)` are read back as the coefficients (R95, R96). -/
theorem sval_tc_xgcd (hW : Config.Admissible W) (a b : Word W) :
    sval (tc (Reference.xgcd a.toNat b.toNat).2.1 : Word W) = (Reference.xgcd a.toNat b.toNat).2.1 ∧
    sval (tc (Reference.xgcd a.toNat b.toNat).2.2 : Word W) = (Reference.xgcd a.toNat b.toNat).2.2 := by
  obtain ⟨-, -, hbound, hzero⟩ := xgcd_spec a.toNat b.toNat
  rcases Nat.eq_zero_or_pos (Nat.gcd a.toNat b.toNat) with hg | hg
  · obtain ⟨hx, hy⟩ := hzero hg
    rw [hx, hy]
    exact ⟨sval_tc_of_half hW a.isLt Nat.one_pos (by simp), sval_tc_of_half hW a.isLt Nat.one_pos (by simp)⟩
  · obtain ⟨hx, hy⟩ := hbound hg
    exact ⟨sval_tc_of_half hW b.isLt hg hx, sval_tc_of_half hW a.isLt hg hy⟩

/-- The greatest common divisor of two words is a word (R90). -/
theorem word_gcd_toNat (a b : Word W) : (BitVec.ofNat W (Nat.gcd a.toNat b.toNat)).toNat = Nat.gcd a.toNat b.toNat := by
  refine word_ofNat_toNat ?_
  rcases Nat.eq_zero_or_pos a.toNat with ha | ha
  · rw [ha, Nat.gcd_zero_left]
    exact b.isLt
  · exact lt_of_le_of_lt (Nat.gcd_le_left _ ha) a.isLt

/-- A residue modulo a word is a word. -/
theorem word_residue_toNat {m : Word W} (hm : m ≠ 0) (x : Nat) : (BitVec.ofNat W (x % m.toNat)).toNat = x % m.toNat :=
  word_ofNat_toNat (lt_trans (Nat.mod_lt _ (word_pos hm)) m.isLt)

/-! ### A normal completion publishes the result of its rule -/

theorem word_one_ne_zero (hW : Config.Admissible W) : (1 : Word W) ≠ 0 := fun e => by
  have h1 := word_one_toNat hW
  rw [e] at h1
  simp at h1

/-- `MRROUND`'s end: the decomposition of `n - 1` is unique, so the round is that of every `r` and `d` (R131, R135). -/
theorem completes_publishes_mrround {s : State.At W} {r0 : Word W} {r1 r2 : Option (Word W)}
    (h : Completes .mrround s r0 r1 r2) (w : Working W) :
    Publishes .mrround s (complete r0 r1 r2 { s with work := w }) := by
  obtain ⟨hc, hw, rfl, i, r, d, rfl, hn, hodd, rfl, hi⟩ := h
  refine ⟨hc, hw, fun r' d' hn' hodd' => ?_⟩
  obtain ⟨rfl, rfl⟩ := Reference.decomposition_unique hodd hodd' (Nat.succ_injective (hn.trans hn'.symm))
  exact ⟨rfl, hi⟩

/-- `MRTEST`'s end, with the candidate in `mn` (R141, R143): if the candidate is prime, the ending round has passed
(R146). -/
theorem completes_publishes_mrtest (hW : Config.Admissible W) {s : State.At W} {r0 : Word W} {r1 r2 : Option (Word W)}
    (hmn : s.work.mn = s.opm) (h : Completes .mrtest s r0 r1 r2) (w : Working W) :
    Publishes .mrtest s (complete r0 r1 r2 { s with work := w }) := by
  obtain ⟨hc, hk, rfl, ⟨-, h3, rfl, rfl⟩ | ⟨-, ⟨⟨hn, -⟩, hodd⟩, hw, hj, j, rfl, hjn, hv⟩⟩ := h
  · exact ⟨hc, hk, by rw [if_pos h3]; exact ⟨rfl, rfl⟩⟩
  have h3 : s.opm ≠ 3 := fun e => by
    obtain ⟨h2, hle⟩ := hw
    rw [e, word_three_toNat hW] at hle
    omega
  rw [hmn] at hn
  have hone := word_one_ne_zero hW
  refine ⟨hc, hk, ?_⟩
  rw [if_neg h3]
  refine ⟨hw, fun r d hn' hodd' => ?_, hjn, le_of_eq_of_le hjn hj, fun h1 => ?_, fun h0 hp => ?_⟩
  · obtain ⟨rfl, rfl⟩ := Reference.decomposition_unique hodd hodd' (Nat.succ_injective (hn.trans hn'.symm))
    obtain ⟨rfl, hv⟩ | ⟨rfl, -, hv⟩ := hv <;> simp [hv]
  · obtain ⟨rfl, -⟩ | ⟨-, hjk, -⟩ := hv
    · exact absurd h1.symm hone
    · exact hjk
  · obtain ⟨-, hv⟩ | ⟨rfl, -⟩ := hv
    · rw [Reference.mrRound_of_prime hp hw hn hodd] at hv
      exact absurd hv (by decide)
    · exact absurd h0 hone

/-- For every command, a normal completion publishes the result of its rule on the operand registers. -/
theorem completes_publishes (hW : Config.Admissible W) {i : Instr} {s : State.At W} {r0 : Word W}
    {r1 r2 : Option (Word W)} (hr : s.Running i) (h : Completes i s r0 r1 r2) (w : Working W) :
    Publishes i s (complete r0 r1 r2 { s with work := w }) := by
  cases i with
  | gcd =>
    obtain ⟨rfl, -⟩ := h
    exact word_gcd_toNat _ _
  | xgcd =>
    obtain ⟨rfl, rfl, rfl⟩ := h
    obtain ⟨hx, hy⟩ := sval_tc_xgcd hW s.opa s.opb
    have hg := word_gcd_toNat s.opa s.opb
    rw [← (xgcd_spec _ _).1] at hg
    exact Prod.ext hg (Prod.ext hx hy)
  | mulmod =>
    obtain ⟨hm, rfl, -⟩ := h
    exact ⟨hm, word_residue_toNat hm _⟩
  | powmod =>
    obtain ⟨hm, rfl, -⟩ := h
    exact ⟨hm, word_residue_toNat hm _⟩
  | factor =>
    obtain ⟨-, ⟨d, rfl, hn, hodd⟩, -⟩ := h
    exact ⟨hn, hodd⟩
  | mrround => exact completes_publishes_mrround h w
  | mrtest => exact completes_publishes_mrtest hW hr.1 h w

/-- A controller step that ends the command normally publishes its result. -/
theorem Iteration.publishes (hW : Config.Admissible W) {i : Instr} {s t : State.At W} (hr : s.Running i)
    (hp : s.status.phase = some .run) (hi : Iteration i s (.next t)) (hd : t.status.phase = some .done)
    (he : t.status.err = false) : Publishes i s t := by
  obtain ⟨hb, -, -⟩ := (phase_run_iff _).1 hp
  obtain ⟨hb', -, -⟩ := (phase_done_iff _).1 hd
  have not_free : s.status.busy ≠ false := by simp [hb]
  cases hi with
  | go w g _ _ _ => exact absurd hb' not_free
  | ask _ _ => exact absurd hb' not_free
  | err e _ _ => exact absurd he (by simp)
  | fin w r0 r1 r2 hc => exact completes_publishes hW hr hc w

/-- Only a turn of the controller ends a running command: no access of another agent does, and a reset leaves no `DONE`
(R38, R57). -/
theorem controllerStep_of_run_to_done (hW : Config.Admissible W) {s t : State.At W} (hs : stepAt s = .next t)
    (hp : s.status.phase = some .run) (hd : t.status.phase = some .done) : controllerStep (eventTaken s) = .next t := by
  obtain ⟨hb, -, -⟩ := (phase_run_iff _).1 hp
  obtain ⟨hb', hd', -⟩ := (phase_done_iff _).1 hd
  have not_free : s.status.busy ≠ false := by simp [hb]
  cases step_cases hW hs with
  | turn _ _ _ hc => exact hc
  | read _ _ _ => exact absurd hb' not_free
  | drop _ => exact absurd hb' not_free
  | none _ => exact absurd hb' not_free
  | accept _ _ _ _ _ hf _ _ => exact absurd hf not_free
  | illegal _ _ _ hf _ => exact absurd hf not_free
  | opa _ _ hf => exact absurd hf not_free
  | opb _ _ hf => exact absurd hf not_free
  | opm _ _ hf => exact absurd hf not_free
  | rounds _ _ hf => exact absurd hf not_free
  | witness _ _ _ => exact absurd hb' not_free
  | reset _ => exact absurd hd' (by simp [Status.reset])

/-- At every width, the step that ends a command normally publishes its rule's result, whatever the other agents did. -/
theorem completion_publishes (hW : Config.Admissible W) {s t : State.At W} (h : s.Inv) (hp : s.status.phase = some .run)
    (hs : stepAt s = .next t) (hd : t.status.phase = some .done) (he : t.status.err = false) :
    ∃ i, decodeOpcode s.status.opc = some i ∧ Publishes i s t := by
  obtain ⟨i, ho, hr⟩ := h.eventTaken.running hp
  have hi := controllerStep_iteration hW (s := eventTaken s) hp ho hr
  rw [controllerStep_of_run_to_done hW hs hp hd] at hi
  exact ⟨i, (decodeOpcode_eq_some_iff _ _).2 ho, hi.publishes (s := eventTaken s) hW hr hp hd he⟩

/-! ### A running command comes to its end or asks (R224) -/

/-- One more turn in front of a run of the controller. -/
theorem Reaches.of_step {s t u : State.At W} (hs : controllerStep s = .next t) (h : Reaches t u) : Reaches s u := by
  obtain ⟨n, hn⟩ := h
  exact ⟨n + 1, by rw [controllerRun_succ hs, hn]⟩

/-- The controller, left alone, comes to rest: every step that goes on leaves less to do. -/
theorem reaches_done_or_waitw (hW : Config.Admissible W) {i : Instr} (k : Nat) : ∀ {s : State.At W}, remaining i s = k →
    s.status.phase = some .run → s.status.opc = i.opcode → s.Running i →
      ∃ t, Reaches s t ∧ (t.status.phase = some .done ∨ t.status.phase = some .waitw) := by
  induction k using Nat.strong_induction_on with
  | _ k ih =>
    rintro s rfl hp ho hr
    have hi := controllerStep_iteration hW hp ho hr
    generalize hx : controllerStep s = x at hi
    cases hi with
    | go w g hr' hlt _ =>
      obtain ⟨t, ht, hphase⟩ := ih _ hlt (s := { s with work := w, stage := g }) rfl hp ho hr'
      exact ⟨t, ht.of_step hx, hphase⟩
    | ask _ _ =>
      obtain ⟨hb, hd, -⟩ := (phase_run_iff _).1 hp
      exact ⟨_, Reaches.of_step hx ⟨0, rfl⟩, .inr ((phase_waitw_iff _).2 ⟨hb, hd, rfl⟩)⟩
    | err e _ _ => exact ⟨_, Reaches.of_step hx ⟨0, rfl⟩, .inl rfl⟩
    | fin w r0 r1 r2 _ => exact ⟨_, Reaches.of_step hx ⟨0, rfl⟩, .inl rfl⟩

/-- Settles O59: a completion is a controller step from a point of the command's rule, and the work left falls until there
is one. -/
theorem everyCompletionIsRightAtEveryWidth : Obligations.EveryCompletionIsRightAtEveryWidth := by
  intro W hW s h hp
  obtain ⟨i, ho, hr⟩ := h.running hp
  exact ⟨fun _ hs hd he => completion_publishes hW h hp hs hd he, reaches_done_or_waitw hW _ rfl hp ho hr⟩

end Sys2Proof.Machine

namespace Sys2Proof.Machine

variable {W : Nat}

/-! ### The invariant and the flags at the reference width (R30, R31, R34) -/

/-- Settles O46: the invariant as a step lemma, at the reference width. -/
theorem stepKeepsTheInvariant : Obligations.StepKeepsTheInvariant :=
  fun _ _ => stepAt_keeps_inv admissible_reference

/-- Settles O40: every step of every agent keeps the laws of the flags. -/
theorem stepKeepsFlagsLegal : Obligations.StepKeepsFlagsLegal :=
  fun _ _ => stepAt_keeps_legal admissible_reference

/-- Settles O49: a completion is a controller step from a point of the command's rule. -/
theorem everyCompletionIsRight : Obligations.EveryCompletionIsRight :=
  fun _ _ h hs hp => completion_publishes admissible_reference h hp hs

/-- Settles O45: at reset no command runs, so the invariant is about the flags alone. -/
theorem resetMeetsTheInvariant : Obligations.ResetMeetsTheInvariant :=
  have h : ∀ W, (State.At.reset W).Inv := fun _ => inv_of_not_busy Status.reset_legal rfl rfl
  ⟨h Config.W, h⟩

/-- Settles O17: the `STATUS` word is 0 at reset, and so is every other register. -/
theorem resetClearsEverySlot : Obligations.ResetClearsEverySlot := by
  refine ⟨fun r => ?_, rfl⟩
  cases r with
  | status => exact (readValue_status _).trans (by decide)
  | _ => rfl

/-- Settles O11: the arm of `regWrite` for a register no agent can write answers the same state. -/
theorem readOnlyWritesChangeNothing : Obligations.ReadOnlyWritesChangeNothing := by
  rintro s v r (rfl | rfl | rfl | rfl | ⟨k, rfl⟩) <;> rfl

/-! ### What a step leaves unchanged (R21, R25 to R27, R32, R73) -/

/-- The frame of the controller: a turn changes no operand register, neither `HZD` nor `OPC`, and nothing of the
agents'. -/
theorem Turn.frame {s t : State.At W} (h : Turn s t) :
    t.opa = s.opa ∧ t.opb = s.opb ∧ t.opm = s.opm ∧ t.rounds = s.rounds ∧ t.status.hzd = s.status.hzd ∧
      t.status.opc = s.status.opc ∧ t.schedule = s.schedule ∧ t.reads = s.reads ∧ t.draws = s.draws := by
  cases h <;> exact ⟨rfl, rfl, rfl, rfl, rfl, rfl, rfl, rfl, rfl⟩

/-- A turn of the controller changes `RES1` only for the commands that name it, and `RES2` only for `XGCD` (R26, R27). -/
theorem Turn.unnamed_results {s t : State.At W} (h : Turn s t) :
    (t.res1 ≠ s.res1 →
      s.status.opc ∈ [Instr.xgcd.opcode, Instr.factor.opcode, Instr.mrround.opcode, Instr.mrtest.opcode]) ∧
    (t.res2 ≠ s.res2 → s.status.opc = Instr.xgcd.opcode) := by
  cases h with
  | rest _ => exact ⟨absurd rfl, absurd rfl⟩
  | work _ _ _ => exact ⟨absurd rfl, absurd rfl⟩
  | ask _ _ => exact ⟨absurd rfl, absurd rfl⟩
  | error _ _ => exact ⟨absurd rfl, absurd rfl⟩
  | complete w r0 r1 r2 _ h1 h2 =>
    refine ⟨fun hne => h1 ?_, fun hne => h2 ?_⟩
    · rintro rfl
      exact hne rfl
    · rintro rfl
      exact hne rfl

/-- Settles O43: the frame of a turn, and the result registers it can change. -/
theorem unnamedResultsKeepTheirValue : Obligations.UnnamedResultsKeepTheirValue := by
  intro s t hs
  have ht := controllerStep_turn hs
  obtain ⟨hopa, hopb, hopm, hrounds, hhzd, hopc, hsched, hreads, hdraws⟩ := ht.frame
  exact ⟨hopa, hopb, hopm, hrounds, hhzd, hopc, hsched, hreads, hdraws, ht.unnamed_results⟩

/-- A turn of the controller changes a result register only by completing the running command (R33). -/
theorem Turn.results {s t : State.At W} (h : Turn s t) (hne : t.res0 ≠ s.res0 ∨ t.res1 ≠ s.res1 ∨ t.res2 ≠ s.res2) :
    s.status.phase = some .run ∧ t.status = s.status.completed := by
  have same : ¬ (s.res0 ≠ s.res0 ∨ s.res1 ≠ s.res1 ∨ s.res2 ≠ s.res2) := by simp
  cases h with
  | rest _ => exact absurd hne same
  | work _ _ _ => exact absurd hne same
  | ask _ _ => exact absurd hne same
  | error _ _ => exact absurd hne same
  | complete _ _ _ _ hp _ _ => exact ⟨hp, rfl⟩

/-- At every width, a step that is no reset changes a result register only by completing the running command. -/
theorem stepAt_results (hW : Config.Admissible W) {s t : State.At W} (hs : stepAt s = .next t)
    (hr : s.resetNext = false) (hne : t.res0 ≠ s.res0 ∨ t.res1 ≠ s.res1 ∨ t.res2 ≠ s.res2) :
    s.status.phase = some .run ∧ t.status = s.status.completed := by
  have same : ¬ (s.res0 ≠ s.res0 ∨ s.res1 ≠ s.res1 ∨ s.res2 ≠ s.res2) := by simp
  cases step_cases hW hs with
  | turn _ ht _ _ => exact Turn.results (s := eventTaken s) ht hne
  | read _ _ _ => exact absurd hne same
  | drop _ => exact absurd hne same
  | none _ => exact absurd hne same
  | accept _ _ _ _ _ _ _ _ => exact absurd hne same
  | illegal _ _ _ _ _ => exact absurd hne same
  | opa _ _ _ => exact absurd hne same
  | opb _ _ _ => exact absurd hne same
  | opm _ _ _ => exact absurd hne same
  | rounds _ _ _ => exact absurd hne same
  | witness _ _ _ => exact absurd hne same
  | reset hr' => simp [hr] at hr'

/-- Settles O42: the completion that publishes the results sets `DONE`, clears `BUSY` and leaves the error report. -/
theorem resultsArePublishedWithDone : Obligations.ResultsArePublishedWithDone := by
  intro s t hs hr hne
  obtain ⟨hp, ht⟩ := stepAt_results admissible_reference hs hr hne
  rw [ht]
  exact ⟨hp, rfl, rfl, rfl, rfl⟩

/-- Settles O37: a step keeps `HZD`, or sets it, unless it is a reset. -/
theorem hazardFlagIsSticky : Obligations.HazardFlagIsSticky := by
  intro s t hs hz hr
  cases step_cases admissible_reference hs with
  | turn _ ht _ _ =>
    obtain ⟨-, -, -, -, hhzd, -⟩ := ht.frame
    exact hhzd.trans hz
  | drop _ => rfl
  | reset hr' => simp [hr] at hr'
  | read _ _ _ => exact hz
  | none _ => exact hz
  | accept _ _ _ _ _ _ _ _ => exact hz
  | illegal _ _ _ _ _ => exact hz
  | opa _ _ _ => exact hz
  | opb _ _ _ => exact hz
  | opm _ _ _ => exact hz
  | rounds _ _ _ => exact hz
  | witness _ _ _ => exact hz

/-! ### Operand registers (R21, R60) -/

/-- What a read of an operand register returns (R55). -/
theorem readValue_operands (s : State.At W) :
    readValue .opa s = s.opa ∧ readValue .opb s = s.opb ∧ readValue .opm s = s.opm ∧ readValue .rounds s = s.rounds := by
  simp [readValue, readIsFree]

/-- A step that is no reset leaves the operand registers as they are, or is a write to one of them while no command runs,
which takes the written value. -/
theorem stepAt_operands (hW : Config.Admissible W) {s t : State.At W} (hs : stepAt s = .next t)
    (hr : s.resetNext = false) :
    (t.opa = s.opa ∨ ∃ v, s.NextWrites .opa v ∧ s.status.busy = false ∧ t.opa = v) ∧
    (t.opb = s.opb ∨ ∃ v, s.NextWrites .opb v ∧ s.status.busy = false ∧ t.opb = v) ∧
    (t.opm = s.opm ∨ ∃ v, s.NextWrites .opm v ∧ s.status.busy = false ∧ t.opm = v) ∧
    (t.rounds = s.rounds ∨ ∃ v, s.NextWrites .rounds v ∧ s.status.busy = false ∧ t.rounds = v) := by
  cases step_cases hW hs with
  | turn _ ht _ _ =>
    obtain ⟨hopa, hopb, hopm, hrounds, -⟩ := ht.frame
    exact ⟨.inl hopa, .inl hopb, .inl hopm, .inl hrounds⟩
  | opa v hn hb => exact ⟨.inr ⟨v, hn, hb, rfl⟩, .inl rfl, .inl rfl, .inl rfl⟩
  | opb v hn hb => exact ⟨.inl rfl, .inr ⟨v, hn, hb, rfl⟩, .inl rfl, .inl rfl⟩
  | opm v hn hb => exact ⟨.inl rfl, .inl rfl, .inr ⟨v, hn, hb, rfl⟩, .inl rfl⟩
  | rounds v hn hb => exact ⟨.inl rfl, .inl rfl, .inl rfl, .inr ⟨v, hn, hb, rfl⟩⟩
  | reset hr' => simp [hr] at hr'
  | read _ _ _ => exact ⟨.inl rfl, .inl rfl, .inl rfl, .inl rfl⟩
  | drop _ => exact ⟨.inl rfl, .inl rfl, .inl rfl, .inl rfl⟩
  | none _ => exact ⟨.inl rfl, .inl rfl, .inl rfl, .inl rfl⟩
  | accept _ _ _ _ _ _ _ _ => exact ⟨.inl rfl, .inl rfl, .inl rfl, .inl rfl⟩
  | illegal _ _ _ _ _ => exact ⟨.inl rfl, .inl rfl, .inl rfl, .inl rfl⟩
  | witness _ _ _ => exact ⟨.inl rfl, .inl rfl, .inl rfl, .inl rfl⟩

/-- Settles O41: each operand register keeps its value or is written. -/
theorem operandsChangeOnlyByTheirWrite : Obligations.OperandsChangeOnlyByTheirWrite := by
  intro s t hs hr r hop hne
  obtain ⟨hopa, hopb, hopm, hrounds⟩ := stepAt_operands admissible_reference hs hr
  obtain ⟨sa, sb, sm, sk⟩ := readValue_operands s
  obtain ⟨ta, tb, tm, tk⟩ := readValue_operands t
  have conclude : ∀ {x y : Word}, readValue r t = x → readValue r s = y →
      (x = y ∨ ∃ v, s.NextWrites r v ∧ s.status.busy = false ∧ x = v) →
      ∃ who v rest, s.schedule = .write who r.offset Config.slotBytes v :: rest ∧ s.status.busy = false ∧
        readValue r t = v := by
    rintro x y rfl rfl (h | ⟨v, ⟨who, rest, hn⟩, hb, hv⟩)
    · exact absurd h hne
    · exact ⟨who, v, rest, hn, hb, hv⟩
  rcases hop with rfl | rfl | rfl | rfl
  · exact conclude ta sa hopa
  · exact conclude tb sb hopb
  · exact conclude tm sm hopm
  · exact conclude tk sk hrounds

/-! ### The phases (R38) -/

/-- Legal flags are a phase of R38. -/
theorem Status.Legal.phase_exists {f : Status} (h : f.Legal) : ∃ p, f.phase = some p := by
  cases hb : f.busy with
  | true =>
    have hd := h.busy_not_done hb
    cases hw : f.wreq with
    | true => exact ⟨.waitw, (phase_waitw_iff f).2 ⟨hb, hd, hw⟩⟩
    | false => exact ⟨.run, (phase_run_iff f).2 ⟨hb, hd, hw⟩⟩
  | false =>
    have hw := h.wreq_of_not_busy hb
    cases hd : f.done with
    | true => exact ⟨.done, (phase_done_iff f).2 ⟨hb, hd, hw⟩⟩
    | false => exact ⟨.idle, (phase_idle_iff f).2 ⟨hb, hd, hw⟩⟩

/-- When no command runs, the phase is IDLE or DONE. -/
theorem phase_of_not_busy {f : Status} {p : Phase} (hp : f.phase = some p) (hb : f.busy = false) :
    p = .idle ∨ p = .done := by
  cases p with
  | idle => exact .inl rfl
  | done => exact .inr rfl
  | run => simp [(phase_run_iff f).1 hp] at hb
  | waitw => simp [(phase_waitw_iff f).1 hp] at hb

/-- The phase of a command that has just been accepted (R72). -/
theorem Status.Legal.phase_accepted {f : Status} (h : f.Legal) (hb : f.busy = false) (op : BitVec 8) :
    (f.accepted op).started.phase = some .run :=
  (phase_run_iff _).2 ⟨rfl, rfl, h.wreq_of_not_busy hb⟩

/-- A turn of the controller keeps the phase or makes one of the two transitions of the running controller. -/
theorem Turn.phase {s t : State.At W} (h : Turn s t) :
    t.status.phase = s.status.phase ∨
    (s.status.phase = some .run ∧ (t.status.phase = some .done ∨
      (t.status.phase = some .waitw ∧ s.status.opc = Instr.mrtest.opcode))) := by
  cases h with
  | rest _ => exact .inl rfl
  | work _ _ _ => exact .inl rfl
  | ask hp ho =>
    obtain ⟨hb, hd, -⟩ := (phase_run_iff _).1 hp
    exact .inr ⟨hp, .inr ⟨(phase_waitw_iff _).2 ⟨hb, hd, rfl⟩, ho⟩⟩
  | error _ hp => exact .inr ⟨hp, .inl rfl⟩
  | complete _ _ _ _ hp _ _ => exact .inr ⟨hp, .inl rfl⟩

/-- A step that is no reset keeps the phase or makes one of R38's transitions. -/
theorem stepAt_phaseMoves (hW : Config.Admissible W) {s t : State.At W} {p q : Phase} (hl : s.status.Legal)
    (hs : stepAt s = .next t) (hr : s.resetNext = false) (hp : s.status.phase = some p)
    (hq : t.status.phase = some q) : p = q ∨ PhaseMoves s p q := by
  have keeps : t.status.phase = s.status.phase → p = q ∨ PhaseMoves s p q := fun h =>
    .inl (Option.some.inj (hp.symm.trans (h.symm.trans hq)))
  cases step_cases hW hs with
  | turn _ ht hc _ =>
    obtain h | ⟨hrun, hdone | ⟨hwait, ho⟩⟩ := ht.phase
    · exact keeps h
    · obtain rfl := Option.some.inj (hp.symm.trans hrun)
      obtain rfl := Option.some.inj (hq.symm.trans hdone)
      exact .inr (.ended hc)
    · obtain rfl := Option.some.inj (hp.symm.trans hrun)
      obtain rfl := Option.some.inj (hq.symm.trans hwait)
      exact .inr (.asks hc ho)
  | accept c i _ hn hi hb hf _ =>
    obtain rfl := Option.some.inj (hq.symm.trans (hl.phase_accepted hb _))
    exact .inr (.accepted p c (phase_of_not_busy hp hb) hf hn (by rw [hi]; rfl))
  | illegal c hn hi hb hf =>
    obtain rfl : q = .done := Option.some.inj (hq.symm.trans rfl)
    exact .inr (.illegal p c (phase_of_not_busy hp hb) hf hn hi)
  | witness a hn hw =>
    obtain ⟨hb, -⟩ := hl.wreq_mrtest hw
    have hd := hl.busy_not_done hb
    obtain rfl := Option.some.inj (hp.symm.trans ((phase_waitw_iff _).2 ⟨hb, hd, hw⟩))
    obtain rfl := Option.some.inj (hq.symm.trans ((phase_run_iff _).2 ⟨hb, hd, rfl⟩))
    exact .inr (.witnessTaken a hn)
  | reset hr' => simp [hr] at hr'
  | read _ _ _ => exact keeps rfl
  | drop _ => exact keeps rfl
  | none _ => exact keeps rfl
  | opa _ _ _ => exact keeps rfl
  | opb _ _ _ => exact keeps rfl
  | opm _ _ _ => exact keeps rfl
  | rounds _ _ _ => exact keeps rfl

/-- A reset that comes next resets the block (R210). -/
theorem stepAt_of_resetNext {s : State.At W} (hr : s.resetNext = true) :
    stepAt s = .next (resetBlock (eventTaken s)) := by
  obtain ⟨rest, hs⟩ := List.head?_eq_some_iff.1 (beq_iff_eq.1 hr)
  simp [stepAt, hs, perform, eventTaken]

/-- Settles O39: the phase after a reset is IDLE, and any other step keeps it or makes one of R38's transitions. -/
theorem phaseTransitionsAreR38s : Obligations.PhaseTransitionsAreR38s := by
  intro s t hl hs
  obtain ⟨p, hp⟩ := hl.phase_exists
  obtain ⟨q, hq⟩ := (stepAt_keeps_legal admissible_reference hl hs).phase_exists
  refine ⟨p, q, hp, hq, fun hr => ?_, fun hr hne => ?_⟩
  · obtain rfl := Host.Outcome.next.inj ((stepAt_of_resetNext hr).symm.trans hs)
    exact (Option.some.inj hq).symm
  · exact (stepAt_phaseMoves admissible_reference hl hs hr hp hq).resolve_left hne

/-! ### The `STATUS` word (R29) -/

/-- The one-bit fields of `STATUS` are at their bits of the word. -/
theorem Status.word_bits (hW : Config.Admissible W) (f : Status) :
    (f.word W).getLsbD 0 = f.busy ∧ (f.word W).getLsbD 1 = f.done ∧ (f.word W).getLsbD 2 = f.err ∧
      (f.word W).getLsbD 3 = f.wreq ∧ (f.word W).getLsbD 4 = f.hzd ∧ (f.word W).getLsbD 5 = f.fatal := by
  obtain ⟨hdone, herr, hwreq, -⟩ := Status.word_polled hW f
  obtain ⟨h32, -⟩ := hW
  refine ⟨?_, hdone, herr, hwreq, ?_, ?_⟩ <;> simp only [Status.word, BitVec.getLsbD_setWidth, BitVec.getLsbD_append]
  · simp [show 0 < W by omega]
  · simp [show 4 < W by omega]
  · simp [show 5 < W by omega]

/-- The wider fields of `STATUS` and its reserved ranges are cut out of the word. -/
theorem Status.word_fields (hW : Config.Admissible W) (f : Status) :
    (f.word W).extractLsb' 6 2 = 0 ∧ (f.word W).extractLsb' 8 4 = f.errcode ∧ (f.word W).extractLsb' 12 4 = 0 ∧
      (f.word W).extractLsb' 16 8 = f.opc ∧ (f.word W).extractLsb' 24 (W - 24) = 0 := by
  obtain ⟨h32, -⟩ := hW
  refine ⟨?_, ?_, ?_, ?_, ?_⟩ <;>
    rw [Status.word, BitVec.extractLsb'_setWidth_of_le (by omega)] <;>
    simp [BitVec.extractLsb'_append_eq_of_le, BitVec.extractLsb'_append_eq_right]

/-- Settles O12: every field and every reserved range of R29 in turn. -/
theorem statusWordLayout : Obligations.StatusWordLayout := by
  intro f
  obtain ⟨hbusy, hdone, herr, hwreq, hhzd, hfatal⟩ := Status.word_bits admissible_reference f
  exact ⟨hbusy, hdone, herr, hwreq, hhzd, hfatal, Status.word_fields admissible_reference f⟩

end Sys2Proof.Machine

namespace Sys2Proof.Machine

variable {W : Nat}

/-! ### `HZD` affects no command (R32) -/

/-- The block with another value of `HZD`. -/
def withHazardFlag (b : Bool) (s : State.At W) : State.At W :=
  { s with status := { s.status with hzd := b } }

@[simp] theorem withHazardFlag_stage (b : Bool) (s : State.At W) : (withHazardFlag b s).stage = s.stage := rfl

@[simp] theorem withHazardFlag_opc (b : Bool) (s : State.At W) : (withHazardFlag b s).status.opc = s.status.opc := rfl

@[simp] theorem withHazardFlag_schedule (b : Bool) (s : State.At W) : (withHazardFlag b s).schedule = s.schedule := rfl

/-- The outcome of a step with another value of `HZD`. -/
def resultWithHazardFlag (b : Bool) : Result W → Result W
  | .next t => .next (withHazardFlag b t)
  | .fault f => .fault f
  | .refused r => .refused r

/-- A test that does not look at `HZD` comes out the same, so its value is changed as its branches are. -/
theorem ite_eq_of_branches {α : Type} {f : α → α} {p q : Prop} [Decidable p] [Decidable q] {x y x' y' : α}
    (hx : x' = f x) (hy : y' = f y) (h : p ↔ q := by exact Iff.rfl) :
    (if p then x' else y') = f (if q then x else y) := by
  rw [hx, hy, ← apply_ite f]
  simp only [h]

/-- The loop of R131 does the same with another `HZD`, if the command's line after it does. -/
theorem iterDecompose_withHazardFlag {b : Bool} {finish : State.At W → State.At W} {s : State.At W}
    (hf : finish (withHazardFlag b s) = withHazardFlag b (finish s)) :
    iterDecompose finish (withHazardFlag b s) = withHazardFlag b (iterDecompose finish s) :=
  ite_eq_of_branches (ite_eq_of_branches rfl rfl) hf

/-- So does the exponentiation of a round (R134). -/
theorem iterRoundPower_withHazardFlag {b : Bool} {finish : Bool → State.At W → State.At W}
    (hf : ∀ v s, finish v (withHazardFlag b s) = withHazardFlag b (finish v s)) (s : State.At W) :
    iterRoundPower finish (withHazardFlag b s) = withHazardFlag b (iterRoundPower finish s) :=
  have hend := hf true { s with work := { s.work with mx := s.work.acc, mi := 0 } }
  ite_eq_of_branches (ite_eq_of_branches hend rfl) rfl

/-- So does the squaring loop of a round (R134). -/
theorem iterRoundSquare_withHazardFlag {b : Bool} {finish : Bool → State.At W → State.At W}
    (hf : ∀ v s, finish v (withHazardFlag b s) = withHazardFlag b (finish v s)) (s : State.At W) :
    iterRoundSquare finish (withHazardFlag b s) = withHazardFlag b (iterRoundSquare finish s) :=
  have hend := hf true { s with work := squarePass s.work }
  ite_eq_of_branches (ite_eq_of_branches hend rfl) (hf false s)

theorem finishMrround_withHazardFlag (b v : Bool) (s : State.At W) :
    finishMrround v (withHazardFlag b s) = withHazardFlag b (finishMrround v s) := rfl

/-- So do the lines of R141 after a round. -/
theorem finishMrtestRound_withHazardFlag (b v : Bool) (s : State.At W) :
    finishMrtestRound v (withHazardFlag b s) = withHazardFlag b (finishMrtestRound v s) :=
  ite_eq_of_branches rfl (ite_eq_of_branches rfl rfl)

/-! The controller step of each command: in every stage its tests look at the working registers alone. -/

theorem iterGcd_withHazardFlag (b : Bool) (s : State.At W) :
    iterGcd (withHazardFlag b s) = resultWithHazardFlag b (iterGcd s) := by
  simp only [iterGcd, withHazardFlag_stage]
  split
  · rfl
  · exact ite_eq_of_branches rfl rfl
  all_goals rfl

theorem iterXgcd_withHazardFlag (b : Bool) (s : State.At W) :
    iterXgcd (withHazardFlag b s) = resultWithHazardFlag b (iterXgcd s) := by
  simp only [iterXgcd, withHazardFlag_stage]
  split
  · rfl
  · exact ite_eq_of_branches rfl rfl
  all_goals rfl

theorem iterMulmod_withHazardFlag (b : Bool) (s : State.At W) :
    iterMulmod (withHazardFlag b s) = resultWithHazardFlag b (iterMulmod s) := by
  simp only [iterMulmod, withHazardFlag_stage]
  split
  · exact ite_eq_of_branches rfl rfl
  all_goals rfl

theorem iterPowmod_withHazardFlag (b : Bool) (s : State.At W) :
    iterPowmod (withHazardFlag b s) = resultWithHazardFlag b (iterPowmod s) := by
  simp only [iterPowmod, withHazardFlag_stage]
  split
  · exact ite_eq_of_branches rfl rfl
  · exact ite_eq_of_branches rfl rfl
  all_goals rfl

theorem iterFactor_withHazardFlag (b : Bool) (s : State.At W) :
    iterFactor (withHazardFlag b s) = resultWithHazardFlag b (iterFactor s) := by
  simp only [iterFactor, withHazardFlag_stage]
  split
  · exact ite_eq_of_branches rfl rfl
  · exact congrArg _ (iterDecompose_withHazardFlag rfl)
  all_goals rfl

theorem iterMrround_withHazardFlag (b : Bool) (s : State.At W) :
    iterMrround (withHazardFlag b s) = resultWithHazardFlag b (iterMrround s) := by
  simp only [iterMrround, withHazardFlag_stage]
  split
  · exact ite_eq_of_branches rfl (ite_eq_of_branches rfl rfl)
  · exact congrArg _ (iterDecompose_withHazardFlag rfl)
  · exact congrArg _ (iterRoundPower_withHazardFlag (finishMrround_withHazardFlag b) s)
  · exact congrArg _ (iterRoundSquare_withHazardFlag (finishMrround_withHazardFlag b) s)
  all_goals rfl

theorem iterMrtest_withHazardFlag (b : Bool) (s : State.At W) :
    iterMrtest (withHazardFlag b s) = resultWithHazardFlag b (iterMrtest s) := by
  simp only [iterMrtest, withHazardFlag_stage]
  split
  · exact ite_eq_of_branches rfl (ite_eq_of_branches rfl (ite_eq_of_branches rfl rfl))
  · exact congrArg _ (iterDecompose_withHazardFlag rfl)
  · rfl
  · exact ite_eq_of_branches rfl rfl
  · exact congrArg _ (iterRoundPower_withHazardFlag (finishMrtestRound_withHazardFlag b) s)
  · exact congrArg _ (iterRoundSquare_withHazardFlag (finishMrtestRound_withHazardFlag b) s)
  · rfl

/-- One iteration of a command does the same with another `HZD`. -/
theorem iterate_withHazardFlag (b : Bool) (i : Instr) (s : State.At W) :
    iterate i (withHazardFlag b s) = resultWithHazardFlag b (iterate i s) := by
  cases i with
  | gcd => exact iterGcd_withHazardFlag b s
  | xgcd => exact iterXgcd_withHazardFlag b s
  | mulmod => exact iterMulmod_withHazardFlag b s
  | powmod => exact iterPowmod_withHazardFlag b s
  | factor => exact iterFactor_withHazardFlag b s
  | mrround => exact iterMrround_withHazardFlag b s
  | mrtest => exact iterMrtest_withHazardFlag b s

/-- A turn of the controller does the same with another `HZD`, and keeps it. -/
theorem controllerStep_withHazardFlag (b : Bool) (s : State.At W) :
    controllerStep (withHazardFlag b s) = resultWithHazardFlag b (controllerStep s) := by
  refine ite_eq_of_branches ?_ rfl
  rw [withHazardFlag_opc]
  split
  · exact iterate_withHazardFlag b _ s
  · rfl

/-- Two states that differ at most in `HZD` and in the `STATUS` words that reads have returned. -/
def HazardTwins (t u : State.At W) : Prop :=
  ∃ c rs, rs.map ReadBack.withoutStatus = t.reads.map ReadBack.withoutStatus ∧
    u = { t with status := { t.status with hzd := c }, reads := rs }

theorem hazardTwins_withHazardFlag (c : Bool) (t : State.At W) : HazardTwins t (withHazardFlag c t) :=
  ⟨c, t.reads, rfl, rfl⟩

/-- Every write is taken or dropped by a test that does not look at `HZD`. -/
theorem hazardTwins_ite {p : Prop} [Decidable p] {t t' u u' : State.At W} (h : HazardTwins t t') (h' : HazardTwins u u') :
    HazardTwins (if p then t else u) (if p then t' else u') := by
  split
  · exact h
  · exact h'

/-- A `CMD` write does the same with another `HZD`. -/
theorem commandWrite_withHazardFlag (b : Bool) (c : Word W) (s : State.At W) :
    ∃ t u, commandWrite c s = .next t ∧ commandWrite c (withHazardFlag b s) = .next u ∧ HazardTwins t u := by
  have dropped := hazardTwins_withHazardFlag true (dropWithHazard s)
  simp only [commandWrite]
  split
  · rename_i i _
    refine ⟨issue i.opcode (operandCopies i s) s, issue i.opcode (operandCopies i s) (withHazardFlag b s), ?_, ?_, ?_⟩
    · cases i <;> rfl
    · cases i <;> rfl
    · exact hazardTwins_ite dropped (hazardTwins_withHazardFlag b _)
  · exact ⟨_, _, rfl, rfl, hazardTwins_ite dropped (hazardTwins_withHazardFlag b _)⟩

/-- A write of any register does the same with another `HZD`. -/
theorem regWrite_withHazardFlag (b : Bool) (r : Reg) (v : Word W) (s : State.At W) :
    ∃ t u, regWrite r v s = .next t ∧ regWrite r v (withHazardFlag b s) = .next u ∧ HazardTwins t u := by
  have dropped := hazardTwins_withHazardFlag true (dropWithHazard s)
  have unchanged := hazardTwins_withHazardFlag b s
  cases r with
  | cmd => exact commandWrite_withHazardFlag b v s
  | opa => exact ⟨_, _, rfl, rfl, hazardTwins_ite dropped (hazardTwins_withHazardFlag b _)⟩
  | opb => exact ⟨_, _, rfl, rfl, hazardTwins_ite dropped (hazardTwins_withHazardFlag b _)⟩
  | opm => exact ⟨_, _, rfl, rfl, hazardTwins_ite dropped (hazardTwins_withHazardFlag b _)⟩
  | rounds => exact ⟨_, _, rfl, rfl, hazardTwins_ite dropped (hazardTwins_withHazardFlag b _)⟩
  | witness => exact ⟨_, _, rfl, rfl, hazardTwins_ite (hazardTwins_withHazardFlag b _) dropped⟩
  | status => exact ⟨s, _, rfl, rfl, unchanged⟩
  | res0 => exact ⟨s, _, rfl, rfl, unchanged⟩
  | res1 => exact ⟨s, _, rfl, rfl, unchanged⟩
  | res2 => exact ⟨s, _, rfl, rfl, unchanged⟩
  | reserved _ => exact ⟨s, _, rfl, rfl, unchanged⟩

/-- A read of another register than `STATUS` returns the same with another `HZD`. -/
theorem readValue_withHazardFlag (b : Bool) {r : Reg} (hr : r ≠ .status) (s : State.At W) :
    readValue r (withHazardFlag b s) = readValue r s := by
  cases r with
  | status => exact absurd rfl hr
  | _ => rfl

/-- A read does the same with another `HZD`, but for the value of a `STATUS` read. -/
theorem regRead_withHazardFlag (b : Bool) (who : Agent) (r : Reg) (s : State.At W) :
    HazardTwins (regRead who r s) (regRead who r (withHazardFlag b s)) := by
  refine ⟨b, ⟨who, r, readValue r (withHazardFlag b s)⟩ :: s.reads, ?_, rfl⟩
  by_cases hr : r = .status
  · simp [ReadBack.withoutStatus, hr]
  · rw [readValue_withHazardFlag b hr, regRead_reads]

/-- Every agent's step does the same with another `HZD`. -/
theorem perform_withHazardFlag (b : Bool) {e : Event W} {s t : State.At W} (h : perform e s = .next t) :
    ∃ u, perform e (withHazardFlag b s) = .next u ∧ HazardTwins t u := by
  cases e with
  | read who offset bytes =>
    simp only [perform] at h ⊢
    split at h
    · obtain rfl := Host.Outcome.next.inj h
      exact ⟨_, rfl, regRead_withHazardFlag b who _ s⟩
    · cases h
  | write who offset bytes v =>
    simp only [perform] at h ⊢
    split at h
    · rename_i r _
      obtain ⟨t', u, ht, hu, htu⟩ := regWrite_withHazardFlag b r v s
      obtain rfl := Host.Outcome.next.inj (ht.symm.trans h)
      exact ⟨u, hu, htu⟩
    · cases h
  | controller => exact ⟨_, (controllerStep_withHazardFlag b s).trans (congrArg _ h), hazardTwins_withHazardFlag b t⟩
  | reset =>
    obtain rfl := Host.Outcome.next.inj h
    exact ⟨_, rfl, hazardTwins_withHazardFlag false _⟩

/-- Settles O38: a step is the controller's turn or the next event's, and both do the same with another `HZD`. -/
theorem hazardFlagAffectsNothingElse : Obligations.HazardFlagAffectsNothingElse := by
  intro s t b hs
  have twin : ∃ u, stepAt (withHazardFlag b s) = .next u ∧ HazardTwins t u := by
    cases hsched : s.schedule with
    | nil =>
      simp only [step, stepAt, withHazardFlag_schedule, hsched] at hs ⊢
      exact perform_withHazardFlag b (e := .controller) hs
    | cons e rest =>
      simp only [step, stepAt, withHazardFlag_schedule, hsched] at hs ⊢
      exact perform_withHazardFlag b hs
  obtain ⟨u, hu, c, rs, hrs, rfl⟩ := twin
  exact ⟨c, rs, hrs, hu⟩

end Sys2Proof.Machine

namespace Sys2Proof.Machine

variable {W : Nat}

open Reference (CandidateOk WitnessOk mrRound)

/-! ### A command's end depends on its operands alone (R41) -/

/-- The stages at which command `i` stands as long as no witness has been delivered: `MRTEST` has begun no round (R141). -/
def Unwitnessed (i : Instr) (g : Stage) : Prop :=
  i = .mrtest → g = .entry ∨ g = .decompose ∨ g = .request

/-- `MRTEST` comes to a round only from a witness, so a step that goes on stays before the rounds. -/
theorem GoesOn.unwitnessed {i : Instr} {s t : State.At W} (h : GoesOn i s t) (hu : Unwitnessed i s.stage) :
    Unwitnessed i t.stage := by
  rintro rfl
  have hs := hu rfl
  obtain ⟨-, ht, -⟩ | ⟨-, ht⟩ | ⟨-, ht, -⟩ | ⟨hr, -⟩ | ⟨hr, -⟩ := h
  · exact .inr (.inl ht)
  · exact .inr (.inl ht)
  · exact .inr (.inr ht)
  · rcases hr with hr | hr | hr <;> simp [hr] at hs
  · rcases hr with hr | hr <;> simp [hr] at hs

/-- How a controller that is left alone can end command `i`, from a state `s` of it in which no witness has been
delivered: at a point that has the operands, results and flags of `s`. -/
inductive EndsUnwitnessed (i : Instr) (s : State.At W) : State.At W → Prop
  | err (w : Working W) (g : Stage) (e : ErrorCode) : Unwitnessed i g → Fails i { s with work := w, stage := g } e →
      EndsUnwitnessed i s (raiseError e { s with work := w, stage := g })
  | fin (w w' : Working W) (g : Stage) (r0 : Word W) (r1 r2 : Option (Word W)) : Unwitnessed i g →
      Completes i { s with work := w, stage := g } r0 r1 r2 →
      EndsUnwitnessed i s (complete r0 r1 r2 { s with work := w', stage := g })

/-- A step that goes on does not change the ends there are. -/
theorem EndsUnwitnessed.of_go {i : Instr} {s u : State.At W} {w : Working W} {g : Stage}
    (h : EndsUnwitnessed i { s with work := w, stage := g } u) : EndsUnwitnessed i s u := by
  cases h with
  | err w g e hg hf => exact .err w g e hg hf
  | fin w w' g r0 r1 r2 hg hc => exact .fin w w' g r0 r1 r2 hg hc

/-- The controller, left alone until `DONE`, ends the command in one of these ways. -/
theorem endsUnwitnessed_of_controllerRun (hW : Config.Admissible W) {i : Instr} {u : State.At W}
    (hd : u.status.phase = some .done) (n : Nat) : ∀ {s : State.At W}, controllerRun n s = .next u →
      s.status.phase = some .run → s.status.opc = i.opcode → s.Running i → Unwitnessed i s.stage →
        EndsUnwitnessed i s u := by
  induction n with
  | zero =>
    intro s hn hp
    obtain rfl := Host.Outcome.next.inj hn
    simp [hp] at hd
  | succ n ih =>
    intro s hn hp ho hr hu
    have hi := controllerStep_iteration hW hp ho hr
    generalize hx : controllerStep s = x at hi
    have rests : ∀ {t : State.At W}, x = .next t → t.status.phase ≠ some .run → u = t := by
      rintro t rfl ht
      rw [controllerRun_succ hx, controllerRun_rest ht] at hn
      exact (Host.Outcome.next.inj hn).symm
    cases hi with
    | go w g hr' _ hg =>
      rw [controllerRun_succ hx] at hn
      exact (ih hn hp ho hr' (hg.unwitnessed hu)).of_go
    | ask _ _ =>
      obtain ⟨hb, hnd, -⟩ := (phase_run_iff _).1 hp
      have hwait : s.status.witnessAsked.phase = some .waitw := (phase_waitw_iff _).2 ⟨hb, hnd, rfl⟩
      obtain rfl := rests rfl (by simp [hwait])
      simp [hwait] at hd
    | err e _ hf =>
      obtain rfl := rests rfl (by simp [Status.phase])
      exact .err s.work s.stage e hu hf
    | fin w r0 r1 r2 hc =>
      obtain rfl := rests rfl (by simp [Status.phase])
      exact .fin s.work w s.stage r0 r1 r2 hu hc

/-- What command `i` ends with before any witness, as a function of its operands: an error (R190), or the values it
publishes. `MRTEST` completes so only for the candidate 3 (R143). -/
def unwitnessedEnd (i : Instr) (a b m k : Word W) : Except ErrorCode (Word W × Option (Word W) × Option (Word W)) :=
  let (r, d) := Reference.decompose m.toNat
  match i with
  | .gcd => .ok (BitVec.ofNat W (Nat.gcd a.toNat b.toNat), none, none)
  | .xgcd =>
    let (g, x, y) := Reference.xgcd a.toNat b.toNat
    .ok (BitVec.ofNat W g, some (tc x), some (tc y))
  | .mulmod => if m = 0 then .error .argModulus else .ok (BitVec.ofNat W (a.toNat * b.toNat % m.toNat), none, none)
  | .powmod => if m = 0 then .error .argModulus else .ok (BitVec.ofNat W (a.toNat ^ b.toNat % m.toNat), none, none)
  | .factor => if m.toNat ≤ 1 then .error .argN else .ok (BitVec.ofNat W r, some (BitVec.ofNat W d), none)
  | .mrround =>
    if ¬ CandidateOk m.toNat then .error .argN
    else if ¬ WitnessOk m.toNat a.toNat then .error .argWitness
    else
      let (v, c) := mrRound m.toNat r d a.toNat
      .ok (verdictWord v, some (BitVec.ofNat W c), none)
  | .mrtest =>
    if ¬ CandidateOk m.toNat then .error .argN
    else if k = 0 then .error .argRounds
    else .ok (1, some 0, none)

/-- The error a command fails with before any witness is that of its operands. -/
theorem Fails.unwitnessedEnd {i : Instr} {s : State.At W} {e : ErrorCode} (hu : Unwitnessed i s.stage)
    (h : Fails i s e) : unwitnessedEnd i s.opa s.opb s.opm s.rounds = .error e := by
  cases i with
  | gcd => exact h.elim
  | xgcd => exact h.elim
  | mulmod =>
    obtain ⟨rfl, hm⟩ := h
    exact if_pos hm
  | powmod =>
    obtain ⟨rfl, hm⟩ := h
    exact if_pos hm
  | factor =>
    obtain ⟨rfl, hm⟩ := h
    exact if_pos hm
  | mrround =>
    obtain ⟨rfl, hn⟩ | ⟨rfl, hc, hw⟩ := h
    · exact if_pos hn
    · exact (if_neg (not_not.2 hc)).trans (if_pos hw)
  | mrtest =>
    obtain ⟨-, rfl, hn⟩ | ⟨-, rfl, hc, hk⟩ | ⟨hg, -⟩ := h
    · exact if_pos hn
    · exact (if_neg (not_not.2 hc)).trans (if_pos hk)
    · have := hu rfl
      simp [hg] at this

/-- A decomposition of `n - 1` is the one the loop of R131 finds. -/
theorem eq_decompose {n r d : Nat} (h : 2 ^ r * d + 1 = n) (hd : d % 2 = 1) : Reference.decompose n = (r, d) := by
  have hpos : 0 < 2 ^ r * d := Nat.mul_pos (by positivity) (by omega)
  obtain ⟨hn, hodd⟩ := Reference.decompose_spec n (by omega)
  obtain ⟨hr, hd'⟩ := Reference.decomposition_unique hodd hd (Nat.succ_injective (hn.trans h.symm))
  exact Prod.ext hr hd'

/-- The values a command publishes before any witness are those of its operands. -/
theorem Completes.unwitnessedEnd {i : Instr} {s : State.At W} {r0 : Word W} {r1 r2 : Option (Word W)}
    (hu : Unwitnessed i s.stage) (h : Completes i s r0 r1 r2) :
    unwitnessedEnd i s.opa s.opb s.opm s.rounds = .ok (r0, r1, r2) := by
  cases i with
  | gcd =>
    obtain ⟨rfl, rfl, rfl⟩ := h
    rfl
  | xgcd =>
    obtain ⟨rfl, rfl, rfl⟩ := h
    rfl
  | mulmod =>
    obtain ⟨hm, rfl, rfl, rfl⟩ := h
    exact if_neg hm
  | powmod =>
    obtain ⟨hm, rfl, rfl, rfl⟩ := h
    exact if_neg hm
  | factor =>
    obtain ⟨hm, ⟨d, rfl, hn, hodd⟩, rfl⟩ := h
    simp [Machine.unwitnessedEnd, eq_decompose hn hodd, show ¬ s.opm.toNat ≤ 1 by omega]
  | mrround =>
    obtain ⟨hc, hw, rfl, c, r, d, rfl, hn, hodd, rfl, hcount⟩ := h
    simp [Machine.unwitnessedEnd, eq_decompose hn hodd, hc, hw, ← hcount]
  | mrtest =>
    obtain ⟨hc, hk, rfl, ⟨-, -, rfl, rfl⟩ | ⟨hg, -⟩⟩ := h
    · exact (if_neg (not_not.2 hc)).trans (if_neg hk)
    · have := hu rfl
      rcases hg with hg | hg <;> simp [hg] at this

/-- The values a command ends with name the registers it writes (R26, R27). -/
theorem unwitnessedEnd_names {i : Instr} {a b m k r0 : Word W} {r1 r2 : Option (Word W)}
    (h : unwitnessedEnd i a b m k = .ok (r0, r1, r2)) :
    (i = .xgcd ∨ i = .factor ∨ i = .mrround ∨ i = .mrtest → ∃ v, r1 = some v) ∧ (i = .xgcd → ∃ v, r2 = some v) := by
  cases i <;> simp only [unwitnessedEnd] at h
  case gcd => cases h; simp
  case xgcd => cases h; simp
  all_goals
    split_ifs at h
    cases h
    simp

/-- The status and the results a command ends with before any witness. -/
theorem EndsUnwitnessed.values {i : Instr} {s u : State.At W} (h : EndsUnwitnessed i s u) :
    (∃ e, unwitnessedEnd i s.opa s.opb s.opm s.rounds = .error e ∧ u.status = s.status.failed e) ∨
    ∃ r0 r1 r2, unwitnessedEnd i s.opa s.opb s.opm s.rounds = .ok (r0, r1, r2) ∧ u.status = s.status.completed ∧
      u.res0 = r0 ∧ u.res1 = r1.getD s.res1 ∧ u.res2 = r2.getD s.res2 := by
  cases h with
  | err w g e hg hf => exact .inl ⟨e, hf.unwitnessedEnd (s := { s with work := w, stage := g }) hg, rfl⟩
  | fin w w' g r0 r1 r2 hg hc =>
    exact .inr ⟨r0, r1, r2, hc.unwitnessedEnd (s := { s with work := w, stage := g }) hg, rfl, rfl, rfl, rfl⟩

/-- A command accepted and left alone until `DONE` ends in one of these ways (R72). -/
theorem endsUnwitnessed_of_exec {i : Instr} {s t u : State} {n : Nat} (ha : s.Accepts) (he : exec i s = .next t)
    (hn : controllerRun n t = .next u) (hd : u.status.phase = some .done) : EndsUnwitnessed i (issuedBlock i s) u := by
  obtain ⟨hb, hw, hf⟩ := (accepts_iff s).1 ha
  obtain ⟨hexec, -⟩ := everyWidthRunsTheCommands
  rw [hexec, execAt_accept i s hb hf] at he
  obtain rfl : issuedBlock i s = t := Host.Outcome.next.inj he
  have hp : (issuedBlock i s).status.phase = some .run := (phase_run_iff _).2 ⟨rfl, rfl, hw⟩
  exact endsUnwitnessed_of_controllerRun admissible_reference hd n hn hp rfl (issuedBlock_running i hw)
    fun _ => .inl rfl

/-- Settles O50: what a command ends with before any witness is a function of its operands. -/
theorem endsDependOnOperandsOnly : Obligations.EndsDependOnOperandsOnly := by
  intro i s₁ s₂ t₁ t₂ u₁ u₂ n₁ n₂ ha₁ ha₂ hopa hopb hopm hrounds he₁ he₂ hn₁ hn₂ hd₁ hd₂
  have h₁ := (endsUnwitnessed_of_exec ha₁ he₁ hn₁ hd₁).values
  have h₂ := (endsUnwitnessed_of_exec ha₂ he₂ hn₂ hd₂).values
  have same : unwitnessedEnd i s₁.opa s₁.opb s₁.opm s₁.rounds = unwitnessedEnd i s₂.opa s₂.opb s₂.opm s₂.rounds := by
    rw [hopa, hopb, hopm, hrounds]
  obtain ⟨e, hend₁, hs₁⟩ | ⟨r0, r1, r2, hend₁, hs₁, rfl, hr1, hr2⟩ := h₁
  · obtain ⟨e', hend₂, hs₂⟩ | ⟨_, _, _, hend₂, -⟩ := h₂
    · obtain rfl := Except.error.inj (hend₁.symm.trans (same.trans hend₂))
      simp [hs₁, hs₂]
    · cases hend₁.symm.trans (same.trans hend₂)
  · obtain ⟨_, hend₂, -⟩ | ⟨_, _, _, hend₂, hs₂, rfl, hr1', hr2'⟩ := h₂
    · cases hend₁.symm.trans (same.trans hend₂)
    · have heq := Except.ok.inj (hend₁.symm.trans (same.trans hend₂))
      obtain ⟨hres0, rfl, rfl⟩ := by simpa only [Prod.mk.injEq] using heq
      obtain ⟨hnames1, hnames2⟩ := unwitnessedEnd_names hend₁
      refine ⟨by rw [hs₁, hs₂]; rfl, by rw [hs₁, hs₂]; rfl, fun _ => ⟨hres0, fun hi => ?_, fun hi => ?_⟩⟩
      · obtain ⟨v, rfl⟩ := hnames1 hi
        exact hr1.trans hr1'.symm
      · obtain ⟨v, rfl⟩ := hnames2 hi
        exact hr2.trans hr2'.symm

end Sys2Proof.Machine

namespace Sys2Proof.Machine

variable {W : Nat}

/-! ### A controller that does not run (R57, R199, R212) -/

/-- Settles O44: with nothing scheduled, or with its event next, the controller has the turn, and rests. -/
theorem idleBlockDoesNothing : Obligations.IdleBlockDoesNothing := by
  intro s hp
  refine ⟨controllerStep_rest hp, fun hs => ?_, fun rest hs => ?_⟩
  · rw [step, stepAt, hs]
    exact controllerStep_rest hp
  · rw [step, stepAt, hs]
    exact controllerStep_rest (s := { s with schedule := rest }) hp

/-! ### The bytes of a slot (R53) -/

/-- A byte of a slot is a base-256 digit of its register. -/
theorem slotByte_toNat (v : Word W) (k : Nat) : (slotByte v k).toNat = v.toNat / 256 ^ k % 256 := by
  rw [slotByte, BitVec.extractLsb'_toNat, Nat.shiftRight_eq_div_pow, Nat.pow_mul]

/-- The lowest `n` bytes, lowest address first, make the register modulo `256^n`. -/
theorem slotBytes_sum (v : Word W) (n : Nat) :
    ∑ k ∈ Finset.range n, (slotByte v k).toNat * 256 ^ k = v.toNat % 256 ^ n := by
  induction n with
  | zero => simp [Nat.mod_one]
  | succ n ih => rw [Finset.sum_range_succ, ih, slotByte_toNat, Nat.mod_pow_succ, mul_comm (256 ^ n)]

/-- Settles O15: the eight bytes make the register modulo `2^64`, which is the register. -/
theorem slotBytesAreLittleEndian : Obligations.SlotBytesAreLittleEndian := by
  intro v
  rw [slotBytes_sum, Nat.mod_eq_of_lt]
  exact v.isLt

/-! ### The accesses that exist (R51, R54) -/

/-- An address of the reference width, scaled to another (R51). -/
theorem Reg.offset_eq_scaled (r : Reg) (W : Nat) : r.offset W = r.offset / 8 * (W / 8) := by
  have hslot : r.offset / 8 = r.slot := Nat.mul_div_cancel r.slot (by norm_num : 0 < 8)
  rw [hslot, Reg.offset]

/-- No two registers share an address: an access reaches one register. -/
theorem Reg.offset_injective (hW : Config.Admissible W) : Function.Injective (Reg.offset · W) := by
  intro r r' h
  exact Option.some.inj <| (regOfAccess_offset hW r).symm.trans <|
    (congrArg (regOfAccess · (Config.slotBytes W) W) h).trans (regOfAccess_offset hW r')

/-- A read or write that comes next and is no slot access is refused (R54). -/
theorem stepAt_refuses {s : State.At W} {who : Agent} {offset bytes : Nat} {v : Word W} {rest : List (Event W)}
    (hno : WellFormed.slotAccess offset bytes W = false)
    (hs : s.schedule = .read who offset bytes :: rest ∨ s.schedule = .write who offset bytes v :: rest) :
    stepAt s = .refused .notASlotAccess := by
  have hreg := (regOfAccess_none_iff offset bytes).2 hno
  obtain hs | hs := hs <;> simp [stepAt, hs, perform, hreg]

/-- Settles O14: R51's table by evaluation, the rest at every width by what an access reaches. -/
theorem onlySlotAccessesExist : Obligations.OnlySlotAccessesExist := by
  refine ⟨by decide, fun W hW => ⟨fun base r => ?_, regOfAccess_offset hW, fun _ _ h => Reg.offset_injective hW h, ?_⟩⟩
  · rw [Reg.address, Reg.offset_eq_scaled]
  · exact fun _ _ _ _ _ _ hno hs => stepAt_refuses hno hs

/-! ### What a read returns (R55, R217) -/

/-- A whole-slot read that comes next is a `RegRead` of that register (R55). -/
theorem stepAt_slotRead (hW : Config.Admissible W) {s : State.At W} {who : Agent} {r : Reg} {rest : List (Event W)}
    (hs : s.schedule = .read who (r.offset W) (Config.slotBytes W) :: rest) :
    stepAt s = .next (regRead who r { s with schedule := rest }) := by
  simp [stepAt, hs, perform, regOfAccess_offset hW]

/-- Free are the result registers while a command runs. -/
theorem readIsFree_iff (r : Reg) (s : State.At W) :
    readIsFree r s = true ↔ s.status.busy = true ∧ (r = .res0 ∨ r = .res1 ∨ r = .res2) := by
  simp [readIsFree, or_assoc]

/-- A free value is the next draw. -/
theorem readValue_free {r : Reg} {s : State.At W} (h : readIsFree r s = true) :
    readValue r s = Config.freeWord s.draws := by
  simp [readValue, h]

/-- `CMD`, `WITNESS` and the reserved slots read as 0 (R42, R55). -/
theorem readValue_zero {r : Reg} (hr : r = .cmd ∨ r = .witness ∨ ∃ j, r = .reserved j) (s : State.At W) :
    readValue r s = 0 := by
  obtain rfl | rfl | ⟨j, rfl⟩ := hr <;> simp [readValue, readIsFree]

/-- While no command runs a result register reads as its value. -/
theorem readValue_results {s : State.At W} (hb : s.status.busy = false) :
    readValue .res0 s = s.res0 ∧ readValue .res1 s = s.res1 ∧ readValue .res2 s = s.res2 := by
  simp [readValue, readIsFree, hb]

/-- Settles O13: the step is `regRead`, which logs the value `readValue` and counts a draw exactly when that is free. -/
theorem readsReturnTheRegisters : Obligations.ReadsReturnTheRegisters := by
  intro s who r rest hs
  obtain ⟨hopa, hopb, hopm, hrounds⟩ := readValue_operands { s with schedule := rest }
  refine ⟨readValue r { s with schedule := rest }, _, stepAt_slotRead admissible_reference hs,
    fun hr => readValue_zero hr _, ?_, ?_, ?_, ?_, ?_, fun hb => ?_, fun hb hr => ?_, fun hr => if_neg fun hfree => ?_⟩
  · rintro rfl
    exact readValue_status _
  · rintro rfl
    exact hopa
  · rintro rfl
    exact hopb
  · rintro rfl
    exact hopm
  · rintro rfl
    exact hrounds
  · obtain ⟨hres0, hres1, hres2⟩ := readValue_results (s := { s with schedule := rest }) hb
    refine ⟨?_, ?_, ?_⟩ <;> rintro rfl
    · exact hres0
    · exact hres1
    · exact hres2
  · have hfree : readIsFree r { s with schedule := rest } = true := (readIsFree_iff _ _).2 ⟨hb, hr⟩
    exact ⟨readValue_free hfree, if_pos hfree⟩
  · obtain ⟨hb, hres⟩ := (readIsFree_iff _ _).1 hfree
    obtain hnb | hnr := hr
    · exact absurd hb (by simpa using hnb)
    · exact hnr hres

end Sys2Proof.Machine

namespace Sys2Proof.Machine

variable {W : Nat}

/-! ### Command words: the decoder against the encoder and against the fields (R70, R71, R74) -/

/-- Settles O3: both directions are the one fact that a word decodes to a command exactly when it is that command's. -/
theorem decodeInvertsEncode : Obligations.DecodeInvertsEncode :=
  fun _ hW => ⟨fun i _ => (decode_eq_some_iff hW _ i).2 rfl, fun c i h => ((decode_eq_some_iff hW c i).1 h).symm⟩

/-- A word is a command's exactly when its `ZERO` field is 0 and its `OPCODE` field is that command's (R70). -/
theorem eq_encode_iff (hW : Config.Admissible W) (c : Word W) (i : Instr) :
    c = encode i W ↔ c.extractLsb' 8 (W - 8) = 0 ∧ c.extractLsb' 0 8 = i.opcode := by
  constructor
  · rintro rfl
    exact encode_fields hW i
  · rintro ⟨hzero, hop⟩
    have hhigh : c.toNat / 256 < 2 ^ (W - 8) := by
      rw [Nat.div_lt_iff_lt_mul (by norm_num), show 256 = 2 ^ 8 by rfl, ← pow_add,
        Nat.sub_add_cancel (by have := hW.1; omega)]
      exact c.isLt
    have hz : c.toNat < 256 := by
      simpa [BitVec.extractLsb'_toNat, Nat.shiftRight_eq_div_pow, Nat.mod_eq_of_lt hhigh] using
        congrArg BitVec.toNat hzero
    have ho : c.toNat % 2 ^ 8 = i.opcode.toNat := by
      simpa [BitVec.extractLsb'_toNat] using congrArg BitVec.toNat hop
    apply BitVec.eq_of_toNat_eq
    rw [encode_toNat hW]
    omega

/-- The opcodes of R74's seven rows, as R71 lists them. -/
theorem exists_opcode_eq_iff (op : BitVec 8) :
    (∃ i : Instr, op = i.opcode) ↔ op ∈ ([0x01, 0x02, 0x03, 0x04, 0x05, 0x06, 0x07] : List (BitVec 8)) := by
  constructor
  · rintro ⟨i, rfl⟩
    cases i <;> decide
  · intro h
    simp only [List.mem_cons, List.not_mem_nil, or_false] at h
    obtain rfl | rfl | rfl | rfl | rfl | rfl | rfl := h
    exacts [⟨.gcd, rfl⟩, ⟨.xgcd, rfl⟩, ⟨.mulmod, rfl⟩, ⟨.powmod, rfl⟩, ⟨.factor, rfl⟩, ⟨.mrround, rfl⟩, ⟨.mrtest, rfl⟩]

/-- Settles O2: a word decodes when it is some command's word, which its two fields say. -/
theorem legalWordsAreExactlyTheSeven : Obligations.LegalWordsAreExactlyTheSeven := by
  intro W hW c
  rw [← exists_opcode_eq_iff, Option.isSome_iff_exists, ← exists_and_left]
  simp only [decode_eq_some_iff hW, eq_encode_iff hW]

/-- Settles O1: each word of R74's table is its command's encoding. -/
theorem sevenCommandWordsDecode : Obligations.SevenCommandWordsDecode := by
  have h : ∀ i : Instr, decode (encode i) = some i := fun i => (decode_eq_some_iff admissible_reference _ i).2 rfl
  exact ⟨h .gcd, h .xgcd, h .mulmod, h .powmod, h .factor, h .mrround, h .mrtest⟩

/-! ### A command word written to `CMD` (R56, R72) -/

/-- The reference machine's `exec` is the meaning of every width at 64. -/
theorem exec_eq_execAt (i : Instr) (s : State) : exec i s = execAt i s := by
  obtain ⟨hexec, -⟩ := everyWidthRunsTheCommands
  exact hexec i s

/-- A legal word runs the command it decodes to. -/
theorem regWrite_cmd_legal {c : Word W} {i : Instr} (hc : decode c = some i) (s : State.At W) :
    regWrite .cmd c s = execAt i s := by
  rw [regWrite, commandWrite, hc]

/-- The host's next command word is a whole-slot write to `CMD`, when it fits one word (log 2). -/
theorem withFetchWord_schedule {nbits w : Nat} (h : w % 2 ^ nbits < 2 ^ Config.W) (s : State) :
    (s.withFetchWord nbits w).schedule =
      commandWriteEvent (BitVec.ofNat Config.W (w % 2 ^ nbits)) :: s.schedule := by
  rw [State.withFetchWord, if_pos h]

/-- Settles O4: the write reaches `CMD`, whose word is decoded and run. -/
theorem stepRunsTheDecodedCommand : Obligations.StepRunsTheDecodedCommand := by
  refine ⟨fun s who c i rest hs hc _ => ?_, fun s nbits w i hw => ?_⟩
  · rw [step, stepAt_slotWrite admissible_reference hs, regWrite_cmd_legal hc, exec_eq_execAt]
  · rw [decodeTableWord] at hw
    split at hw
    · rename_i hfits
      rw [step, stepAt_slotWrite admissible_reference (withFetchWord_schedule hfits s), regWrite_cmd_legal hw,
        exec_eq_execAt]
      rfl
    · cases hw

/-- Settles O5: the acceptance of each command, with the operands its rule names (R36, R72). -/
theorem everyCommandIsAcceptedWhenFree : Obligations.EveryCommandIsAcceptedWhenFree := by
  intro s hb hf
  have h : ∀ i, exec i s = .next (issuedBlock i s) := fun i => (exec_eq_execAt i s).trans (execAt_accept i s hb hf)
  exact ⟨h .gcd, h .xgcd, h .mulmod, h .powmod, h .factor, h .mrround, h .mrtest⟩

/-! ### An illegal word written to `CMD` (R75) -/

/-- No command has an opcode of R75's ranges. -/
theorem opcode_range (i : Instr) : i.opcode ≠ 0 ∧ i.opcode.toNat < 8 := by
  cases i <;> decide

/-- A word with a bit of `ZERO` set, or with an `OPCODE` of no command, is illegal. -/
theorem decode_eq_none_of_fields {c : Word}
    (h : c.extractLsb' 8 (Config.W - 8) ≠ 0 ∨ c.extractLsb' 0 8 = 0 ∨ 8 ≤ (c.extractLsb' 0 8).toNat) :
    decode c = none := by
  rw [Option.eq_none_iff_forall_ne_some]
  intro i hi
  obtain ⟨hzero, hop⟩ := (eq_encode_iff admissible_reference c i).1 ((decode_eq_some_iff admissible_reference c i).1 hi)
  obtain ⟨hne, hlt⟩ := opcode_range i
  rw [hop] at h
  obtain h | h | h := h
  · exact h hzero
  · exact hne h
  · exact absurd h (by omega)

/-- An illegal word is no command: it is dropped, or ends in an error. -/
theorem regWrite_cmd_illegal {c : Word W} (hc : decode c = none) (s : State.At W) :
    regWrite .cmd c s = .next (issueIllegal c s) := by
  rw [regWrite, commandWrite, hc]

/-- Like any word, an illegal one is dropped while a command runs and after a fatal error (R72, R218). -/
theorem issueIllegal_dropped {s : State.At W} (h : s.status.busy = true ∨ s.status.fatal = true) (c : Word W) :
    issueIllegal c s = dropWithHazard s := by
  rw [issueIllegal, if_pos (by simpa [Status.refusesCommands] using h)]

/-- An accepted illegal word ends at once in the recoverable error 5, and nothing but `STATUS` changes (R75, R191). -/
theorem issueIllegal_accepted {s : State.At W} (hb : s.status.busy = false) (hf : s.status.fatal = false) (c : Word W) :
    issueIllegal c s = { s with status := s.status.erredAs (opcodeField c) 5 } := by
  have hstatus : (s.status.accepted (opcodeField c)).failed .illegalCmd = s.status.erredAs (opcodeField c) 5 := by
    simp [Status.failed, Status.accepted, Status.erredAs, ErrorCode.code]
  rw [issueIllegal, if_neg (by simp [Status.refusesCommands, hb, hf]), raiseError, hstatus]

/-- Settles O7: an illegal word is accepted into an error that the next command recovers from, or dropped. -/
theorem illegalWordEndsInAnError : Obligations.IllegalWordEndsInAnError := by
  intro s c hc
  have hwrite := regWrite_cmd_illegal (decode_eq_none_of_fields hc) s
  refine ⟨fun ha => ?_, fun h => by rw [hwrite, issueIllegal_dropped h]; rfl⟩
  obtain ⟨hb, -, hf⟩ := (accepts_iff s).1 ha
  refine ⟨_, hwrite, issueIllegal_accepted hb hf c, ?_⟩
  rw [issueIllegal_accepted hb hf c]
  exact ⟨(accepts_iff _).2 ⟨rfl, rfl, hf⟩, fun i =>
    ⟨_, (exec_eq_execAt i _).trans (execAt_accept i _ rfl hf), rfl⟩⟩

/-! ### What a command's issue leaves unchanged (R21, R72, R73) -/

/-- After a change of `STATUS` and the hidden state that does not end a command, every register but `STATUS` whose read is
not free reads as before (R55). -/
theorem readValue_of_statusChange {s : State.At W} {f : Status} {w : Working W} {g : Stage}
    (hbusy : f.busy = false → s.status.busy = false) {r : Reg} (hr : r ≠ .status)
    (hfree : readIsFree r { s with status := f, work := w, stage := g } = false) :
    readValue r { s with status := f, work := w, stage := g } = readValue r s := by
  have hfree' : readIsFree r s = false := by
    rw [← Bool.not_eq_true, readIsFree_iff] at hfree ⊢
    rintro ⟨hb, hres⟩
    cases hf : f.busy with
    | false => simp [hbusy hf] at hb
    | true => exact hfree ⟨hf, hres⟩
  cases r with
  | status => exact absurd rfl hr
  | _ => simp only [readValue, hfree, hfree']

/-- Settles O8: a command's issue is a drop, which sets `HZD`, or an acceptance, which changes `STATUS` and the hidden
state. -/
theorem commandIssueFrame : Obligations.CommandIssueFrame := by
  intro i s t h
  rw [exec_eq_execAt] at h
  obtain ⟨hbf, rfl⟩ | ⟨hb, hf, w, rfl⟩ := execAt_cases h
  · refine ⟨rfl, rfl, rfl, rfl, rfl, rfl, rfl, rfl, rfl, rfl, rfl, rfl, fun hb hf => ?_, fun r hr hfree => ?_⟩
    · simp [hb, hf] at hbf
    · exact readValue_of_statusChange (f := s.status.hazard) id hr hfree
  · exact ⟨rfl, rfl, rfl, rfl, rfl, rfl, rfl, rfl, rfl, rfl, rfl, rfl, fun _ _ => rfl, fun r hr hfree =>
      readValue_of_statusChange (fun _ => hb) hr hfree⟩

/-! ### The register writes of the call forms (R77, R78) -/

/-- A program's writes are those of its parts, in their order. -/
theorem encodeProgram_append (p q : List (HostLine W)) : encodeProgram (p ++ q) = encodeProgram p ++ encodeProgram q :=
  List.flatMap_append

/-- Witness lines write `WITNESS`, one value each. -/
theorem encodeProgram_witnesses (ws : List (Word W)) :
    encodeProgram (ws.map HostLine.wit) = ws.map fun v => (Reg.witness.offset W, v) := by
  induction ws with
  | nil => rfl
  | cons v ws ih => exact congrArg (_ :: ·) ih

/-- Settles O51: line by line; only `MRTEST` has a list of witness lines, before its last `wait`. -/
theorem callFormsWriteInOrder : Obligations.CallFormsWriteInOrder := by
  intro a b m ws
  refine ⟨rfl, rfl, rfl, rfl, rfl, rfl, ?_⟩
  rw [CallForm.expand, encodeProgram_append, encodeProgram_append, encodeProgram_witnesses]
  exact List.append_nil _

end Sys2Proof.Machine

namespace Sys2Proof.Machine

variable {W : Nat}

/-! ### A command that takes no witness ends by itself (R57, R224) -/

/-- An opcode names one command (R74). -/
theorem opcode_injective : Function.Injective Instr.opcode := fun i _ h =>
  Option.some.inj ((decodeOpcode_opcode i).symm.trans ((decodeOpcode_eq_some_iff _ _).2 h))

/-- The controller of any command but `MRTEST` asks for no witness (R142). -/
theorem Turn.asks_nothing {s t : State.At W} (h : Turn s t) (ho : s.status.opc ≠ Instr.mrtest.opcode)
    (hw : s.status.wreq = false) : t.status.opc = s.status.opc ∧ t.status.wreq = false := by
  cases h with
  | ask _ hm => exact absurd hm ho
  | rest _ => exact ⟨rfl, hw⟩
  | work _ _ _ => exact ⟨rfl, hw⟩
  | error _ _ => exact ⟨rfl, rfl⟩
  | complete _ _ _ _ _ _ _ => exact ⟨rfl, rfl⟩

/-- However long it is left alone, such a controller has not come to wait. -/
theorem controllerRun_asks_nothing (n : Nat) : ∀ {s t : State.At W}, controllerRun n s = .next t →
    s.status.opc ≠ Instr.mrtest.opcode → s.status.wreq = false → t.status.wreq = false := by
  induction n with
  | zero =>
    intro s t hn _ hw
    obtain rfl := Host.Outcome.next.inj hn
    exact hw
  | succ n ih =>
    intro s t hn ho hw
    cases hx : controllerStep s with
    | next v =>
      rw [controllerRun_succ hx] at hn
      obtain ⟨hopc, hwreq⟩ := (controllerStep_turn hx).asks_nothing ho hw
      exact ih hn (hopc ▸ ho) hwreq
    | fault _ => simp [controllerRun, hx] at hn
    | refused _ => simp [controllerRun, hx] at hn

/-- A command that takes no witness, accepted and left alone, comes to phase DONE. -/
theorem issuedBlock_reaches_done {i : Instr} (hi : i ≠ .mrtest) (hW : Config.Admissible W) {s : State.At W}
    (hw : s.status.wreq = false) : ∃ u, Reaches (issuedBlock i s) u ∧ u.status.phase = some .done := by
  have hp : (issuedBlock i s).status.phase = some .run := (phase_run_iff _).2 ⟨rfl, rfl, hw⟩
  have ho : i.opcode ≠ Instr.mrtest.opcode := fun h => hi (opcode_injective h)
  obtain ⟨u, ⟨n, hn⟩, hd | hq⟩ := reaches_done_or_waitw hW _ rfl hp rfl (issuedBlock_running i hw)
  · exact ⟨u, ⟨n, hn⟩, hd⟩
  · obtain ⟨-, -, hwreq⟩ := (phase_waitw_iff _).1 hq
    simp [controllerRun_asks_nothing n hn ho hw] at hwreq

/-- Whatever such a command publishes as a function of its operands, it ends with, and with normal flags (R33, R72). -/
theorem ends_of_unwitnessedEnd {i : Instr} (hi : i ≠ .mrtest) {s : State} (ha : s.Accepts) {r0 : Word}
    {r1 r2 : Option Word} (hv : unwitnessedEnd i s.opa s.opb s.opm s.rounds = .ok (r0, r1, r2)) :
    Ends i s { s with res0 := r0, res1 := r1.getD s.res1, res2 := r2.getD s.res2,
                      status := s.status.endedAs i.opcode } := by
  obtain ⟨hb, hw, hf⟩ := (accepts_iff s).1 ha
  have he : exec i s = .next (issuedBlock i s) := (exec_eq_execAt i s).trans (execAt_accept i s hb hf)
  obtain ⟨u, ⟨n, hn⟩, hd⟩ := issuedBlock_reaches_done hi admissible_reference hw
  refine ⟨_, he, (phase_run_iff _).2 ⟨rfl, rfl, hw⟩, n, u, hn, ?_⟩
  cases endsUnwitnessed_of_exec ha he hn hd with
  | err w g e hg hfail =>
    cases hv.symm.trans (hfail.unwitnessedEnd (s := { issuedBlock i s with work := w, stage := g }) hg)
  | fin w w' g r0' r1' r2' hg hc =>
    cases hv.symm.trans (hc.unwitnessedEnd (s := { issuedBlock i s with work := w, stage := g }) hg)
    rfl

/-! ### The extended-GCD engine (R91, R95, R96) -/

/-- Settles O20: what `GCD` publishes is the greatest common divisor of its operands. -/
theorem gcdComputesGreatestCommonDivisor : Obligations.GcdComputesGreatestCommonDivisor :=
  fun _ ha => ends_of_unwitnessedEnd (i := .gcd) (by decide) ha rfl

/-- Settles O21: what `XGCD` publishes is the triple of the recurrence. -/
theorem xgcdComputesTheRecurrence : Obligations.XgcdComputesTheRecurrence :=
  fun _ ha => ends_of_unwitnessedEnd (i := .xgcd) (by decide) ha rfl

/-- Settles O22: the triple satisfies the identity (R95), and its coefficients fit the words that hold them (R96). -/
theorem xgcdBezoutIdentityIsExact : Obligations.XgcdBezoutIdentityIsExact := by
  intro s ha
  obtain ⟨hg, hidentity, -, -⟩ := xgcd_spec s.opa.toNat s.opb.toNat
  obtain ⟨hx, hy⟩ := sval_tc_xgcd admissible_reference s.opa s.opb
  have hword := word_gcd_toNat s.opa s.opb
  refine ⟨_, _, _, xgcdComputesTheRecurrence s ha, ?_, ?_⟩
  · rw [hg, hword]
  · rw [hx, hy, hg, hword, hidentity]

/-- Settles O23: the magnitudes are those of the point at which the recurrence ends. -/
theorem xgcdCoefficientsAreSmall : Obligations.XgcdCoefficientsAreSmall := by
  intro a b hg
  obtain ⟨-, -, hbound, -⟩ := xgcd_spec a b
  exact hbound hg

end Sys2Proof.Machine

namespace Sys2Proof.Machine

variable {W : Nat}

/-! ### A command that fails before any witness (R190, R191) -/

/-- In a state that accepts, a command is issued and the controller runs (R72). -/
theorem exec_accepted (i : Instr) {s : State} (ha : s.Accepts) :
    exec i s = .next (issuedBlock i s) ∧ (issuedBlock i s).status.phase = some .run := by
  obtain ⟨hb, hw, hf⟩ := (accepts_iff s).1 ha
  exact ⟨(exec_eq_execAt i s).trans (execAt_accept i s hb hf), (phase_run_iff _).2 ⟨rfl, rfl, hw⟩⟩

/-- Whatever recoverable error such a command has by its operands, it ends with, and with no register changed. -/
theorem ends_of_unwitnessedError {i : Instr} (hi : i ≠ .mrtest) {s : State} (ha : s.Accepts) {e : ErrorCode}
    (hv : unwitnessedEnd i s.opa s.opb s.opm s.rounds = .error e) (hrec : e ≠ .internal) :
    Ends i s { s with status := s.status.erredAs i.opcode e.code } := by
  obtain ⟨-, hw, -⟩ := (accepts_iff s).1 ha
  obtain ⟨he, hp⟩ := exec_accepted i ha
  obtain ⟨u, ⟨n, hn⟩, hd⟩ := issuedBlock_reaches_done hi admissible_reference hw
  refine ⟨_, he, hp, n, u, hn, ?_⟩
  cases endsUnwitnessed_of_exec ha he hn hd with
  | err w g e' hg hfail =>
    obtain rfl := Except.error.inj
      (hv.symm.trans (hfail.unwitnessedEnd (s := { issuedBlock i s with work := w, stage := g }) hg))
    have hstatus : (s.status.runningAs i.opcode).failed e = s.status.erredAs i.opcode e.code := by
      simp [Status.failed, Status.runningAs, Status.erredAs, hrec]
    rw [← hstatus]
    rfl
  | fin w w' g r0 r1 r2 hg hc =>
    cases hv.symm.trans (hc.unwitnessedEnd (s := { issuedBlock i s with work := w, stage := g }) hg)

/-! ### The modular multiplier and the exponentiation unit (R111, R114, R117) -/

/-- `MULMOD` has one point, its entry (R111). -/
theorem stage_of_running_mulmod {s : State.At W} (h : s.Running .mulmod) : s.stage = .entry := by
  unfold State.At.Running at h
  cases hs : s.stage <;> simp [hs] at h ⊢

/-- With nowhere to go on to, `MULMOD`'s first step ends it (R111, R222). -/
theorem mulmod_done_in_one_step {s : State.At W} (hp : s.status.phase = some .run)
    (ho : s.status.opc = Instr.mulmod.opcode) (hr : s.Running .mulmod) :
    ∃ u, controllerStep s = .next u ∧ u.status.phase = some .done := by
  have hi : Iteration .mulmod s (controllerStep s) := by
    rw [controllerStep_run hp ho]
    exact iter_mulmod_iteration hr
  generalize controllerStep s = x at hi
  cases hi with
  | go w g hr' hlt _ =>
    obtain rfl : g = .entry := stage_of_running_mulmod hr'
    simp [remaining, stage_of_running_mulmod hr] at hlt
  | ask hm _ => cases hm
  | err e _ _ => exact ⟨_, rfl, rfl⟩
  | fin w r0 r1 r2 _ => exact ⟨_, rfl, rfl⟩

/-- Settles O24: what `MULMOD` ends with is a function of its operands, and its first step ends it. -/
theorem mulmodMultipliesExactly : Obligations.MulmodMultipliesExactly := by
  intro s ha
  obtain ⟨-, hw, -⟩ := (accepts_iff s).1 ha
  obtain ⟨he, hp⟩ := exec_accepted .mulmod ha
  obtain ⟨u, hstep, hdone⟩ := mulmod_done_in_one_step hp rfl (issuedBlock_running .mulmod hw)
  exact ⟨fun hm => ends_of_unwitnessedEnd (i := .mulmod) (by decide) ha (if_neg hm),
    fun hm => ends_of_unwitnessedError (i := .mulmod) (by decide) ha (if_pos hm) (by decide), _, u, he, hstep, hdone⟩

/-- Settles O25: what `POWMOD` ends with is a function of its operands. -/
theorem powmodRaisesToThePower : Obligations.PowmodRaisesToThePower :=
  fun _ ha => ⟨fun hm => ends_of_unwitnessedEnd (i := .powmod) (by decide) ha (if_neg hm),
    fun hm => ends_of_unwitnessedError (i := .powmod) (by decide) ha (if_pos hm) (by decide)⟩

/-- Settles O34: the two reduce the same product. -/
theorem secondPowerIsTheSquare : Obligations.SecondPowerIsTheSquare := by
  intro x m _
  rw [Reference.powmod, Reference.mulmod, sq]

end Sys2Proof.Machine

namespace Sys2Proof.Machine

variable {W : Nat}

open Reference (CandidateOk WitnessOk mrRound mrRounds mrTest TestResult)

/-! ### A legal state never faults (R131, R187) -/

/-- A controller step from a point of its rule answers a next state. -/
theorem Iteration.answers {i : Instr} {s : State.At W} {x : Result W} (h : Iteration i s x) : ∃ t, x = .next t := by
  cases h with
  | go w g _ _ _ => exact ⟨_, rfl⟩
  | ask _ _ => exact ⟨_, rfl⟩
  | err e _ _ => exact ⟨_, rfl⟩
  | fin w r0 r1 r2 _ => exact ⟨_, rfl⟩

/-- The controller has a rule to follow in every state of the invariant (log 13). -/
theorem State.At.Inv.controllerStep_answers (hW : Config.Admissible W) {s : State.At W} (h : s.Inv) :
    ∃ t, controllerStep s = .next t := by
  by_cases hp : s.status.phase = some .run
  · obtain ⟨i, ho, hr⟩ := h.running hp
    exact (controllerStep_iteration hW hp ho hr).answers
  · exact ⟨s, controllerStep_rest hp⟩

/-- From a state of the invariant every agent's step answers a next state, unless it is no slot access (R54). -/
theorem State.At.Inv.perform_answers (hW : Config.Admissible W) {s : State.At W} (h : s.Inv) (e : Event W) :
    (∃ t, perform e s = .next t) ∨
    ∃ who offset bytes v, WellFormed.slotAccess offset bytes W = false ∧
      (e = .read who offset bytes ∨ e = .write who offset bytes v) := by
  cases e with
  | controller => exact .inl (h.controllerStep_answers hW)
  | reset => exact .inl ⟨_, rfl⟩
  | read who offset bytes =>
    cases hr : regOfAccess offset bytes W with
    | some r => exact .inl ⟨regRead who r s, by simp only [perform, hr]⟩
    | none => exact .inr ⟨who, offset, bytes, 0, (regOfAccess_none_iff _ _).1 hr, .inl rfl⟩
  | write who offset bytes v =>
    cases hr : regOfAccess offset bytes W with
    | some r =>
      obtain ⟨t, ht⟩ := regWrite_answers r v s
      exact .inl ⟨t, by simp only [perform, hr, ht]⟩
    | none => exact .inr ⟨who, offset, bytes, v, (regOfAccess_none_iff _ _).1 hr, .inr rfl⟩

/-- From a state of the invariant a step answers a next state, unless the next event is no slot access. -/
theorem State.At.Inv.stepAt_answers (hW : Config.Admissible W) {s : State.At W} (h : s.Inv) :
    (∃ t, stepAt s = .next t) ∨
    ∃ who offset bytes v rest, WellFormed.slotAccess offset bytes W = false ∧
      (s.schedule = .read who offset bytes :: rest ∨ s.schedule = .write who offset bytes v :: rest) := by
  cases hs : s.schedule with
  | nil =>
    rw [stepAt, hs]
    exact .inl (h.controllerStep_answers hW)
  | cons e rest =>
    have htaken : ({ s with schedule := rest } : State.At W).Inv := ⟨h.flags, h.notFatal, h.working⟩
    rw [stepAt, hs]
    obtain ht | ⟨who, offset, bytes, v, hno, he⟩ := htaken.perform_answers hW e
    · exact .inl ht
    · exact .inr ⟨who, offset, bytes, v, rest, hno, he.imp (congrArg (· :: rest)) (congrArg (· :: rest))⟩

/-- In a state of the invariant no internal error is reported: it would have set `FATAL` (R34). -/
theorem State.At.Inv.errcode_ne_internal {s : State.At W} (h : s.Inv) : s.status.errcode ≠ ErrorCode.internal.code := by
  intro hc
  have hf := h.flags.fatal_iff_internal.2 hc
  simp [h.notFatal] at hf

/-- Settles O47: a step answers, and then keeps the invariant, or its event is no slot access, and then it is refused. -/
theorem legalStatesNeverFault : Obligations.LegalStatesNeverFault := by
  intro s h
  obtain ⟨t, ht⟩ | ⟨who, offset, bytes, v, rest, hno, hs⟩ := h.stepAt_answers admissible_reference
  · have hinv := stepAt_keeps_inv admissible_reference h ht
    exact .inl ⟨t, ht, hinv, hinv.errcode_ne_internal⟩
  · exact .inr ⟨stepAt_refuses hno hs, who, offset, bytes, v, rest, hno, hs⟩

/-! ### A witness is taken only when one is wanted (R139, R216) -/

/-- A witness that is wanted is taken (R139). -/
theorem regWrite_witness_wanted {s : State.At W} (hw : s.status.wreq = true) (a : Word W) :
    regWrite .witness a s =
      .next { s with status := s.status.witnessTaken, work := { s.work with ma := a }, stage := .witness } := by
  rw [regWrite, deliverWitness, if_pos hw]

/-- A witness that is not wanted is dropped (R216). -/
theorem regWrite_witness_unwanted {s : State.At W} (hw : s.status.wreq = false) (a : Word W) :
    regWrite .witness a s = .next (dropWithHazard s) := by
  rw [regWrite, deliverWitness, if_neg (by simp [hw])]

/-- Settles O10: the first write clears `WREQ`, so a second one is unwanted. -/
theorem witnessTakenOnlyWhenWanted : Obligations.WitnessTakenOnlyWhenWanted :=
  fun _ a => ⟨fun hw => ⟨_, regWrite_witness_wanted hw a, rfl, regWrite_witness_unwanted rfl⟩,
    fun hw => regWrite_witness_unwanted hw a⟩

/-! ### `FACTOR` and `MRROUND` (R131, R132, R134, R135) -/

/-- The decomposition of a word is two words (R131). -/
theorem word_decompose_toNat {n : Word W} (hn : 2 ≤ n.toNat) :
    (BitVec.ofNat W (Reference.decompose n.toNat).1).toNat = (Reference.decompose n.toNat).1 ∧
    (BitVec.ofNat W (Reference.decompose n.toNat).2).toNat = (Reference.decompose n.toNat).2 := by
  obtain ⟨hprod, hodd⟩ := Reference.decompose_spec n.toNat hn
  generalize Reference.decompose n.toNat = rd at hprod hodd ⊢
  have hlt := n.isLt
  have hr : rd.1 < 2 ^ rd.1 := Nat.lt_two_pow_self
  have hle : 2 ^ rd.1 ≤ 2 ^ rd.1 * rd.2 := Nat.le_mul_of_pos_right _ (by omega)
  have hle' : rd.2 ≤ 2 ^ rd.1 * rd.2 := Nat.le_mul_of_pos_left _ (by positivity)
  exact ⟨word_ofNat_toNat (by omega), word_ofNat_toNat (by omega)⟩

/-- Settles O27: what `FACTOR` ends with is a function of the candidate. -/
theorem factorDecomposes : Obligations.FactorDecomposes := by
  intro s ha
  refine ⟨fun hn => ?_, fun hn => ends_of_unwitnessedError (i := .factor) (by decide) ha (if_pos hn) (by decide)⟩
  obtain ⟨hr, hd⟩ := word_decompose_toNat hn
  obtain ⟨hprod, hodd⟩ := Reference.decompose_spec s.opm.toNat hn
  exact ⟨BitVec.ofNat _ (Reference.decompose s.opm.toNat).1, BitVec.ofNat _ (Reference.decompose s.opm.toNat).2,
    by rw [hr, hd, hprod], by rw [hd, hodd],
    ends_of_unwitnessedEnd (i := .factor) (by decide) ha (if_neg (by omega))⟩

/-- Settles O28: what `MRROUND` ends with is a function of the candidate and the witness. -/
theorem mrroundComputesTheRound : Obligations.MrroundComputesTheRound := by
  intro s ha hc hw r d hn hodd
  refine ends_of_unwitnessedEnd (i := .mrround) (by decide) ha
    (r0 := verdictWord (mrRound s.opm.toNat r d s.opa.toNat).1) (r1 := some _) (r2 := none) ?_
  simp [unwitnessedEnd, eq_decompose hn hodd, hc, hw]

/-! ### The test that a running `MRTEST` has still to do (R141) -/

/-- The loop of R141 on the operands of the block, `j` rounds being done and `ws` the witnesses still to be checked. -/
def roundsFrom (s : State.At W) (j : Nat) (ws : List Nat) : TestResult :=
  mrRounds s.opm.toNat (Reference.decompose s.opm.toNat).1 (Reference.decompose s.opm.toNat).2 s.rounds.toNat j ws

/-- The result of the running test when `ws` are the witnesses still to be delivered. In a round, its witness is in
`ma`. -/
def testFrom (s : State.At W) (ws : List Nat) : TestResult :=
  match s.stage with
  | .entry => mrTest s.opm.toNat s.rounds.toNat ws
  | .decompose | .euclid => roundsFrom s 0 ws
  | .request => roundsFrom s s.work.mj.toNat ws
  | .witness | .power | .square => roundsFrom s s.work.mj.toNat (s.work.ma.toNat :: ws)

theorem testFrom_entry {s : State.At W} (hs : s.stage = .entry) (ws : List Nat) :
    testFrom s ws = mrTest s.opm.toNat s.rounds.toNat ws := by
  rw [testFrom, hs]

theorem testFrom_decompose {s : State.At W} (hs : s.stage = .decompose) (ws : List Nat) :
    testFrom s ws = roundsFrom s 0 ws := by
  rw [testFrom, hs]

theorem testFrom_request {s : State.At W} (hs : s.stage = .request) (ws : List Nat) :
    testFrom s ws = roundsFrom s s.work.mj.toNat ws := by
  rw [testFrom, hs]

theorem testFrom_round {s : State.At W} (hs : s.stage = .witness ∨ s.stage = .power ∨ s.stage = .square)
    (ws : List Nat) : testFrom s ws = roundsFrom s s.work.mj.toNat (s.work.ma.toNat :: ws) := by
  obtain hs | hs | hs := hs <;> rw [testFrom, hs]

/-- On a candidate other than 3 and with a round to do, the test is its rounds. -/
theorem mrTest_eq_roundsFrom {s : State.At W} (hW : Config.Admissible W) (hc : CandidateOk s.opm.toNat)
    (h3 : s.opm ≠ 3) (hk : s.rounds ≠ 0) (ws : List Nat) :
    mrTest s.opm.toNat s.rounds.toNat ws = roundsFrom s 0 ws := by
  have h3' : s.opm.toNat ≠ 3 := fun h => h3 (BitVec.eq_of_toNat_eq (h.trans (word_three_toNat hW).symm))
  have hk' : s.rounds.toNat ≠ 0 := (word_pos hk).ne'
  rw [mrTest, if_neg (not_not.2 hc), if_neg hk', if_neg h3', roundsFrom]

/-- The rounds use the decomposition that the controller has found. -/
theorem roundsFrom_decomposed {s : State.At W} (hn : s.work.mn = s.opm) (hd : Decomposed s.work) (j : Nat)
    (ws : List Nat) :
    roundsFrom s j ws = mrRounds s.opm.toNat s.work.mr.toNat s.work.md.toNat s.rounds.toNat j ws := by
  obtain ⟨⟨hprod, -⟩, hodd⟩ := hd
  rw [roundsFrom, eq_decompose (hn ▸ hprod) hodd]

/-- In a round the decomposition is done (R134). -/
theorem decomposed_of_running {s : State.At W} (h : s.Running .mrtest) (hs : s.stage = .power ∨ s.stage = .square) :
    s.work.mn = s.opm ∧ Decomposed s.work := by
  obtain ⟨hn, -, -, hp⟩ := h
  obtain hs | hs := hs <;> rw [hs] at hp
  · obtain ⟨-, -, hd, -⟩ := hp
    exact ⟨hn, hd⟩
  · obtain ⟨-, -, hd, -⟩ := hp
    exact ⟨hn, hd⟩

/-- At its decomposition `MRTEST` has checked the candidate (R141). -/
theorem candidateOk_of_running {s : State.At W} (h : s.Running .mrtest) (hs : s.stage = .decompose) :
    CandidateOk s.opm.toNat := by
  obtain ⟨hn, -, -, hp⟩ := h
  rw [hs] at hp
  exact hn ▸ hp.1

/-- At its request `MRTEST` has a round left to do (R141). -/
theorem round_left_of_running {s : State.At W} (h : s.Running .mrtest) (hs : s.stage = .request) :
    s.work.mj.toNat < s.rounds.toNat := by
  obtain ⟨-, hk, -, hp⟩ := h
  rw [hs] at hp
  obtain ⟨-, -, hj, -⟩ := hp
  exact hk ▸ hj

/-- A controller step that goes on leaves the test with the same result. -/
theorem GoesOn.testFrom_eq (hW : Config.Admissible W) {s : State.At W} {w : Working W} {g : Stage}
    (hr : s.Running .mrtest) (hr' : ({ s with work := w, stage := g } : State.At W).Running .mrtest)
    (h : GoesOn .mrtest s { s with work := w, stage := g }) (ws : List Nat) :
    testFrom { s with work := w, stage := g } ws = testFrom s ws := by
  obtain ⟨hs, ht, h3, hk⟩ | ⟨hs, ht⟩ | ⟨hs, ht, hj⟩ | ⟨hs, ht, ha, hj, -, -⟩ | ⟨hs, ht, -, -, hj, hw, hv⟩ := h
  · rw [testFrom_entry hs, mrTest_eq_roundsFrom hW (candidateOk_of_running hr' ht) h3 hk, testFrom_decompose ht]
  · rw [testFrom_decompose hs, testFrom_decompose ht]
    rfl
  · rw [testFrom_decompose hs, testFrom_request ht, hj]
    rfl
  · rw [testFrom_round hs, testFrom_round (.inr ht), ha, hj]
    rfl
  · obtain ⟨hn, hd⟩ := decomposed_of_running hr hs
    have hleft := round_left_of_running hr' ht
    rw [hj] at hleft
    rw [testFrom_round (.inr hs), roundsFrom_decomposed hn hd, mrRounds, if_pos hw, if_pos hv,
      if_neg hleft.ne, ← roundsFrom_decomposed hn hd, testFrom_request ht, hj]
    rfl

/-- An error of `MRTEST` is the one of its test. -/
theorem Fails.testFrom_eq {s : State.At W} {e : ErrorCode} (h : Fails .mrtest s e) (ws : List Nat) :
    testFrom s ws = .error e := by
  obtain ⟨hs, rfl, hn⟩ | ⟨hs, rfl, hc, hk⟩ | ⟨hs, rfl, -, hw⟩ := h
  · rw [testFrom_entry hs, mrTest, if_pos hn]
  · rw [testFrom_entry hs, mrTest, if_neg (not_not.2 hc), if_pos ((word_eq_zero_iff _).1 hk)]
  · rw [testFrom_round (.inl hs), roundsFrom, mrRounds, if_neg hw]

/-- What `MRTEST` publishes is the verdict of its test and the number of rounds. -/
theorem Completes.testFrom_eq (hW : Config.Admissible W) {s : State.At W} {r0 : Word W} {r1 r2 : Option (Word W)}
    (hr : s.Running .mrtest) (h : Completes .mrtest s r0 r1 r2) :
    ∃ v j, r0 = verdictWord v ∧ r1 = some (BitVec.ofNat W j) ∧ r2 = none ∧ ∀ ws, testFrom s ws = .verdict v j := by
  obtain ⟨hc, hk, rfl, ⟨hs, h3, rfl, rfl⟩ | ⟨hs, hd, hw, -, j, rfl, hj, hv⟩⟩ := h
  · refine ⟨true, 0, rfl, rfl, rfl, fun ws => ?_⟩
    rw [testFrom_entry hs, mrTest, if_neg (not_not.2 hc), if_neg (word_pos hk).ne', h3, if_pos (word_three_toNat hW)]
  · obtain ⟨hn, -⟩ := decomposed_of_running hr hs
    have hjw : j = BitVec.ofNat W (s.work.mj.toNat + 1) := by rw [← hj, BitVec.ofNat_toNat, BitVec.setWidth_eq]
    have hround : ∀ ws, testFrom s ws = _ := fun ws =>
      (testFrom_round (.inr hs) ws).trans (roundsFrom_decomposed hn hd _ _)
    obtain ⟨rfl, hv⟩ | ⟨rfl, hjk, hv⟩ := hv
    · refine ⟨false, _, rfl, congrArg some hjw, rfl, fun ws => ?_⟩
      rw [hround, mrRounds, if_pos hw, hv, if_neg (by decide)]
    · refine ⟨true, _, rfl, congrArg some hjw, rfl, fun ws => ?_⟩
      rw [hround, mrRounds, if_pos hw, if_pos hv, if_pos (by rw [← hj, hjk])]

/-! ### `MRTEST` runs its test to the end or to its next wait (R139, R142) -/

/-- `s` when its test has come to a result (R33, R142, R191). -/
def testEnd (s : State.At W) : TestResult → State.At W
  | .verdict v j => complete (verdictWord v) (some (BitVec.ofNat W j)) none s
  | .error e => { s with status := s.status.erredAs s.status.opc e.code }
  | .waiting _ => { s with status := s.status.witnessAsked }

/-- The end of a test does not depend on the hidden state. -/
theorem State.At.SameVisible.testEnd {s t u : State.At W} {r : TestResult} (hu : u.SameVisible (testEnd s r))
    (h : s.SameVisible t) : u.SameVisible (Machine.testEnd t r) := by
  rw [State.At.SameVisible] at h
  rw [h] at hu
  rw [State.At.SameVisible, hu]
  cases r <;> rfl

/-- A recoverable error enters the report the command ends with (R191). -/
theorem raiseError_recoverable {e : ErrorCode} (he : e ≠ .internal) (s : State.At W) :
    raiseError e s = { s with status := s.status.erredAs s.status.opc e.code } := by
  simp [raiseError, Status.failed, Status.erredAs, he]

/-- Where a running `MRTEST` that is left alone comes to rest: its test has a result, whatever witnesses were still to
come, or it waits for the next one and goes on with the same test. -/
inductive TestRests (s : State.At W) : State.At W → Prop
  | ended (r : TestResult) (u : State.At W) : (∀ ws, testFrom s ws = r) → (∀ j, r ≠ .waiting j) →
      u.status.phase = some .done → u.SameVisible (testEnd s r) → TestRests s u
  | waits (v : State.At W) : v.SameVisible s → v.Running .mrtest → v.stage = .request →
      (∀ ws, testFrom v ws = testFrom s ws) → TestRests s { v with status := v.status.witnessAsked }

/-- A step that goes on does not change where the test comes to rest. -/
theorem TestRests.of_go {s u : State.At W} {w : Working W} {g : Stage}
    (he : ∀ ws, testFrom { s with work := w, stage := g } ws = testFrom s ws)
    (h : TestRests { s with work := w, stage := g } u) : TestRests s u := by
  cases h with
  | ended r _ hr hnw hp hu => exact .ended r u (fun ws => (he ws).symm.trans (hr ws)) hnw hp (hu.testEnd rfl)
  | waits v hv hrun hs hr => exact .waits v hv hrun hs fun ws => (hr ws).trans (he ws)

/-- A running `MRTEST` that is left alone comes to rest: every step that goes on leaves less to do. -/
theorem mrtest_rests (hW : Config.Admissible W) (k : Nat) : ∀ {s : State.At W}, remaining .mrtest s = k →
    s.status.phase = some .run → s.status.opc = Instr.mrtest.opcode → s.Running .mrtest →
      ∃ u, Reaches s u ∧ TestRests s u := by
  induction k using Nat.strong_induction_on with
  | _ k ih =>
    rintro s rfl hp ho hr
    have hi := controllerStep_iteration hW hp ho hr
    generalize hx : controllerStep s = x at hi
    cases hi with
    | go w g hr' hlt hg =>
      obtain ⟨u, hu, hrests⟩ := ih _ hlt (s := { s with work := w, stage := g }) rfl hp ho hr'
      exact ⟨u, hu.of_step hx, hrests.of_go (hg.testFrom_eq hW hr hr')⟩
    | ask _ hs => exact ⟨_, Reaches.of_step hx ⟨0, rfl⟩, .waits s rfl hr hs fun _ => rfl⟩
    | err e hrec hf =>
      refine ⟨_, Reaches.of_step hx ⟨0, rfl⟩, .ended (.error e) _ hf.testFrom_eq (by simp) rfl ?_⟩
      rw [raiseError_recoverable hrec]
      rfl
    | fin w r0 r1 r2 hc =>
      obtain ⟨v, j, rfl, rfl, rfl, hv⟩ := hc.testFrom_eq hW hr
      exact ⟨_, Reaches.of_step hx ⟨0, rfl⟩, .ended (.verdict v j) _ hv (by simp) rfl rfl⟩

/-- `MRTEST` at the check of the witness `a`, which it has asked for and taken (R139). -/
def witnessDelivered (a : Word W) (s : State.At W) : State.At W :=
  { s with work := { s.work with ma := a }, stage := .witness }

/-- A witness that is asked for is taken, and the flags are those before it was asked for (R139, R142). -/
theorem regWrite_witness_asked {s : State.At W} (hw : s.status.wreq = false) (a : Word W) :
    regWrite .witness a { s with status := s.status.witnessAsked } = .next (witnessDelivered a s) := by
  have hstatus : s.status.witnessAsked.witnessTaken = s.status := by
    rw [Status.witnessAsked, Status.witnessTaken, ← hw]
  rw [regWrite_witness_wanted rfl, hstatus, witnessDelivered]

theorem witnessDelivered_running {s : State.At W} (h : s.Running .mrtest) (hs : s.stage = .request)
    (hw : s.status.wreq = false) (a : Word W) : (witnessDelivered a s).Running .mrtest := by
  obtain ⟨hn, hk, -, hp⟩ := h
  rw [hs] at hp
  exact ⟨hn, hk, fun hw' => absurd (hw.symm.trans hw') (by decide), hp⟩

/-- The witness taken is the first one the rounds have still to check. -/
theorem testFrom_witnessDelivered {s : State.At W} (hs : s.stage = .request) (a : Word W) (ws : List Nat) :
    testFrom (witnessDelivered a s) ws = testFrom s (a.toNat :: ws) := by
  rw [testFrom_round (.inl rfl), testFrom_request hs]
  rfl

/-- A running `MRTEST` takes its witnesses one by one, each when it has asked for it, and ends as its test has it. -/
theorem mrtest_serves (hW : Config.Admissible W) (witnesses : List (Word W)) : ∀ {s : State.At W},
    s.status.phase = some .run → s.status.opc = Instr.mrtest.opcode → s.Running .mrtest →
    (∀ n, n < witnesses.length → ∃ j, testFrom s ((witnesses.take n).map BitVec.toNat) = .waiting j) →
      ∃ u, Serves witnesses s u ∧ u.SameVisible (testEnd s (testFrom s (witnesses.map BitVec.toNat))) := by
  induction witnesses with
  | nil =>
    intro s hp ho hr _
    obtain ⟨u, hu, hrests⟩ := mrtest_rests hW _ rfl hp ho hr
    cases hrests with
    | ended r _ hres _ hdone hsame => exact ⟨u, ⟨hu, by simp [hdone]⟩, by rw [hres]; exact hsame⟩
    | waits v hv _ hs hres =>
      refine ⟨_, ⟨hu, by simp [phase_run_iff]⟩, ?_⟩
      rw [← hres, testFrom_request hs]
      exact State.At.SameVisible.testEnd (r := .waiting 0) rfl hv
  | cons a rest ih =>
    intro s hp ho hr hwait
    obtain ⟨u, hu, hrests⟩ := mrtest_rests hW _ rfl hp ho hr
    cases hrests with
    | ended r _ hres hnw _ _ =>
      obtain ⟨j, hj⟩ := hwait 0 (Nat.succ_pos _)
      exact absurd ((hres _).symm.trans hj) (hnw j)
    | waits v hv hrun hs hres =>
      have hstatus : v.status = s.status := by rw [hv]
      rw [← hstatus] at hp ho
      obtain ⟨hb, hd, hw⟩ := (phase_run_iff _).1 hp
      have htest : ∀ ws, testFrom (witnessDelivered a v) ws = testFrom s (a.toNat :: ws) := fun ws =>
        (testFrom_witnessDelivered hs a ws).trans (hres _)
      obtain ⟨u, hserves, hsame⟩ := ih (s := witnessDelivered a v) hp ho (witnessDelivered_running hrun hs hw a)
        fun n hn => by
          rw [htest]
          exact hwait (n + 1) (Nat.succ_lt_succ hn)
      rw [htest] at hsame
      have hwaits : v.status.witnessAsked.phase = some .waitw := (phase_waitw_iff _).2 ⟨hb, hd, rfl⟩
      exact ⟨u, ⟨_, _, hu, hwaits, regWrite_witness_asked hw a, hserves⟩, (hsame.testEnd (t := v) rfl).testEnd hv⟩

/-- The test of an accepted `MRTEST` is the whole test on its operands (R141). -/
theorem testFrom_issuedBlock (s : State.At W) (ws : List Nat) :
    testFrom (issuedBlock .mrtest s) ws = mrTest s.opm.toNat s.rounds.toNat ws :=
  testFrom_entry rfl ws

/-- Settles O32: an accepted `MRTEST` is at the beginning of its test, takes the witnesses, and ends as the test has it. -/
theorem mrtestRunsTheRounds : Obligations.MrtestRunsTheRounds := by
  intro s witnesses ha hwait
  obtain ⟨-, hw, -⟩ := (accepts_iff s).1 ha
  obtain ⟨he, hp⟩ := exec_accepted .mrtest ha
  obtain ⟨u, hserves, hsame⟩ := mrtest_serves admissible_reference witnesses hp rfl (issuedBlock_running .mrtest hw) hwait
  refine ⟨_, u, he, hserves, ?_⟩
  rw [testFrom_issuedBlock] at hsame
  generalize mrTest s.opm.toNat s.rounds.toNat (witnesses.map BitVec.toNat) = result at hsame ⊢
  cases result with
  | verdict v j => exact hsame
  | error e => exact hsame
  | waiting j => exact hsame

/-- Settles O31: with no witness delivered, the test waits for its first one. -/
theorem mrtestAsksForAWitness : Obligations.MrtestAsksForAWitness := by
  intro s ha hc h3 hk
  obtain ⟨t, u, he, ⟨⟨n, hn⟩, -⟩, hend⟩ := mrtestRunsTheRounds s [] ha (by simp)
  have hwaits : mrTest s.opm.toNat s.rounds.toNat [] = .waiting 0 :=
    mrTest_eq_roundsFrom admissible_reference hc h3 hk []
  obtain ⟨he', hp⟩ := exec_accepted .mrtest ha
  obtain rfl := Host.Outcome.next.inj (he'.symm.trans he)
  rw [List.map_nil, hwaits] at hend
  exact ⟨_, he, hp, n, u, hn, hend⟩

/-! ### A prime is never called composite (R146) -/

/-- The loop of R141 never calls a prime composite. -/
theorem mrRounds_ne_composite {n r d k : Nat} (hn : n.Prime) (hprod : 2 ^ r * d + 1 = n) (hodd : d % 2 = 1)
    (witnesses : List Nat) : ∀ i j : Nat, mrRounds n r d k i witnesses ≠ .verdict false j := by
  induction witnesses with
  | nil =>
    intro i j
    simp [mrRounds]
  | cons a rest ih =>
    intro i j
    rw [mrRounds]
    split
    · rename_i hw
      rw [if_pos (Reference.mrRound_of_prime hn hw hprod hodd)]
      split
      · simp
      · exact ih _ _
    · simp

/-- Settles O33: a round answers composite only when it does not pass. -/
theorem primesPassEveryWitness : Obligations.PrimesPassEveryWitness := by
  refine ⟨fun n r d a hn hw => Reference.mrRound_of_prime hn hw, fun n k witnesses hn j => ?_⟩
  obtain ⟨hprod, hodd⟩ := Reference.decompose_spec n hn.two_le
  rw [mrTest]
  split
  · simp
  · split
    · simp
    · split
      · simp
      · exact mrRounds_ne_composite hn hprod hodd witnesses 0 j

end Sys2Proof.Machine

namespace Sys2Proof.Machine

variable {W : Nat}

open Reference (TestResult)

/-! ### How a command ends on the witnesses it is given (R33, R141, R191) -/

/-- How a command ends: with an error, or with the values it publishes in `RES0`, `RES1` and `RES2`. -/
abbrev CommandEnd (W : Nat) := Except ErrorCode (Word W × Option (Word W) × Option (Word W))

/-- The end of an `MRTEST` from how far its test has got; none while it waits for a witness (R141, R142). -/
def testCommandEnd : TestResult → Option (CommandEnd W)
  | .error e => some (.error e)
  | .verdict v j => some (.ok (verdictWord v, some (BitVec.ofNat W j), none))
  | .waiting _ => none

/-- How the running command `i` ends when `ws` are the witnesses still to be delivered; none when it wants more. -/
def endFrom (i : Instr) (s : State.At W) (ws : List (Word W)) : Option (CommandEnd W) :=
  if i = .mrtest then testCommandEnd (testFrom s (ws.map BitVec.toNat))
  else some (unwitnessedEnd i s.opa s.opb s.opm s.rounds)

theorem endFrom_mrtest (s : State.At W) (ws : List (Word W)) :
    endFrom .mrtest s ws = testCommandEnd (testFrom s (ws.map BitVec.toNat)) := if_pos rfl

theorem endFrom_unwitnessed {i : Instr} (hi : i ≠ .mrtest) (s : State.At W) (ws : List (Word W)) :
    endFrom i s ws = some (unwitnessedEnd i s.opa s.opb s.opm s.rounds) := if_neg hi

/-- A step that goes on leaves the command with the same end. -/
theorem GoesOn.endFrom_eq (hW : Config.Admissible W) {i : Instr} {s : State.At W} {w : Working W} {g : Stage}
    (hr : s.Running i) (hr' : ({ s with work := w, stage := g } : State.At W).Running i)
    (h : GoesOn i s { s with work := w, stage := g }) (ws : List (Word W)) :
    endFrom i { s with work := w, stage := g } ws = endFrom i s ws := by
  by_cases hi : i = .mrtest
  · subst hi
    rw [endFrom_mrtest, endFrom_mrtest, h.testFrom_eq hW hr hr']
  · rw [endFrom_unwitnessed hi, endFrom_unwitnessed hi]

theorem Fails.endFrom_eq {i : Instr} {s : State.At W} {e : ErrorCode} (h : Fails i s e) (ws : List (Word W)) :
    endFrom i s ws = some (.error e) := by
  by_cases hi : i = .mrtest
  · subst hi
    rw [endFrom_mrtest, h.testFrom_eq]
    rfl
  · rw [endFrom_unwitnessed hi, h.unwitnessedEnd fun hm => absurd hm hi]

theorem Completes.endFrom_eq (hW : Config.Admissible W) {i : Instr} {s : State.At W} {r0 : Word W}
    {r1 r2 : Option (Word W)} (hr : s.Running i) (h : Completes i s r0 r1 r2) (ws : List (Word W)) :
    endFrom i s ws = some (.ok (r0, r1, r2)) := by
  by_cases hi : i = .mrtest
  · subst hi
    obtain ⟨v, j, rfl, rfl, rfl, hv⟩ := h.testFrom_eq hW hr
    rw [endFrom_mrtest, hv]
    rfl
  · rw [endFrom_unwitnessed hi, h.unwitnessedEnd fun hm => absurd hm hi]

/-- What a block in phase DONE shows of a command's end (R33, R191). -/
structure Reports (r : CommandEnd W) (b : State.At W) : Prop where
  done : b.status.phase = some .done
  notFatal : b.status.fatal = false
  error : ∀ e, r = .error e → b.status.err = true ∧ b.status.errcode = e.code
  value : ∀ r0 r1 r2, r = .ok (r0, r1, r2) → b.status.err = false ∧ b.res0 = r0 ∧ ∀ v, r1 = some v → b.res1 = v

/-- The host's log of reads takes no part in what a block shows (log 4). -/
theorem Reports.logged {r : CommandEnd W} {b : State.At W} (h : Reports r b) (rs : List (ReadBack W)) :
    Reports r { b with reads := rs } :=
  ⟨h.done, h.notFatal, h.error, h.value⟩

/-- A block that runs command `i` as its rule has it, `ws` being the witnesses taken so far; `F` is how the command ends,
by the witnesses it takes in all. -/
structure AtWork (i : Instr) (F : List (Word W) → Option (CommandEnd W)) (ws : List (Word W)) (b : State.At W) : Prop where
  inv : b.Inv
  busy : b.status.busy = true
  opcode : b.status.opc = i.opcode
  running : b.Running i
  future : ∀ us, endFrom i b us = F (ws ++ us)

section

variable {i : Instr} {F : List (Word W) → Option (CommandEnd W)} {ws : List (Word W)} {b : State.At W}

/-- The host's log of reads takes no part in a running command (log 4). -/
theorem AtWork.logged (h : AtWork i F ws b) (rs : List (ReadBack W)) : AtWork i F ws { b with reads := rs } :=
  ⟨⟨h.inv.flags, h.inv.notFatal, h.inv.working⟩, h.busy, h.opcode, h.running, h.future⟩

theorem AtWork.not_done (h : AtWork i F ws b) : b.status.done = false :=
  h.inv.flags.busy_not_done h.busy

/-- A controller step of a running command answers, and then the command still runs, or it has ended as `F` has it. -/
theorem AtWork.controllerStep_answers (hW : Config.Admissible W) (h : AtWork i F ws b)
    (hp : b.status.phase = some .run) :
    ∃ t, controllerStep b = .next t ∧ (AtWork i F ws t ∨ ∃ r, F ws = some r ∧ Reports r t) := by
  obtain ⟨t, ht⟩ := h.inv.controllerStep_answers hW
  have hinv := controllerStep_keeps_inv hW h.inv ht
  have hi := controllerStep_iteration hW hp h.opcode h.running
  obtain ⟨herr, -, -⟩ := h.inv.flags.noReport_of_busy h.busy
  have hnow := h.future []
  rw [List.append_nil] at hnow
  refine ⟨t, ht, ?_⟩
  rw [ht] at hi
  cases hi with
  | go w g hr' _ hg =>
    exact .inl ⟨hinv, h.busy, h.opcode, hr', fun us => (hg.endFrom_eq hW h.running hr' us).trans (h.future us)⟩
  | ask hm hs =>
    subst hm
    exact .inl ⟨hinv, h.busy, h.opcode, witnessAsked_running h.running hs, h.future⟩
  | err e hrec hf =>
    refine .inr ⟨.error e, hnow.symm.trans (hf.endFrom_eq []), rfl, hinv.notFatal, ?_, by simp⟩
    rintro _ ⟨⟩
    exact ⟨rfl, rfl⟩
  | fin w r0 r1 r2 hc =>
    refine .inr ⟨.ok (r0, r1, r2), hnow.symm.trans (hc.endFrom_eq hW h.running []), rfl, hinv.notFatal, by simp, ?_⟩
    rintro _ _ _ ⟨⟩
    exact ⟨herr, rfl, by rintro v rfl; rfl⟩

/-- A command that waits for a witness is an `MRTEST` at its request, and its end is open (R142). -/
theorem AtWork.waits (h : AtWork i F ws b) (hw : b.status.wreq = true) :
    i = .mrtest ∧ b.stage = .request ∧ F ws = none := by
  obtain ⟨ho, -, -, hs, -⟩ := h.inv.running_of_wreq hw
  obtain rfl := opcode_injective (h.opcode.symm.trans ho)
  refine ⟨rfl, hs hw, ?_⟩
  rw [← List.append_nil ws, ← h.future, endFrom_mrtest, testFrom_request (hs hw)]
  rfl

/-- The witness a command waits for, taken (R139). -/
theorem AtWork.witnessTaken (h : AtWork i F ws b) (hw : b.status.wreq = true) (a : Word W) :
    AtWork i F (ws ++ [a])
      { b with status := b.status.witnessTaken, work := { b.work with ma := a }, stage := .witness } := by
  obtain ⟨rfl, hs, -⟩ := h.waits hw
  have hrun := witnessTaken_running h.running hw a
  refine ⟨⟨h.inv.flags.witnessTaken, h.inv.notFatal, fun _ => ⟨.mrtest, (decodeOpcode_eq_some_iff _ _).2 h.opcode, hrun⟩⟩,
    h.busy, h.opcode, hrun, fun us => ?_⟩
  rw [List.append_assoc, ← h.future, endFrom_mrtest, endFrom_mrtest, testFrom_round (.inl rfl), testFrom_request hs]
  rfl

end

/-- Acceptance gives legal flags, whatever a free block's flags were before (R72). -/
theorem Status.runningAs_legal {f : Status} (hw : f.wreq = false) (hf : f.fatal = false) (i : Instr) :
    (f.runningAs i.opcode).Legal := by
  constructor <;> simp [Status.runningAs, hw, hf, decodeOpcode_opcode, ErrorCode.code]

/-- An accepted command is at work, and has taken no witness (R72). -/
theorem issuedBlock_atWork {s : State.At W} (ha : s.Accepts) (i : Instr) :
    AtWork i (endFrom i (issuedBlock i s)) [] (issuedBlock i s) := by
  obtain ⟨-, hw, hf⟩ := (accepts_iff s).1 ha
  have hrun := issuedBlock_running i hw
  exact ⟨⟨Status.runningAs_legal hw hf i, hf, fun _ => ⟨i, decodeOpcode_opcode i, hrun⟩⟩, rfl, rfl, hrun, fun _ => rfl⟩

/-! ### The host waits for a command's end (R77, R171) -/

/-- The host's run with another log of reads (log 4). -/
def HostRun.logged (run : HostRun W) (rs : List (ReadBack W)) : HostRun W :=
  { run with block := { run.block with reads := rs } }

/-- The others' turn when a witness is wanted and the source has none left: nothing but the source's look at `STATUS`. -/
theorem othersTurn_sourceEmpty (hW : Config.Admissible W) {run : HostRun W} (hw : run.block.status.wreq = true)
    (hs : run.source = []) : ∃ rs, othersTurn run = ⟨.value (), run.logged rs⟩ := by
  obtain ⟨rs, hrs⟩ := regRead_ofStatus (.source 0) run.block
  have hrest : controllerStep ({ run.block with reads := rs } : State.At W) = .next { run.block with reads := rs } :=
    controllerStep_rest (by simp [phase_run_iff, hw])
  refine ⟨rs, ?_⟩
  rw [othersTurn, sourceTurn]
  simp only [readValue_status, (Status.word_polled hW _).2.2.1, hw, hs, hrs, Ended.andThen, hrest, afterResult, HostRun.logged]

/-- The polls of `wait`, for a property `P` of the polls left and the host's run that the log of reads has no part in and
that the others' turns keep: the wait ends on `DONE = 1`, or the polls are used up. -/
theorem pollStatus_wait_invariant (hW : Config.Admissible W) {P : Nat → HostRun W → Prop}
    (hlog : ∀ n run rs, P n run → P n (run.logged rs))
    (hturn : ∀ n run, P (n + 1) run → run.block.status.done = false →
      ∃ run', othersTurn run = ⟨.value (), run'⟩ ∧ P n run') (n : Nat) : ∀ run, P n run →
    (∃ m run', pollStatus waitPoll n run = ⟨.value (), run'⟩ ∧ P m run' ∧ run'.block.status.done = true) ∨
      ∃ run', pollStatus waitPoll n run = ⟨.failed .unfinished, run'⟩ ∧ P 0 run' := by
  induction n with
  | zero => exact fun run h => .inr ⟨run, rfl, h⟩
  | succ n ih =>
    intro run h
    obtain ⟨rs, hpoll⟩ := pollStatus_wait_succ hW n run
    have hlogged := hlog _ _ rs h
    rw [hpoll]
    cases hd : run.block.status.done with
    | true => exact .inl ⟨n + 1, _, rfl, hlogged, hd⟩
    | false =>
      obtain ⟨run', hothers, h'⟩ := hturn n _ hlogged hd
      have hgo : ((othersTurn { run with block := { run.block with reads := rs } }).andThen fun _ run =>
          pollStatus waitPoll n run) = pollStatus waitPoll n run' := by
        rw [show othersTurn { run with block := { run.block with reads := rs } } = ⟨.value (), run'⟩ from hothers]
        rfl
      simp only [Bool.false_eq_true, if_false, hgo]
      exact ih run' h'

/-- Command `i`, whose end is `F`, has taken its witnesses from `source`, none of them after its end, and runs or has
ended. -/
def Served (i : Instr) (F : List (Word W) → Option (CommandEnd W)) (source : List (Word W)) (run : HostRun W) : Prop :=
  ∃ ws, source = ws ++ run.source ∧ (∀ n < ws.length, F (ws.take n) = none) ∧
    (AtWork i F ws run.block ∨ ∃ r, F ws = some r ∧ Reports r run.block)

section

variable {i : Instr} {F : List (Word W) → Option (CommandEnd W)} {source : List (Word W)} {run : HostRun W}

theorem Served.logged (h : Served i F source run) (rs : List (ReadBack W)) : Served i F source (run.logged rs) := by
  obtain ⟨ws, hsource, hopen, hrun | ⟨r, hr, hrep⟩⟩ := h
  · exact ⟨ws, hsource, hopen, .inl (hrun.logged rs)⟩
  · exact ⟨ws, hsource, hopen, .inr ⟨r, hr, hrep.logged rs⟩⟩

/-- As long as `DONE = 0` the command is at work. -/
theorem Served.atWork (h : Served i F source run) (hd : run.block.status.done = false) :
    ∃ ws, source = ws ++ run.source ∧ (∀ n < ws.length, F (ws.take n) = none) ∧ AtWork i F ws run.block := by
  obtain ⟨ws, hsource, hopen, hrun | ⟨r, -, hrep⟩⟩ := h
  · exact ⟨ws, hsource, hopen, hrun⟩
  · obtain ⟨-, hd', -⟩ := (phase_done_iff _).1 hrep.done
    simp [hd] at hd'

/-- When no witness is wanted, the others' turn is the controller's step. -/
theorem Served.controllerTurn (hW : Config.Admissible W) (h : Served i F source run)
    (hd : run.block.status.done = false) (hw : run.block.status.wreq = false) :
    ∃ rs t, controllerStep ({ run.block with reads := rs } : State.At W) = .next t ∧
      othersTurn run = ⟨.value (), { run with block := t }⟩ ∧ Served i F source { run with block := t } := by
  obtain ⟨ws, hsource, hopen, hrun⟩ := h.atWork hd
  obtain ⟨rs, hothers⟩ := othersTurn_noWitness hW hw
  obtain ⟨t, ht, hnext⟩ := (hrun.logged rs).controllerStep_answers hW ((phase_run_iff _).2 ⟨hrun.busy, hd, hw⟩)
  exact ⟨rs, t, ht, hothers t ht, ws, hsource, hopen, hnext⟩

/-- When a witness is wanted and the source has one, it is taken and the controller makes a step (R139, R142). -/
theorem Served.witnessTurn (hW : Config.Admissible W) {rest : List (Word W)} {a : Word W} (h : Served i F source run)
    (hd : run.block.status.done = false) (hw : run.block.status.wreq = true) (hs : run.source = a :: rest) :
    ∃ b t ws, source = ws ++ a :: rest ∧ AtWork i F (ws ++ [a]) b ∧ b.stage = .witness ∧
      b.status.phase = some .run ∧ controllerStep b = .next t ∧
      othersTurn run = ⟨.value (), { block := t, source := rest }⟩ ∧ Served i F source { block := t, source := rest } := by
  obtain ⟨ws, hsource, hopen, hrun⟩ := h.atWork hd
  obtain ⟨-, -, hnone⟩ := hrun.waits hw
  obtain ⟨rs, hothers⟩ := othersTurn_witness hW hw hs
  have htaken := (hrun.logged rs).witnessTaken hw a
  have hphase := (phase_run_iff _).2 ⟨htaken.busy, htaken.not_done, rfl⟩
  obtain ⟨t, ht, hnext⟩ := htaken.controllerStep_answers hW hphase
  refine ⟨_, t, ws, hs ▸ hsource, htaken, rfl, hphase, ht, hothers t ht, ws ++ [a],
    by simp [hsource, hs], fun n hn => ?_, hnext⟩
  rw [List.length_append, List.length_singleton] at hn
  rcases Nat.lt_or_ge n ws.length with hlt | hge
  · rw [List.take_append_of_le_length hlt.le]
    exact hopen n hlt
  · rw [show n = ws.length by omega, List.take_left]
    exact hnone

/-- The others' turn answers and keeps what is said of a served command. -/
theorem Served.othersTurn_answers (hW : Config.Admissible W) (h : Served i F source run)
    (hd : run.block.status.done = false) :
    ∃ run', othersTurn run = ⟨.value (), run'⟩ ∧ Served i F source run' := by
  cases hw : run.block.status.wreq with
  | false =>
    obtain ⟨_, t, -, hothers, hserved⟩ := h.controllerTurn hW hd hw
    exact ⟨_, hothers, hserved⟩
  | true =>
    cases hs : run.source with
    | nil =>
      obtain ⟨rs, hothers⟩ := othersTurn_sourceEmpty hW hw hs
      exact ⟨_, hothers, h.logged rs⟩
    | cons a rest =>
      obtain ⟨_, t, _, -, -, -, -, -, hothers, hserved⟩ := h.witnessTurn hW hd hw hs
      exact ⟨_, hothers, hserved⟩

end

/-! ### A call form, run (R78, R170) -/

/-- The host's run when a call form's operands are written and its command is accepted (R72, R78). -/
def issuedRun (form : CallForm W) (run : HostRun W) : HostRun W :=
  { run with block := issuedBlock form.instr (form.load run.block) }

/-- How the command of a call form ends, by the witnesses it takes. -/
def formEnd (form : CallForm W) (run : HostRun W) : List (Word W) → Option (CommandEnd W) :=
  endFrom form.instr (issuedRun form run).block

/-- From `run` to `run'` the host has run a call form, and its command has ended as `r`. -/
structure FormEnds (form : CallForm W) (run : HostRun W) (r : CommandEnd W) (run' : HostRun W) : Prop where
  reports : Reports r run'.block
  taken : ∃ ws, run.source = ws ++ run'.source ∧ (∀ n < ws.length, formEnd form run (ws.take n) = none) ∧
    formEnd form run ws = some r

/-- After a call form the block is free for the next command (R193). -/
theorem FormEnds.accepts {form : CallForm W} {run run' : HostRun W} {r : CommandEnd W} (h : FormEnds form run r run') :
    run'.block.Accepts :=
  ⟨.inr h.reports.done, h.reports.notFatal⟩

/-- What the host answers for an end of its command, `f` being what it makes of the values (R170). -/
def CommandEnd.answer {α : Type} (f : Word W × Option (Word W) × Option (Word W) → α) : CommandEnd W → HostResult α
  | .ok v => .value (f v)
  | .error e => .failed (.blockError e.code)

/-- Writing the operands of a call form does not touch the flags. -/
theorem CallForm.load_accepts {s : State.At W} (ha : s.Accepts) (form : CallForm W) : (form.load s).Accepts := by
  cases form <;> exact ha

/-- A call form's command, issued on a free block, is served. -/
theorem issuedRun_served {run : HostRun W} (ha : run.block.Accepts) (form : CallForm W) :
    Served form.instr (formEnd form run) run.source (issuedRun form run) :=
  ⟨[], rfl, by simp, .inl (issuedBlock_atWork (form.load_accepts ha) _)⟩

/-- The host's look at `STATUS` after a call form (R170). -/
def errorLook (run : HostRun W) : Ended W Unit :=
  (hostRead .status run).andThen fun word run =>
    if word.getLsbD 2 then ⟨.failed (.blockError (word.extractLsb' 8 4)), run⟩ else ⟨.value (), run⟩

/-- A call form is the wait for its command, and the host's look at `STATUS` (R78). -/
theorem runForm_eq (hW : Config.Admissible W) {form : CallForm W} {run : HostRun W} (polls : Nat) (ha : run.block.Accepts)
    (hform : ∀ n k ws, form = .mrtest n k ws → ws = []) :
    runForm polls form run = (pollStatus waitPoll polls (issuedRun form run)).andThen fun _ => errorLook := by
  obtain ⟨hb, -, hf⟩ := (accepts_iff _).1 ha
  rw [runForm, runLines_expand hW polls hb hf hform]
  rfl

/-- The host's look at `STATUS` after a command reports its error, or nothing. -/
theorem errorLook_reports (hW : Config.Admissible W) {r : CommandEnd W} {run : HostRun W} (h : Reports r run.block) :
    ∃ rs, errorLook run = ⟨r.answer fun _ => (), run.logged rs⟩ := by
  obtain ⟨rs, hrs⟩ := regRead_ofStatus (.host 0) run.block
  obtain ⟨-, herr, -, hcode⟩ := Status.word_polled hW run.block.status
  refine ⟨rs, ?_⟩
  simp only [errorLook, hostRead, Ended.andThen, readValue_status, herr, hcode, hrs]
  cases r with
  | error e =>
    obtain ⟨he, hc⟩ := h.error e rfl
    rw [he, hc]
    rfl
  | ok v =>
    obtain ⟨he, -⟩ := h.value _ _ _ rfl
    rw [he]
    rfl

/-- A call form on a free block: its polls are used up, or it answers its command's end. -/
theorem runForm_cases (hW : Config.Admissible W) {form : CallForm W} {run : HostRun W} (polls : Nat)
    (ha : run.block.Accepts) (hform : ∀ n k ws, form = .mrtest n k ws → ws = []) :
    (∃ run', pollStatus waitPoll polls (issuedRun form run) = ⟨.failed .unfinished, run'⟩ ∧
      runForm polls form run = ⟨.failed .unfinished, run'⟩) ∨
    ∃ r run', runForm polls form run = ⟨r.answer fun _ => (), run'⟩ ∧ FormEnds form run r run' := by
  rw [runForm_eq hW polls ha hform]
  obtain ⟨_, run', hpoll, ⟨ws, hsource, hopen, hend⟩, hd⟩ | ⟨run', hpoll, -⟩ :=
    pollStatus_wait_invariant (P := fun _ => Served form.instr (formEnd form run) run.source) hW
      (fun _ _ rs h => h.logged rs) (fun _ _ h hd => h.othersTurn_answers hW hd) polls _ (issuedRun_served ha form)
  · obtain hrun | ⟨r, hr, hrep⟩ := hend
    · simp [hrun.not_done] at hd
    · obtain ⟨rs, hlook⟩ := errorLook_reports hW hrep
      rw [hpoll]
      exact .inr ⟨r, _, hlook, hrep.logged rs, ws, hsource, hopen, hr⟩
  · rw [hpoll]
    exact .inl ⟨run', rfl, rfl⟩

/-- The same with the value of `RES0`. -/
theorem runForRes0_cases (hW : Config.Admissible W) {form : CallForm W} {run : HostRun W} (polls : Nat)
    (ha : run.block.Accepts) (hform : ∀ n k ws, form = .mrtest n k ws → ws = []) :
    (∃ run', pollStatus waitPoll polls (issuedRun form run) = ⟨.failed .unfinished, run'⟩ ∧
      runForRes0 polls form run = ⟨.failed .unfinished, run'⟩) ∨
    ∃ r run', runForRes0 polls form run = ⟨r.answer Prod.fst, run'⟩ ∧ FormEnds form run r run' := by
  rw [runForRes0]
  obtain ⟨run', hpoll, hform⟩ | ⟨r, run', hform, hends⟩ := runForm_cases hW polls ha hform
  · rw [hform]
    exact .inl ⟨run', hpoll, rfl⟩
  · rw [hform]
    right
    cases r with
    | error e => exact ⟨.error e, run', rfl, hends⟩
    | ok v =>
      obtain ⟨hrep, htaken⟩ := hends
      obtain ⟨-, hres0, -⟩ := hrep.value _ _ _ rfl
      obtain ⟨hb, -, -⟩ := (phase_done_iff _).1 hrep.done
      obtain ⟨rs, hread⟩ := hostRead_result (r := .res0) (.inl rfl) hb
      rw [if_pos rfl, hres0] at hread
      exact ⟨.ok v, _, hread, hrep.logged rs, htaken⟩

end Sys2Proof.Machine

namespace Sys2Proof.Machine

variable {W : Nat}

open Contracts (privateExponent privateExponentWord)

/-! ### The exponent `d` of a key (R166) -/

/-- The coefficient that `XGCD e, phi` gives `e` lies within `phi` of 0 on both sides (R96). -/
theorem xgcd_coefficient_lt {e phi : Nat} (hphi : 1 < phi) (hg : Nat.gcd e phi = 1) :
    (Reference.xgcd e phi).2.1.natAbs < phi := by
  obtain ⟨-, -, hbound, -⟩ := xgcd_spec e phi
  rw [hg] at hbound
  obtain ⟨hx, -⟩ := hbound Nat.one_pos
  rcases le_max_iff.1 hx with h | h <;> omega

/-- The residue of that coefficient is below `phi` and inverts `e` (R95, R166). -/
theorem privateExponent_inverts {e phi : Nat} (hphi : 1 < phi) (hg : Nat.gcd e phi = 1) :
    privateExponent (Reference.xgcd e phi).2.1 phi < phi ∧
      privateExponent (Reference.xgcd e phi).2.1 phi * e % phi = 1 := by
  obtain ⟨-, hidentity, -, -⟩ := xgcd_spec e phi
  rw [hg] at hidentity
  have hpos : (0 : Int) < phi := by omega
  have hnonneg := Int.emod_nonneg (Reference.xgcd e phi).2.1 hpos.ne'
  have hlt := Int.emod_lt_of_pos (Reference.xgcd e phi).2.1 hpos
  have hcast : ((privateExponent (Reference.xgcd e phi).2.1 phi : Nat) : Int) = (Reference.xgcd e phi).2.1 % phi :=
    Int.toNat_of_nonneg hnonneg
  refine ⟨by omega, ?_⟩
  have hinverse : ((privateExponent (Reference.xgcd e phi).2.1 phi * e : Nat) : Int) % phi = 1 := by
    calc ((privateExponent (Reference.xgcd e phi).2.1 phi * e : Nat) : Int) % phi
        = (Reference.xgcd e phi).2.1 % phi * e % phi := by rw [Nat.cast_mul, hcast]
      _ = (Reference.xgcd e phi).2.1 * e % phi := (Int.mod_modEq _ _).mul_right _
      _ = (1 - phi * (Reference.xgcd e phi).2.2) % phi := by congr 1; linear_combination hidentity
      _ = 1 % phi := Int.sub_mul_emod_self_left _ _ _
      _ = 1 := Int.emod_eq_of_lt (by omega) (by omega)
  exact_mod_cast hinverse

/-- The host's word of a residue: for a value within `phi` of 0 that a word of two's complement holds, adding `phi` when
the sign bit is set gives its residue (R166). -/
theorem privateExponentWord_toNat {x : Int} {phi : Word W} (hx : sval (tc x : Word W) = x) (hsize : x.natAbs < phi.toNat) :
    (privateExponentWord (tc x) phi).toNat = privateExponent x phi.toNat := by
  have hphi := phi.isLt
  have hword := (tc x : Word W).isLt
  rw [sval] at hx
  rw [privateExponentWord, privateExponent]
  cases hsign : (tc x : Word W).getLsbD (W - 1) with
  | true =>
    rw [hsign, if_pos rfl, ← Nat.cast_ofNat, ← Nat.cast_pow] at hx
    rw [if_pos rfl, ← Int.add_emod_right, Int.emod_eq_of_lt (by omega) (by omega), BitVec.toNat_add,
      Nat.mod_eq_sub_mod (by omega), Nat.mod_eq_of_lt (by omega)]
    omega
  | false =>
    rw [hsign, if_neg (by decide)] at hx
    rw [if_neg (by decide), Int.emod_eq_of_lt (by omega) (by omega)]
    omega

/-- At every width the word computed from `RES1` after `XGCD e, phi` is that residue (R166). -/
theorem privateExponentWord_residue (hW : Config.Admissible W) {e phi : Word W} (hphi : 1 < phi.toNat)
    (hg : Nat.gcd e.toNat phi.toNat = 1) :
    (privateExponentWord (tc (Reference.xgcd e.toNat phi.toNat).2.1) phi).toNat =
      privateExponent (Reference.xgcd e.toNat phi.toNat).2.1 phi.toNat :=
  privateExponentWord_toNat (sval_tc_xgcd hW e phi).1 (xgcd_coefficient_lt hphi hg)

/-- Settles O52: the word is the residue of the coefficient, which inverts `e` by the identity of R95. -/
theorem privateExponentInvertsE : Obligations.PrivateExponentInvertsE := by
  intro e phi hphi hg
  have hword := privateExponentWord_residue admissible_reference hphi hg
  refine ⟨hword, ?_⟩
  rw [hword]
  exact privateExponent_inverts hphi hg

end Sys2Proof.Machine

namespace Sys2Proof.Machine

variable {W : Nat}

open Contracts (KeyPair Limits privateExponentWord keyFromPrimes encryptUnit decryptUnit encryptUnits decryptUnits eachUnit)

/-! ### What the call forms of `GCD`, `XGCD` and `POWMOD` answer (R91, R95, R115) -/

/-- A call form that answers a value of `RES0` has ended normally with it. -/
theorem runForRes0_value (hW : Config.Admissible W) {form : CallForm W} {run run' : HostRun W} {polls : Nat} {v : Word W}
    (ha : run.block.Accepts) (hform : ∀ n k ws, form = .mrtest n k ws → ws = [])
    (h : runForRes0 polls form run = ⟨.value v, run'⟩) : ∃ r1 r2, FormEnds form run (.ok (v, r1, r2)) run' := by
  obtain ⟨_, -, hx⟩ | ⟨r, _, hx, hends⟩ := runForRes0_cases hW polls ha hform
  · cases h.symm.trans hx
  · obtain _ | ⟨r0, r1, r2⟩ := r
    · cases h.symm.trans hx
    · cases h.symm.trans hx
      exact ⟨r1, r2, hends⟩

/-- A call form that answers without an error has ended normally. -/
theorem runForm_value (hW : Config.Admissible W) {form : CallForm W} {run run' : HostRun W} {polls : Nat}
    (ha : run.block.Accepts) (hform : ∀ n k ws, form = .mrtest n k ws → ws = [])
    (h : runForm polls form run = ⟨.value (), run'⟩) : ∃ v, FormEnds form run (.ok v) run' := by
  obtain ⟨_, -, hx⟩ | ⟨r, _, hx, hends⟩ := runForm_cases hW polls ha hform
  · cases h.symm.trans hx
  · obtain _ | v := r
    · cases h.symm.trans hx
    · cases h.symm.trans hx
      exact ⟨v, hends⟩

/-- A command that takes no witness leaves the source as it is, and ends as its operands have it (R41). -/
theorem FormEnds.of_unwitnessed {form : CallForm W} {run run' : HostRun W} {r : CommandEnd W} (hi : form.instr ≠ .mrtest)
    (h : FormEnds form run r run') :
    run'.source = run.source ∧ r = unwitnessedEnd form.instr (form.load run.block).opa (form.load run.block).opb
      (form.load run.block).opm (form.load run.block).rounds := by
  obtain ⟨-, ws, hsource, hopen, hend⟩ := h
  have hall : ∀ us, formEnd form run us = some _ := endFrom_unwitnessed hi _
  obtain rfl : ws = [] := List.eq_nil_of_length_eq_zero (by
    by_contra hne
    cases (hall _).symm.trans (hopen 0 (Nat.pos_of_ne_zero hne)))
  exact ⟨hsource.symm, (Option.some.inj ((hall _).symm.trans hend)).symm⟩

/-- What `GCD` answers is the greatest common divisor (R91). -/
theorem gcdForm_value (hW : Config.Admissible W) {a b g : Word W} {run run' : HostRun W} {polls : Nat}
    (ha : run.block.Accepts) (h : runForRes0 polls (.gcd a b) run = ⟨.value g, run'⟩) :
    g.toNat = Nat.gcd a.toNat b.toNat ∧ run'.source = run.source ∧ run'.block.Accepts := by
  obtain ⟨r1, r2, hends⟩ := runForRes0_value hW ha (by simp) h
  obtain ⟨hsource, hr⟩ := hends.of_unwitnessed (by simp [CallForm.instr])
  cases hr
  exact ⟨word_gcd_toNat a b, hsource, hends.accepts⟩

/-- What `XGCD` leaves in `RES1` is the first coefficient of the recurrence (R95). -/
theorem xgcdForm_value (hW : Config.Admissible W) {a b : Word W} {run run' : HostRun W} {polls : Nat}
    (ha : run.block.Accepts) (h : runForm polls (.xgcd a b) run = ⟨.value (), run'⟩) :
    run'.block.res1 = tc (Reference.xgcd a.toNat b.toNat).2.1 ∧ run'.block.status.busy = false := by
  obtain ⟨v, hends⟩ := runForm_value hW ha (by simp) h
  obtain ⟨-, hr⟩ := hends.of_unwitnessed (by simp [CallForm.instr])
  cases hr
  obtain ⟨-, -, hres1⟩ := hends.reports.value _ _ _ rfl
  exact ⟨hres1 _ rfl, ((phase_done_iff _).1 hends.reports.done).1⟩

/-! ### How many turns a `POWMOD` takes (R114) -/

/-- Halving drops one bit. -/
theorem size_half_lt {n : Nat} (hn : n ≠ 0) : Nat.size (n / 2) < Nat.size n := by
  have hpos : 0 < Nat.size n := Nat.size_pos.2 (Nat.pos_of_ne_zero hn)
  have hlt := Nat.lt_size_self n
  have hpow : 2 ^ Nat.size n = 2 ^ (Nat.size n - 1) * 2 := by rw [← pow_succ, Nat.sub_add_cancel hpos]
  have hle : Nat.size (n / 2) ≤ Nat.size n - 1 := Nat.size_le.2 (by omega)
  omega

/-- The controller's turns that a `POWMOD` has still to take: its entry, one for each bit of the exponent, its exit. -/
def powmodTurns (s : State.At W) : Nat :=
  if s.status.done then 0
  else
    match s.stage with
    | .entry => W + 2
    | _ => Nat.size s.work.pe.toNat + 1

/-- Each turn of a `POWMOD` is one less to take. -/
theorem iterPowmod_turns {s t : State.At W} (hr : s.Running .powmod) (hd : s.status.done = false)
    (ht : iterPowmod s = .next t) : powmodTurns t < powmodTurns s := by
  obtain ⟨-, hr⟩ := hr
  rw [iterPowmod] at ht
  cases hs : s.stage <;> simp only [hs] at hr ht
  case entry =>
    have hsize : Nat.size s.work.pe.toNat ≤ W := Nat.size_le.2 s.work.pe.isLt
    split at ht <;> obtain rfl := Host.Outcome.next.inj ht
    · simp [powmodTurns, hd, hs]
    · simp [powmodTurns, hd, hs]
      omega
  case power =>
    split at ht <;> obtain rfl := Host.Outcome.next.inj ht
    · simp [powmodTurns, hd, hs]
    · rename_i hz
      have hhalf := size_half_lt (word_pos hz).ne'
      simpa [powmodTurns, hd, hs, word_half_toNat, -BitVec.toNat_ofNat] using hhalf

/-- A call form of `POWMOD` begun in `run` is served, and fewer than `n` turns are left to take. -/
def PowmodWithin (b e m : Word W) (run : HostRun W) (n : Nat) (run' : HostRun W) : Prop :=
  Served .powmod (formEnd (.powmod b e m) run) run.source run' ∧ powmodTurns run'.block < n

/-- One turn of the others is one less to take. -/
theorem PowmodWithin.othersTurn (hW : Config.Admissible W) {b e m : Word W} {run run' : HostRun W} {n : Nat}
    (h : PowmodWithin b e m run (n + 1) run') (hd : run'.block.status.done = false) :
    ∃ run'', othersTurn run' = ⟨.value (), run''⟩ ∧ PowmodWithin b e m run n run'' := by
  obtain ⟨hserved, hleft⟩ := h
  obtain ⟨ws, -, -, hrun⟩ := hserved.atWork hd
  have hw : run'.block.status.wreq = false := by
    by_contra hw
    cases (hrun.waits (by simpa using hw)).1
  obtain ⟨rs, t, ht, hothers, hserved'⟩ := hserved.controllerTurn hW hd hw
  have hlogged := hrun.logged rs
  have hiter := controllerStep_run ((phase_run_iff _).2 ⟨hlogged.busy, hd, hw⟩) hlogged.opcode
  have hless := iterPowmod_turns hlogged.running hd (hiter.symm.trans ht)
  exact ⟨_, hothers, hserved', lt_of_lt_of_le hless (Nat.le_of_lt_succ hleft)⟩

/-- With `W + 3` polls the call form of `POWMOD` answers: its power, or the error of the modulus 0 (R115, R170). -/
theorem powmodForm_answers (hW : Config.Admissible W) {run : HostRun W} {polls : Nat} (ha : run.block.Accepts)
    (hpolls : W + 3 ≤ polls) (b e m : Word W) :
    ∃ run', run'.block.Accepts ∧ runForRes0 polls (.powmod b e m) run =
      ⟨CommandEnd.answer Prod.fst (if m = 0 then .error .argModulus
        else .ok (BitVec.ofNat W (b.toNat ^ e.toNat % m.toNat), none, none)), run'⟩ := by
  obtain ⟨run', hpoll, -⟩ | ⟨r, run', hx, hends⟩ := runForRes0_cases hW polls ha (form := .powmod b e m) (by simp)
  · have hbegin : PowmodWithin b e m run polls (issuedRun (.powmod b e m) run) := ⟨issuedRun_served ha _, hpolls⟩
    obtain ⟨_, _, hpoll', -⟩ | ⟨_, -, -, hleft⟩ := pollStatus_wait_invariant (P := PowmodWithin b e m run) hW
      (fun _ _ rs ⟨hserved, hrest⟩ => ⟨hserved.logged rs, hrest⟩) (fun _ _ h hd => h.othersTurn hW hd) polls _ hbegin
    · cases hpoll.symm.trans hpoll'
    · omega
  · obtain ⟨-, rfl⟩ := hends.of_unwitnessed (by simp [CallForm.instr])
    exact ⟨run', hends.accepts, hx⟩

/-! ### The key made from two primes (R164 to R167) -/

/-- Steps 3 to 6 of key generation: the products are exact, and `d` is the normalised inverse of `e`. -/
theorem keyFromPrimes_value (hW : Config.Admissible W) {limits : Limits} {p q e : Word W} {run run' : HostRun W}
    {key : KeyPair W} (ha : run.block.Accepts) (hfit : p.toNat * q.toNat < 2 ^ W)
    (hphi : 1 < (p.toNat - 1) * (q.toNat - 1)) (h : keyFromPrimes limits p q e run = ⟨.value key, run'⟩) :
    key.n.toNat = p.toNat * q.toNat ∧ key.e = e ∧ Nat.gcd e.toNat ((p.toNat - 1) * (q.toNat - 1)) = 1 ∧
      key.d.toNat < (p.toNat - 1) * (q.toNat - 1) ∧ key.d.toNat * e.toNat % ((p.toNat - 1) * (q.toNat - 1)) = 1 := by
  have hle : (p.toNat - 1) * (q.toNat - 1) ≤ p.toNat * q.toNat := Nat.mul_le_mul (Nat.sub_le _ _) (Nat.sub_le _ _)
  have hword : (BitVec.ofNat W ((p.toNat - 1) * (q.toNat - 1))).toNat = (p.toNat - 1) * (q.toNat - 1) :=
    word_ofNat_toNat (lt_of_le_of_lt hle hfit)
  rw [keyFromPrimes] at h
  generalize BitVec.ofNat W ((p.toNat - 1) * (q.toNat - 1)) = phi at h hword
  obtain ⟨g, run₁, hgcd, h⟩ := Ended.andThen_eq_value h
  obtain ⟨hg, -, ha₁⟩ := gcdForm_value hW ha hgcd
  split at h
  · rename_i hone
    rw [hone, word_one_toNat hW] at hg
    obtain ⟨_, run₂, hxgcd, h⟩ := Ended.andThen_eq_value h
    obtain ⟨hres1, hb⟩ := xgcdForm_value hW ha₁ hxgcd
    obtain ⟨rs, hread⟩ := hostRead_result (r := .res1) (.inr rfl) hb
    rw [hread, if_neg (by decide), hres1] at h
    cases h
    rw [← hword] at hphi ⊢
    obtain ⟨hlt, hinv⟩ := privateExponent_inverts hphi hg.symm
    rw [← privateExponentWord_residue hW hphi hg.symm] at hlt hinv
    exact ⟨word_ofNat_toNat hfit, rfl, hg.symm, hlt, hinv⟩
  · cases h

/-! ### The cipher (R169) -/

/-- Raising to a power that is 1 modulo `p - 1` changes nothing modulo the prime `p`. -/
theorem pow_modEq_self {p : Nat} (hp : p.Prime) (v m : Nat) : v ^ ((p - 1) * m + 1) ≡ v [MOD p] := by
  have := Fact.mk hp
  rw [← ZMod.natCast_eq_natCast_iff, Nat.cast_pow]
  by_cases hv : (v : ZMod p) = 0
  · rw [hv, zero_pow (Nat.succ_ne_zero _)]
  · rw [pow_succ, pow_mul, ZMod.pow_card_sub_one_eq_one hv, one_pow, one_mul]

/-- Exponents that are inverse modulo `(p - 1)(q - 1)` undo each other modulo `p * q`. -/
theorem cipher_inverts {p q e d v : Nat} (hp : p.Prime) (hq : q.Prime) (hne : p ≠ q)
    (hd : d * e % ((p - 1) * (q - 1)) = 1) (hv : v < p * q) : (v ^ e % (p * q)) ^ d % (p * q) = v := by
  have hdiv := Nat.div_add_mod (d * e) ((p - 1) * (q - 1))
  rw [hd, mul_comm d e] at hdiv
  obtain ⟨m, hm⟩ : ∃ m, e * d = (p - 1) * (q - 1) * m + 1 := ⟨_, hdiv.symm⟩
  have hmodp : v ^ (e * d) ≡ v [MOD p] := by
    rw [hm, mul_assoc]
    exact pow_modEq_self hp v _
  have hmodq : v ^ (e * d) ≡ v [MOD q] := by
    rw [hm, mul_comm (p - 1), mul_assoc]
    exact pow_modEq_self hq v _
  have hmod := (Nat.modEq_and_modEq_iff_modEq_mul ((Nat.coprime_primes hp hq).2 hne)).1 ⟨hmodp, hmodq⟩
  rw [← Nat.pow_mod, ← pow_mul]
  exact Nat.mod_eq_of_modEq hmod hv

/-- `f` on every unit, when it is what the block answers for each of them. -/
theorem eachUnit_answers {unit : Word W → HostRun W → Ended W (Word W)} {f : Word W → Word W} (xs : List (Word W)) :
    (∀ x ∈ xs, ∀ run : HostRun W, run.block.Accepts →
      ∃ run', run'.block.Accepts ∧ unit x run = ⟨.value (f x), run'⟩) →
    ∀ run : HostRun W, run.block.Accepts →
      ∃ run', run'.block.Accepts ∧ eachUnit unit xs run = ⟨.value (xs.map f), run'⟩ := by
  induction xs with
  | nil => exact fun _ run ha => ⟨run, ha, rfl⟩
  | cons x rest ih =>
    intro hunit run ha
    obtain ⟨run₁, ha₁, hx⟩ := hunit x List.mem_cons_self run ha
    obtain ⟨run₂, ha₂, hrest⟩ := ih (fun y hy => hunit y (List.mem_cons_of_mem x hy)) run₁ ha₁
    refine ⟨run₂, ha₂, ?_⟩
    rw [eachUnit, hx]
    simp only [Ended.andThen, hrest, List.map_cons]

/-- A unit, deciphered (R169): `encryptUnit` does the same after its check. -/
theorem decryptUnit_answers (hW : Config.Admissible W) {limits : Limits} {run : HostRun W} (ha : run.block.Accepts)
    (hpolls : W + 3 ≤ limits.polls) {n : Word W} (hn : n ≠ 0) (c d : Word W) :
    ∃ run', run'.block.Accepts ∧
      decryptUnit limits c d n run = ⟨.value (BitVec.ofNat W (c.toNat ^ d.toNat % n.toNat)), run'⟩ := by
  obtain ⟨run', ha', hx⟩ := powmodForm_answers hW ha hpolls c d n
  rw [if_neg hn] at hx
  exact ⟨run', ha', hx⟩

/-- Settles O53: each unit is one `POWMOD`, and the exponents are inverse to each other. -/
theorem cipherRoundTrip : Obligations.CipherRoundTrip := by
  intro W hW p q e limits limits' run₀ run₀' run key hp hq hne hfit ha₀ hkey ha hpolls values hdomain
  have hphi : 1 < (p.toNat - 1) * (q.toNat - 1) := by
    have hne' : p.toNat ≠ q.toNat := fun h => hne (BitVec.eq_of_toNat_eq h)
    have hp2 := hp.two_le
    have hq2 := hq.two_le
    have : 2 ≤ p.toNat - 1 ∧ 1 ≤ q.toNat - 1 ∨ 1 ≤ p.toNat - 1 ∧ 2 ≤ q.toNat - 1 := by omega
    rcases this with ⟨h1, h2⟩ | ⟨h1, h2⟩ <;> nlinarith
  obtain ⟨hn, rfl, -, -, hinv⟩ := keyFromPrimes_value hW ha₀ hfit hphi hkey
  have hn0 : key.n ≠ 0 := fun h => by
    rw [h] at hn
    exact (Nat.mul_pos hp.pos hq.pos).ne hn
  obtain ⟨run₁, ha₁, hencrypt⟩ := eachUnit_answers (unit := fun v => encryptUnit limits v key.e key.n)
    (f := fun v => BitVec.ofNat W (v.toNat ^ key.e.toNat % key.n.toNat)) values
    (fun v hv run ha => by
      rw [encryptUnit, if_neg (Nat.not_le.2 (hdomain v hv))]
      exact decryptUnit_answers hW ha hpolls hn0 v key.e) run ha
  obtain ⟨run₂, -, hdecrypt⟩ := eachUnit_answers (unit := fun c => decryptUnit limits c key.d key.n)
    (values.map fun v => BitVec.ofNat W (v.toNat ^ key.e.toNat % key.n.toNat))
    (fun c _ run ha => decryptUnit_answers hW ha hpolls hn0 c key.d) run₁ ha₁
  refine ⟨_, run₁, run₂, hencrypt, ?_, ?_⟩
  · rw [List.map_map]
    exact List.map_congr_left fun v _ => word_residue_toNat hn0 _
  · have hback : (values.map fun v => BitVec.ofNat W (v.toNat ^ key.e.toNat % key.n.toNat)).map
        (fun c => BitVec.ofNat W (c.toNat ^ key.d.toNat % key.n.toNat)) = values := by
      rw [List.map_map]
      refine (List.map_congr_left fun v hv => ?_).trans (List.map_id values)
      have hv := hdomain v hv
      apply BitVec.eq_of_toNat_eq
      simp only [Function.comp_apply, word_residue_toNat hn0]
      rw [hn] at hv ⊢
      exact cipher_inverts hp hq (fun h => hne (BitVec.eq_of_toNat_eq h)) hinv hv
    rw [decryptUnits, hdecrypt, hback]

end Sys2Proof.Machine

namespace Sys2Proof.Machine

variable {W : Nat}

open Contracts (KeyPair Limits CandidateInRange candidateFromDraw drawCandidate leavesRange candidatePasses primeSearch
  generatePrime acceptablePrime generateKeyPair)
open Reference (mrTest)

/-! ### Candidates (R161, R163) -/

/-- Bits `b - 1` and 0 of a candidate are set whatever is drawn, and it has no bit above (R161). -/
theorem candidateFromDraw_inRange {b : Nat} (hb : 2 ≤ b) (hbW : b ≤ W) (x : Word W) :
    CandidateInRange b (candidateFromDraw b x).toNat := by
  have hpow : 2 ^ (b - 1) < 2 ^ b := Nat.pow_lt_pow_right (by norm_num) (by omega)
  have hlt : x.toNat % 2 ^ b ||| 2 ^ (b - 1) ||| 1 < 2 ^ b :=
    Nat.or_lt_two_pow (Nat.or_lt_two_pow (Nat.mod_lt _ (by positivity)) hpow) (Nat.one_lt_two_pow (by omega))
  rw [candidateFromDraw, word_ofNat_toNat (lt_of_lt_of_le hlt (Nat.pow_le_pow_right (by norm_num) hbW))]
  exact ⟨Nat.or_mod_two_eq_one.2 (.inr rfl), Nat.right_le_or.trans Nat.left_le_or, hlt⟩

/-- The next odd candidate, when the range has room for it, is in the range (R161). -/
theorem next_candidate_inRange (hW : Config.Admissible W) {b : Nat} {c : Word W} (hbW : b ≤ W)
    (hc : CandidateInRange b c.toNat) (hleaves : leavesRange b c = false) : CandidateInRange b (c + 2).toNat := by
  obtain ⟨hodd, hlow, hhigh⟩ := hc
  have hroom := admissible_room hW
  have hle : 2 ^ b ≤ 2 ^ W := Nat.pow_le_pow_right (by norm_num) hbW
  have hnext : c.toNat + 2 < 2 ^ b := by
    rw [leavesRange] at hleaves
    split at hleaves
    · rename_i hb
      subst hb
      have := of_decide_eq_false hleaves
      omega
    · have := of_decide_eq_false hleaves
      omega
  have htwo : (2 : Word W).toNat = 2 := word_ofNat_toNat (lt_of_lt_of_le (by norm_num) hroom)
  have hsum : (c + 2).toNat = c.toNat + 2 := by rw [BitVec.toNat_add, htwo, Nat.mod_eq_of_lt (by omega)]
  rw [hsum]
  exact ⟨by omega, by omega, hnext⟩

/-- A candidate in the range has exactly `b` bits (R163). -/
theorem size_of_inRange {b c : Nat} (hb : 0 < b) (hc : CandidateInRange b c) : Nat.size c = b := by
  obtain ⟨-, hlow, hhigh⟩ := hc
  have hle := Nat.size_le.2 hhigh
  have hlt := Nat.lt_size.2 hlow
  omega

/-- A draw takes one value of the source, and makes a candidate in the range of it. -/
theorem drawCandidate_value {b : Nat} (hb : 2 ≤ b) (hbW : b ≤ W) {c : Word W} {run run' : HostRun W}
    (h : drawCandidate b run = ⟨.value c, run'⟩) :
    CandidateInRange b c.toNat ∧ run'.block = run.block ∧ run'.source <:+ run.source := by
  rw [drawCandidate] at h
  split at h
  · cases h
  · rename_i x rest hs
    cases h
    exact ⟨candidateFromDraw_inRange hb hbW x, rfl, hs ▸ List.suffix_cons x rest⟩

/-! ### The search for a prime (R160, R161) -/

/-- An `MRTEST` on witnesses among `source` has called `n` probably prime in `k` rounds (R141). -/
def CalledPrime (k : Nat) (source : List (Word W)) (n : Nat) : Prop :=
  ∃ ws, ws <:+: source ∧ ∃ j, mrTest n k (ws.map BitVec.toNat) = .verdict true j

theorem CalledPrime.of_suffix {k n : Nat} {source source' : List (Word W)} (h : CalledPrime k source' n)
    (hs : source' <:+ source) : CalledPrime k source n := by
  obtain ⟨ws, hws, hj⟩ := h
  exact ⟨ws, hws.trans hs.isInfix, hj⟩

theorem mrtestForm_witnesses {c k : Word W} : ∀ n k' ws, CallForm.mrtest c k [] = .mrtest n k' ws → ws = [] := by
  rintro _ _ _ ⟨⟩
  rfl

/-- How the call form of `MRTEST` ends, by its test (R141). -/
theorem formEnd_mrtest (c k : Word W) (run : HostRun W) (ws : List (Word W)) :
    formEnd (.mrtest c k []) run ws = testCommandEnd (mrTest c.toNat k.toNat (ws.map BitVec.toNat)) := by
  rw [formEnd, issuedRun, CallForm.instr, endFrom_mrtest, testFrom_issuedBlock]
  rfl

/-- An `MRTEST` that ends with 1 in `RES0` has called its candidate probably prime. -/
theorem FormEnds.calledPrime (hW : Config.Admissible W) {c k : Word W} {run run' : HostRun W} {r1 r2 : Option (Word W)}
    (h : FormEnds (.mrtest c k []) run (.ok (1, r1, r2)) run') : CalledPrime k.toNat run.source c.toNat := by
  obtain ⟨-, ws, hsource, -, hend⟩ := h
  refine ⟨ws, hsource ▸ (List.prefix_append ws run'.source).isInfix, ?_⟩
  rw [formEnd_mrtest] at hend
  cases htest : mrTest c.toNat k.toNat (ws.map BitVec.toNat) with
  | error e => rw [htest] at hend; cases hend
  | waiting j => rw [htest] at hend; cases hend
  | verdict v j =>
    rw [htest] at hend
    cases v with
    | true => exact ⟨j, rfl⟩
    | false =>
      have hzero : (0 : Word W) = 1 := congrArg Prod.fst (Except.ok.inj (Option.some.inj hend))
      exact absurd hzero.symm (word_one_ne_zero hW)

/-- One test of a candidate: the block is free again, the source has given witnesses from its front, and a candidate that
passes was called probably prime. -/
theorem candidatePasses_value (hW : Config.Admissible W) {limits : Limits} {c k : Word W} {run run' : HostRun W} {v : Bool}
    (ha : run.block.Accepts) (h : candidatePasses limits c k run = ⟨.value v, run'⟩) :
    run'.block.Accepts ∧ run'.source <:+ run.source ∧ (v = true → CalledPrime k.toNat run.source c.toNat) := by
  rw [candidatePasses, isprimeForm] at h
  obtain ⟨_, -, hx⟩ | ⟨r, run₁, hx, hends⟩ := runForRes0_cases hW limits.polls ha mrtestForm_witnesses
  · rw [hx] at h
    simp [HostResult.isBlockError, Ended.andThen] at h
  · have hsuffix : run₁.source <:+ run.source := by
      obtain ⟨ws, hsource, -⟩ := hends.taken
      exact ⟨ws, hsource.symm⟩
    rw [hx] at h
    obtain e | ⟨r0, r1, r2⟩ := r
    · simp only [CommandEnd.answer, HostResult.isBlockError, Bool.true_and] at h
      split at h
      · cases h
        exact ⟨hends.accepts, hsuffix, nofun⟩
      · cases h
    · cases h
      refine ⟨hends.accepts, hsuffix, fun hv => ?_⟩
      obtain rfl : r0 = 1 := beq_iff_eq.1 hv
      exact hends.calledPrime hW

/-- What a search from a candidate of `b` bits answers. -/
theorem primeSearch_value (hW : Config.Admissible W) {limits : Limits} {b : Nat} (hb : 2 ≤ b) (hbW : b ≤ W) {k p : Word W}
    {run' : HostRun W} (tests : Nat) : ∀ (c : Word W) (used : Nat) (run : HostRun W), run.block.Accepts →
      CandidateInRange b c.toNat → primeSearch limits b k tests c used run = ⟨.value p, run'⟩ →
        CandidateInRange b p.toNat ∧ run'.block.Accepts ∧ run'.source <:+ run.source ∧
          CalledPrime k.toNat run.source p.toNat := by
  induction tests with
  | zero =>
    intro c used run _ _ h
    cases h
  | succ tests ih =>
    intro c used run ha hc h
    rw [primeSearch] at h
    obtain ⟨v, run₁, hpass, h⟩ := Ended.andThen_eq_value h
    obtain ⟨ha₁, hs₁, hcalled⟩ := candidatePasses_value hW ha hpass
    split at h
    · rename_i hv
      cases h
      exact ⟨hc, ha₁, hs₁, hcalled hv⟩
    · split at h
      · obtain ⟨c', run₂, hdraw, h⟩ := Ended.andThen_eq_value h
        obtain ⟨hc', hblock, hs₂⟩ := drawCandidate_value hb hbW hdraw
        obtain ⟨hp, ha', hs, hcalled'⟩ := ih c' 0 run₂ (hblock ▸ ha₁) hc' h
        exact ⟨hp, ha', hs.trans (hs₂.trans hs₁), hcalled'.of_suffix (hs₂.trans hs₁)⟩
      · rename_i hstay
        obtain ⟨hroom, -⟩ := Bool.or_eq_false_iff.1 (Bool.eq_false_iff.2 hstay)
        obtain ⟨hp, ha', hs, hcalled'⟩ := ih (c + 2) (used + 1) run₁ ha₁ (next_candidate_inRange hW hbW hc hroom) h
        exact ⟨hp, ha', hs.trans hs₁, hcalled'.of_suffix hs₁⟩

/-- What `generate_prime` answers (R160). -/
theorem generatePrime_value (hW : Config.Admissible W) {limits : Limits} {b : Nat} {k p : Word W} {run run' : HostRun W}
    (ha : run.block.Accepts) (h : generatePrime limits b k run = ⟨.value p, run'⟩) :
    2 ≤ b ∧ CandidateInRange b p.toNat ∧ run'.block.Accepts ∧ run'.source <:+ run.source ∧
      CalledPrime k.toNat run.source p.toNat := by
  rw [generatePrime] at h
  split at h
  · cases h
  · rename_i hvalid
    obtain ⟨hb, -, hbW⟩ := by simpa only [not_or, not_lt] using hvalid
    obtain ⟨c, run₁, hdraw, h⟩ := Ended.andThen_eq_value h
    obtain ⟨hc, hblock, hs₁⟩ := drawCandidate_value hb hbW hdraw
    obtain ⟨hp, ha', hs, hcalled⟩ := primeSearch_value hW hb hbW limits.tests c 0 run₁ (hblock ▸ ha) hc h
    exact ⟨hb, hp, ha', hs.trans hs₁, hcalled.of_suffix hs₁⟩

/-- Settles O54: the candidates stay in the range, by induction on the tests, and the one answered has passed its test. -/
theorem primeSearchStaysInRange : Obligations.PrimeSearchStaysInRange := by
  intro W hW limits b k p run run' ha h
  have hanswer : 2 ≤ b ∧ CandidateInRange b p.toNat ∧ run'.block.Accepts ∧ run'.source <:+ run.source ∧
      CalledPrime k.toNat run.source p.toNat := by
    obtain ⟨tests, c, used, hb, hbW, hc, hsearch⟩ | hgenerate := h
    · exact ⟨hb, primeSearch_value hW hb hbW tests c used run ha hc hsearch⟩
    · exact generatePrime_value hW ha hgenerate
  obtain ⟨hb, hp, ha', -, hcalled⟩ := hanswer
  exact ⟨hp, size_of_inRange (by omega) hp, ha', hcalled⟩

/-! ### Key generation (R164, R165) -/

/-- A prime that key generation accepts: of `b` bits, called probably prime, and with `p - 1` prime to `e`. -/
theorem acceptablePrime_value (hW : Config.Admissible W) {limits : Limits} {b : Nat} {e k p : Word W} {run' : HostRun W}
    (tries : Nat) : ∀ run : HostRun W, run.block.Accepts → acceptablePrime limits b e k tries run = ⟨.value p, run'⟩ →
      2 ≤ b ∧ CandidateInRange b p.toNat ∧ Nat.gcd e.toNat (p.toNat - 1) = 1 ∧ run'.block.Accepts ∧
        run'.source <:+ run.source ∧ CalledPrime k.toNat run.source p.toNat := by
  induction tries with
  | zero =>
    intro run _ h
    cases h
  | succ tries ih =>
    intro run ha h
    rw [acceptablePrime] at h
    obtain ⟨c, run₁, hgenerate, h⟩ := Ended.andThen_eq_value h
    obtain ⟨hb, hc, ha₁, hs₁, hcalled⟩ := generatePrime_value hW ha hgenerate
    obtain ⟨g, run₂, hgcd, h⟩ := Ended.andThen_eq_value h
    obtain ⟨hg, hs₂, ha₂⟩ := gcdForm_value hW ha₁ hgcd
    split at h
    · rename_i hone
      cases h
      have hpred : (p - 1).toNat = p.toNat - 1 := by
        have hle : (1 : Word W) ≤ p := by
          rw [BitVec.le_def, word_one_toNat hW]
          have := hc.1
          omega
        rw [BitVec.toNat_sub_of_le hle, word_one_toNat hW]
      rw [hone, word_one_toNat hW, hpred] at hg
      exact ⟨hb, hc, hg.symm, ha₂, hs₂ ▸ hs₁, hcalled⟩
    · have hs : run₂.source <:+ run.source := hs₂ ▸ hs₁
      obtain ⟨hb, hp, hco, ha', hs', hcalled'⟩ := ih run₂ ha₂ h
      exact ⟨hb, hp, hco, ha', hs'.trans hs, hcalled'.of_suffix hs⟩

/-- An odd number of at least two bits is 3 or more. -/
theorem three_le_of_inRange {b c : Nat} (hb : 2 ≤ b) (hc : CandidateInRange b c) : 3 ≤ c := by
  obtain ⟨hodd, hlow, -⟩ := hc
  have : 2 ^ 1 ≤ 2 ^ (b - 1) := Nat.pow_le_pow_right (by norm_num) (by omega)
  omega

/-- Settles O55: the two primes are those of the searches, and the rest is the arithmetic of steps 3 to 6. -/
theorem generatedKeysAreSound : Obligations.GeneratedKeysAreSound := by
  intro W hW limits totalBits e k run run' key ha h
  rw [generateKeyPair] at h
  split at h
  · cases h
  · rename_i hvalid
    simp only [Contracts.keyArgumentsInvalid, decide_eq_true_eq, not_or, not_lt, not_le] at hvalid
    obtain ⟨he, -, -, htotal⟩ := hvalid
    obtain ⟨p, run₁, hp, h⟩ := Ended.andThen_eq_value h
    obtain ⟨q, run₂, hq, h⟩ := Ended.andThen_eq_value h
    obtain ⟨hb, hpr, hpco, ha₁, hs₁, hpcalled⟩ := acceptablePrime_value hW limits.primes run ha hp
    obtain ⟨hb', hqr, hqco, ha₂, -, hqcalled⟩ := acceptablePrime_value hW limits.primes run₁ ha₁ hq
    have hbits : p.toNat * q.toNat < 2 ^ totalBits := by
      obtain ⟨-, -, hplt⟩ := hpr
      obtain ⟨-, -, hqlt⟩ := hqr
      calc p.toNat * q.toNat < 2 ^ (totalBits / 2) * 2 ^ (totalBits - totalBits / 2) := Nat.mul_lt_mul'' hplt hqlt
        _ = 2 ^ totalBits := by rw [← pow_add, Nat.add_sub_cancel' (Nat.div_le_self _ _)]
    have hphi : 1 < (p.toNat - 1) * (q.toNat - 1) := by
      have hp3 := three_le_of_inRange hb hpr
      have hq3 := three_le_of_inRange hb' hqr
      calc 1 < 2 * 2 := by norm_num
        _ ≤ (p.toNat - 1) * (q.toNat - 1) := Nat.mul_le_mul (by omega) (by omega)
    obtain ⟨hn, rfl, hgcd, hd, hinv⟩ :=
      keyFromPrimes_value hW ha₂ (lt_of_lt_of_le hbits (Nat.pow_le_pow_right (by norm_num) htotal)) hphi h
    exact ⟨p.toNat, q.toNat, hpr, hqr, hpcalled, hqcalled.of_suffix hs₁, hn, hn ▸ hbits, rfl, he,
      hpco, hqco, hgcd, hd, hinv⟩

end Sys2Proof.Machine

namespace Sys2Proof.Machine

variable {W : Nat}

open Contracts (Limits leavesRange drawCandidate candidatePasses primeSearch)
open Reference (CandidateOk WitnessOk mrRounds mrTest)

/-! ### A test whose first witness is out of range (R137, R141) -/

/-- A witness that ends the test with an error is out of range. -/
theorem not_witnessOk_of_error {n r d k j a : Nat} {e : ErrorCode} (h : mrRounds n r d k j [a] = .error e) :
    ¬ WitnessOk n a := by
  intro hw
  rw [mrRounds, if_pos hw] at h
  split_ifs at h
  simp [mrRounds] at h

/-- A test that fails on the witness taken fails in the step that checks it (R141). -/
theorem AtWork.witness_fails {F : List (Word W) → Option (CommandEnd W)} {ws : List (Word W)} {b t : State.At W}
    (h : AtWork .mrtest F ws b) (hs : b.stage = .witness) (hp : b.status.phase = some .run) {e : ErrorCode}
    (hF : F ws = some (.error e)) (ht : controllerStep b = .next t) : t = raiseError .argWitness b := by
  have hfuture := h.future []
  rw [List.append_nil, hF, endFrom_mrtest, testFrom_round (.inl hs), roundsFrom, List.map_nil] at hfuture
  have hbad : ¬ WitnessOk b.work.mn.toNat b.work.ma.toNat := by
    obtain ⟨hmn, -⟩ := h.running
    rw [hmn]
    cases hrounds : mrRounds b.opm.toNat (Reference.decompose b.opm.toNat).1 (Reference.decompose b.opm.toNat).2
      b.rounds.toNat b.work.mj.toNat [b.work.ma.toNat] with
    | error e' => exact not_witnessOk_of_error hrounds
    | verdict v j => rw [hrounds] at hfuture; cases hfuture
    | waiting j => rw [hrounds] at hfuture; cases hfuture
  rw [← witnessOk_iff, Bool.not_eq_true] at hbad
  rw [controllerStep_run hp h.opcode] at ht
  simp only [iterate, iterMrtest, hs, hbad, Bool.not_false, if_true] at ht
  exact (Host.Outcome.next.inj ht).symm

/-- The turns that an `MRTEST` has still to take before it is done with its first witness, when that one is out of range:
its entry, one for each halving, its request, the check. -/
def firstWitnessTurns (s : State.At W) : Nat :=
  if s.status.done then 0
  else
    match s.stage with
    | .entry => W + 4
    | .decompose => W - s.work.mr.toNat + 3
    | _ => if s.status.wreq then 1 else 2

theorem firstWitnessTurns_pos {s : State.At W} (hd : s.status.done = false) : 0 < firstWitnessTurns s := by
  rw [firstWitnessTurns, if_neg (by simp [hd])]
  split
  · omega
  · omega
  · split <;> decide

/-- In the loop of R131 what makes the work left less makes `mr` more. -/
theorem mr_lt_of_md_lt {w w' : Working W} (h : DecomposePoint w) (h' : DecomposePoint w') (hmn : w'.mn = w.mn)
    (hlt : w'.md.toNat < w.md.toNat) : w.mr.toNat < w'.mr.toNat := by
  obtain ⟨hprod, -⟩ := h
  obtain ⟨hprod', -⟩ := h'
  rw [hmn] at hprod'
  by_contra hle
  have hpow : 2 ^ w'.mr.toNat ≤ 2 ^ w.mr.toNat := Nat.pow_le_pow_right (by norm_num) (Nat.not_lt.1 hle)
  have hless : 2 ^ w'.mr.toNat * w'.md.toNat < 2 ^ w.mr.toNat * w.md.toNat :=
    lt_of_le_of_lt (Nat.mul_le_mul_right _ hpow) (Nat.mul_lt_mul_of_pos_left hlt (by positivity))
  omega

/-- The decomposition of a running `MRTEST`, at its loop (R131). -/
theorem decomposePoint_of_running {s : State.At W} (h : s.Running .mrtest) (hs : s.stage = .decompose) :
    DecomposePoint s.work ∧ s.work.mn = s.opm := by
  obtain ⟨hn, -, -, hp⟩ := h
  rw [hs] at hp
  obtain ⟨-, -, -, hp⟩ := hp
  exact ⟨hp, hn⟩

/-- Before its first witness each turn of an `MRTEST` that does not end it is one less to take. -/
theorem AtWork.firstWitnessTurns_lt (hW : Config.Admissible W) {F : List (Word W) → Option (CommandEnd W)}
    {ws : List (Word W)} {b t : State.At W} (h : AtWork .mrtest F ws b) (hp : b.status.phase = some .run)
    (hu : Unwitnessed .mrtest b.stage) (ht : controllerStep b = .next t) :
    firstWitnessTurns t < firstWitnessTurns b ∧ (t.status.done = false → Unwitnessed .mrtest t.stage) := by
  obtain ⟨-, hd, hw⟩ := (phase_run_iff _).1 hp
  have hi := controllerStep_iteration hW hp h.opcode h.running
  rw [ht] at hi
  cases hi with
  | go w g hr' hlt hg =>
    refine ⟨?_, fun _ => hg.unwitnessed hu⟩
    obtain ⟨hs, rfl, -⟩ | ⟨hs, rfl⟩ | ⟨hs, rfl, -⟩ | ⟨hs, -⟩ | ⟨hs, -⟩ := hg
    · simp only [firstWitnessTurns, hd, hs, Bool.false_eq_true, if_false]
      omega
    · obtain ⟨hpoint, hmn⟩ := decomposePoint_of_running h.running hs
      obtain ⟨hpoint', hmn'⟩ : DecomposePoint w ∧ w.mn = b.opm := decomposePoint_of_running hr' rfl
      have hmd : w.md.toNat < b.work.md.toNat := by
        simpa [remaining, hs] using hlt
      have hmr := mr_lt_of_md_lt hpoint hpoint' (hmn'.trans hmn.symm) hmd
      have hroom := decomposePoint_mr hpoint'
      simp only [firstWitnessTurns, hd, hs, Bool.false_eq_true, if_false] at hroom ⊢
      omega
    · simp only [firstWitnessTurns, hd, hw, hs, Bool.false_eq_true, if_false]
      omega
    · rcases hs with hs | hs | hs <;> simp [Unwitnessed, hs] at hu
    · rcases hs with hs | hs <;> simp [Unwitnessed, hs] at hu
  | ask _ hs => exact ⟨by simp [firstWitnessTurns, hd, hw, hs], fun _ => hu⟩
  | err e _ _ => exact ⟨firstWitnessTurns_pos hd, by simp⟩
  | fin w r0 r1 r2 _ => exact ⟨firstWitnessTurns_pos hd, by simp⟩

/-- A call form of `MRTEST` begun in `run` is served, fewer than `n` turns are left to take, and unless it has ended it has
taken no witness yet. -/
def FirstWitnessWithin (c k : Word W) (run : HostRun W) (n : Nat) (run' : HostRun W) : Prop :=
  Served .mrtest (formEnd (.mrtest c k []) run) run.source run' ∧ firstWitnessTurns run'.block < n ∧
    (run'.block.status.done = false → run'.source = run.source ∧ Unwitnessed .mrtest run'.block.stage)

/-- One turn of the others is one less to take, when the first witness ends the test. -/
theorem FirstWitnessWithin.othersTurn (hW : Config.Admissible W) {c k a : Word W} {rest : List (Word W)}
    {run run' : HostRun W} {n : Nat} {e : ErrorCode} (hs : run.source = a :: rest)
    (hfails : formEnd (.mrtest c k []) run [a] = some (.error e)) (h : FirstWitnessWithin c k run (n + 1) run')
    (hd : run'.block.status.done = false) :
    ∃ run'', othersTurn run' = ⟨.value (), run''⟩ ∧ FirstWitnessWithin c k run n run'' := by
  obtain ⟨hserved, hleft, hfirst⟩ := h
  obtain ⟨hs', hu⟩ := hfirst hd
  obtain ⟨_, -, -, hrun⟩ := hserved.atWork hd
  cases hw : run'.block.status.wreq with
  | false =>
    obtain ⟨rs, t, ht, hothers, hserved'⟩ := hserved.controllerTurn hW hd hw
    obtain ⟨hless, hu'⟩ := (hrun.logged rs).firstWitnessTurns_lt hW ((phase_run_iff _).2 ⟨hrun.busy, hd, hw⟩) hu ht
    exact ⟨_, hothers, hserved', lt_of_lt_of_le hless (Nat.le_of_lt_succ hleft), fun hd' => ⟨hs', hu' hd'⟩⟩
  | true =>
    obtain ⟨b, t, ws, hsource, hwork, hstage, hp, ht, hothers, hserved'⟩ := hserved.witnessTurn hW hd hw (hs'.trans hs)
    obtain rfl : ws = [] := List.self_eq_append_left.1 (hs.symm.trans hsource)
    obtain rfl := hwork.witness_fails hstage hp hfails ht
    exact ⟨_, hothers, hserved', lt_of_lt_of_le (firstWitnessTurns_pos hd) (Nat.le_of_lt_succ hleft), by simp⟩

/-- On a candidate that its rule accepts, other than 3, an `MRTEST` ends as its rounds have it (R141). -/
theorem formEnd_mrtest_eq_rounds (hW : Config.Admissible W) {c k : Word W} (hc : CandidateOk c.toNat) (h3 : c ≠ 3)
    (hk : k ≠ 0) (run : HostRun W) (ws : List (Word W)) :
    formEnd (.mrtest c k []) run ws = testCommandEnd (mrRounds c.toNat (Reference.decompose c.toNat).1
      (Reference.decompose c.toNat).2 k.toNat 0 (ws.map BitVec.toNat)) := by
  rw [formEnd_mrtest, mrTest, if_neg (not_not.2 hc), if_neg (word_pos hk).ne',
    if_neg fun h => h3 (BitVec.eq_of_toNat_eq (h.trans (word_three_toNat hW).symm))]

/-- With `W + 8` polls the call form of `MRTEST` on a candidate that its rule accepts reports code 4 after a first witness
out of range, and has taken that witness (R170). -/
theorem mrtestForm_badWitness (hW : Config.Admissible W) {run : HostRun W} {polls : Nat} (ha : run.block.Accepts)
    (hpolls : W + 8 ≤ polls) {c k a : Word W} {rest : List (Word W)} (hc : CandidateOk c.toNat) (h3 : c ≠ 3) (hk : k ≠ 0)
    (hs : run.source = a :: rest) (hbad : ¬ WitnessOk c.toNat a.toNat) :
    ∃ run', run'.source = rest ∧ run'.block.Accepts ∧
      runForRes0 polls (.mrtest c k []) run = ⟨.failed (.blockError 4), run'⟩ := by
  have hopen : formEnd (.mrtest c k []) run [] = none := formEnd_mrtest_eq_rounds hW hc h3 hk run []
  have hfails : ∀ ws, formEnd (.mrtest c k []) run (a :: ws) = some (.error .argWitness) := by
    intro ws
    rw [formEnd_mrtest_eq_rounds hW hc h3 hk, List.map_cons, mrRounds, if_neg hbad]
    rfl
  obtain ⟨run', hpoll, -⟩ | ⟨r, run', hx, hends⟩ := runForRes0_cases hW polls ha (mrtestForm_witnesses (c := c) (k := k))
  · have hbegin : FirstWitnessWithin c k run polls (issuedRun (.mrtest c k []) run) :=
      ⟨issuedRun_served ha _, show W + 4 < polls by omega, fun _ => ⟨rfl, fun _ => .inl rfl⟩⟩
    obtain ⟨_, _, hpoll', -⟩ | ⟨_, -, -, hleft, -⟩ := pollStatus_wait_invariant (P := FirstWitnessWithin c k run) hW
      (fun _ _ rs ⟨hserved, hrest⟩ => ⟨hserved.logged rs, hrest⟩) (fun _ _ h hd => h.othersTurn hW hs (hfails []) hd) polls _ hbegin
    · cases hpoll.symm.trans hpoll'
    · omega
  · obtain ⟨ws, hsource, hbefore, hend⟩ := hends.taken
    rw [hs] at hsource
    cases ws with
    | nil => cases hopen.symm.trans hend
    | cons x ws =>
      obtain ⟨rfl, hrest⟩ := List.cons.inj hsource
      obtain rfl := Option.some.inj ((hfails ws).symm.trans hend)
      cases ws with
      | nil => exact ⟨run', hrest.symm, hends.accepts, hx⟩
      | cons y ws => cases (hfails []).symm.trans (hbefore 1 (by simp))

/-- A search whose test ends in an error reports it (R170), or goes on as after any failed test (R161; log 17). -/
theorem primeSearch_testError {limits : Limits} {b tests used : Nat} {c k : Word W} {run run' : HostRun W} {code : BitVec 4}
    (h : runForRes0 limits.polls (.mrtest c k []) run = ⟨.failed (.blockError code), run'⟩) :
    primeSearch limits b k (tests + 1) c used run =
      if limits.reportTestErrors then ⟨.failed (.blockError code), run'⟩
      else if leavesRange b c || decide (limits.maxIncrements ≤ used) then
        (drawCandidate b run').andThen fun c run => primeSearch limits b k tests c 0 run
      else primeSearch limits b k tests (c + 2) (used + 1) run' := by
  rw [primeSearch, candidatePasses, isprimeForm, h]
  cases limits.reportTestErrors <;> rfl

/-- Settles O56: the refusals are the first thing each procedure does, and the two errors of the block end its command. -/
theorem hostErrorsAreReported : Obligations.HostErrorsAreReported := by
  intro W hW limits run
  refine ⟨fun b k h => if_pos h, fun totalBits e k h => if_pos (decide_eq_true h), fun v e n h => if_pos h,
    fun ha hpolls => ⟨fun c d => ?_, fun b tests used c k a rest hc h3 hk hs hbad => ?_⟩⟩
  · obtain ⟨run', -, hx⟩ := powmodForm_answers hW ha (polls := limits.polls) (by omega) c d 0
    rw [Contracts.decryptUnit, decryptForm, hx]
    rfl
  · obtain ⟨run', hsource, ha', hx⟩ := mrtestForm_badWitness hW ha hpolls hc h3 hk hs hbad
    exact ⟨run', hsource, ha', primeSearch_testError hx⟩

end Sys2Proof.Machine

namespace Sys2Proof.Machine

variable {W : Nat}

open Reference (CandidateOk mrTest)

/-! ### Who makes an access (R60, R195) -/

/-- An access that reaches a register reads it, whoever makes it (R55). -/
theorem perform_read {offset bytes : Nat} {r : Reg} (hr : regOfAccess offset bytes W = some r) (who : Agent)
    (s : State.At W) : perform (.read who offset bytes) s = .next (regRead who r s) := by
  rw [perform, hr]

/-- Settles O16: the writer is not looked at, and a read is `regRead`, which names the reader in its log entry alone. -/
theorem agentsAreAlike : Obligations.AgentsAreAlike :=
  fun s a b _ _ _ => ⟨rfl, fun r hr =>
    ⟨_, _, readValue r s, perform_read hr a s, perform_read hr b s, rfl, rfl⟩⟩

/-! ### The argument checks of `MRROUND` and `MRTEST` (R190) -/

/-- Settles O29: the error that `MRROUND` has by its operands is that of the first check that fails. -/
theorem mrroundChecksItsArguments : Obligations.MrroundChecksItsArguments := by
  intro s ha
  refine ⟨fun hn => ?_, fun hc hw => ?_⟩
  · exact ends_of_unwitnessedError (i := .mrround) (by decide) ha (if_pos hn) (by decide)
  · exact ends_of_unwitnessedError (i := .mrround) (by decide) ha ((if_neg (not_not.2 hc)).trans (if_pos hw)) (by decide)

/-- An accepted `MRTEST` to which no witness is delivered ends as its test does with none (R141, R142). -/
theorem ends_of_mrTest_nil {s : State} (ha : s.Accepts) :
    Ends .mrtest s (testEnd (issuedBlock .mrtest s) (mrTest s.opm.toNat s.rounds.toNat [])) := by
  obtain ⟨-, hw, -⟩ := (accepts_iff s).1 ha
  obtain ⟨he, hp⟩ := exec_accepted .mrtest ha
  obtain ⟨u, ⟨⟨n, hn⟩, -⟩, hsame⟩ := mrtest_serves admissible_reference [] hp rfl
    (issuedBlock_running .mrtest hw) (by simp)
  rw [testFrom_issuedBlock] at hsame
  exact ⟨_, he, hp, n, u, hn, hsame⟩

/-- Settles O30: with no witness delivered, the test has ended by then, at the first of its checks that decides it. -/
theorem mrtestChecksItsArguments : Obligations.MrtestChecksItsArguments := by
  intro s ha
  have hend := ends_of_mrTest_nil ha
  refine ⟨fun hn => ?_, fun hc hk => ?_, fun h3 hk => ?_⟩
  · rw [mrTest, if_pos hn] at hend
    exact hend
  · rw [mrTest, if_neg (not_not.2 hc), if_pos ((word_eq_zero_iff _).1 hk)] at hend
    exact hend
  · have h3' : s.opm.toNat = 3 := by rw [h3, word_three_toNat admissible_reference]
    rw [mrTest, h3', if_neg (by decide), if_neg (word_pos hk).ne', if_pos rfl] at hend
    exact hend

/-! ### Errors are precise (R181, R191, R192) -/

/-- The listed codes are 1 to 6, and 6 is the internal error's (R181). -/
theorem ErrorCode.code_listed (e : ErrorCode) :
    1 ≤ e.code.toNat ∧ e.code.toNat ≤ 6 ∧ (e = .internal ↔ e.code = 6) := by
  cases e <;> decide

/-- `FATAL` is set by error code 6 and stays set (R34, R191). -/
theorem Status.failed_fatal_iff (e : ErrorCode) (f : Status) :
    (f.failed e).fatal = true ↔ f.fatal = true ∨ e.code = 6 := by
  obtain ⟨-, -, hinternal⟩ := e.code_listed
  simp [hinternal]

/-- The error entries of a step: of the running command, or of an accepted word that names none. `f` is `STATUS` before
the entry (R75, R191). -/
inductive ErrorEntry (s : State.At W) : State.At W → Prop
  | mk (e : ErrorCode) (f : Status) : f.fatal = s.status.fatal → f.hzd = s.status.hzd →
      (s.status.busy = true → f.opc = s.status.opc) → ErrorEntry s (raiseError e { eventTaken s with status := f })

/-- A turn of the controller that newly sets `ERR` is an error entry. -/
theorem Turn.newError {s t : State.At W} (h : Turn s t) (hs : s.status.err = false) (ht : t.status.err = true) :
    ∃ e, t = raiseError e s := by
  have same : s.status.err ≠ true := by simp [hs]
  cases h with
  | error e _ => exact ⟨e, rfl⟩
  | rest _ => exact absurd ht same
  | work _ _ _ => exact absurd ht same
  | ask _ _ => exact absurd ht same
  | complete _ _ _ _ _ _ _ => exact absurd ht same

/-- Every step that newly sets `ERR` is an error entry. -/
theorem stepAt_newError (hW : Config.Admissible W) {s t : State.At W} (hs : stepAt s = .next t)
    (he : s.status.err = false) (ht : t.status.err = true) : ErrorEntry s t := by
  have same : s.status.err ≠ true := by simp [he]
  cases step_cases hW hs with
  | turn _ hturn _ _ =>
    obtain ⟨e, rfl⟩ := Turn.newError (s := eventTaken s) hturn he ht
    exact .mk e s.status rfl rfl fun _ => rfl
  | illegal c _ _ hb _ => exact .mk .illegalCmd _ rfl rfl fun hb' => absurd (hb.symm.trans hb') (by decide)
  | accept _ _ _ _ _ _ _ _ => cases ht
  | reset _ => cases ht
  | read _ _ _ => exact absurd ht same
  | drop _ => exact absurd ht same
  | none _ => exact absurd ht same
  | opa _ _ _ => exact absurd ht same
  | opb _ _ _ => exact absurd ht same
  | opm _ _ _ => exact absurd ht same
  | rounds _ _ _ => exact absurd ht same
  | witness _ _ _ => exact absurd ht same

/-- Settles O35: an error entry sets the report, and changes nothing else but the event taken. -/
theorem errorsArePrecise : Obligations.ErrorsArePrecise := by
  intro s t hs he ht
  obtain ⟨e, f, hfatal, hhzd, hopc⟩ := stepAt_newError admissible_reference hs he ht
  obtain ⟨hpos, hle, -⟩ := e.code_listed
  exact ⟨rfl, rfl, rfl, hpos, hle, hfatal ▸ f.failed_fatal_iff e, rfl, rfl, rfl, rfl, rfl, rfl, rfl, hhzd, rfl, rfl, rfl,
    hopc⟩

/-! ### The fatal error latches (R34, R194) -/

/-- Any word written to `CMD` while a command runs or after a fatal error is dropped (R72, R218). -/
theorem regWrite_cmd_dropped {s : State.At W} (h : s.status.busy = true ∨ s.status.fatal = true) (c : Word W) :
    regWrite .cmd c s = .next (dropWithHazard s) := by
  cases hc : decode c with
  | none => rw [regWrite_cmd_illegal hc, issueIllegal_dropped h]
  | some i =>
    obtain ⟨w, hw⟩ := execAt_eq_issue i s
    rw [regWrite_cmd_legal hc, hw, issue_dropped _ _ _ h]

/-- After a fatal error a step that is no reset leaves `STATUS` as it was, or sets `HZD` (R194). -/
theorem stepAt_status_of_fatal (hW : Config.Admissible W) {s t : State.At W} (hs : stepAt s = .next t)
    (hf : s.status.fatal = true) (hb : s.status.busy = false) (hw : s.status.wreq = false) (hr : s.resetNext = false) :
    t.status = s.status ∨ t.status = s.status.hazard := by
  have hrest : s.status.phase ≠ some .run := fun hp => by simp [(phase_run_iff _).1 hp] at hb
  cases step_cases hW hs with
  | turn _ _ _ hc =>
    obtain rfl := Host.Outcome.next.inj ((controllerStep_rest (s := eventTaken s) hrest).symm.trans hc)
    exact .inl rfl
  | drop _ => exact .inr rfl
  | accept _ _ _ _ _ _ hf' _ => exact absurd (hf.symm.trans hf') (by decide)
  | illegal _ _ _ _ hf' => exact absurd (hf.symm.trans hf') (by decide)
  | witness _ _ hw' => exact absurd (hw.symm.trans hw') (by decide)
  | reset hr' => exact absurd (hr.symm.trans hr') (by decide)
  | read _ _ _ => exact .inl rfl
  | none _ => exact .inl rfl
  | opa _ _ _ => exact .inl rfl
  | opb _ _ _ => exact .inl rfl
  | opm _ _ _ => exact .inl rfl
  | rounds _ _ _ => exact .inl rfl

/-- Settles O36: `CMD` writes are dropped, and what a step can do to `STATUS` is to set `HZD`. -/
theorem fatalErrorLatches : Obligations.FatalErrorLatches := by
  intro s t hf hb hw hs hr
  refine ⟨regWrite_cmd_dropped (.inr hf), ?_⟩
  obtain h | h := stepAt_status_of_fatal admissible_reference hs hf hb hw hr <;> rw [h]
  · exact ⟨hf, hb, hw, rfl, rfl, rfl⟩
  · exact ⟨hf, hb, hw, rfl, rfl, rfl⟩

end Sys2Proof.Machine

namespace Sys2Proof.Machine

variable {W : Nat}

/-! ### How many iterations a `POWMOD` takes (R114, R222) -/

/-- Halving drops exactly one bit. -/
theorem size_eq_size_half_succ {n : Nat} (hn : n ≠ 0) : Nat.size n = Nat.size (n / 2) + 1 := by
  have hbit : Nat.bit (n.testBit 0) (n / 2) = n := Nat.bit_testBit_zero_shiftRight_one n
  conv_lhs => rw [← hbit]
  exact Nat.size_bit (by rwa [hbit])

/-- The loop of R114 as the running controller finds it before each pass. -/
structure AtPowerLoop (s : State.At W) : Prop where
  phase : s.status.phase = some .run
  opcode : s.status.opc = Instr.powmod.opcode
  stage : s.stage = .power

/-- With a modulus, the entry step of `POWMOD` comes to the loop with the exponent it copied (R114). -/
theorem powmod_entry_step {s : State.At W} (hp : s.status.phase = some .run)
    (ho : s.status.opc = Instr.powmod.opcode) (hs : s.stage = .entry) (hm : s.work.pm ≠ 0) :
    ∃ t, controllerStep s = .next t ∧ AtPowerLoop t ∧ t.work.pe = s.work.pe := by
  rw [controllerStep_run hp ho, iterate, iterPowmod, hs]
  exact ⟨_, if_neg hm, ⟨hp, ho, rfl⟩, rfl⟩

/-- As long as the exponent is not used up, a step is a pass of the loop, which halves it (R114). -/
theorem AtPowerLoop.pass {s : State.At W} (h : AtPowerLoop s) (he : s.work.pe ≠ 0) :
    ∃ t, controllerStep s = .next t ∧ AtPowerLoop t ∧ t.work.pe.toNat = s.work.pe.toNat / 2 := by
  rw [controllerStep_run h.phase h.opcode, iterate, iterPowmod, h.stage]
  exact ⟨_, if_neg he, ⟨h.phase, h.opcode, rfl⟩, word_half_toNat _⟩

/-- With the exponent used up, a step ends the command (R115). -/
theorem AtPowerLoop.ends {s : State.At W} (h : AtPowerLoop s) (he : s.work.pe = 0) :
    ∃ t, controllerStep s = .next t ∧ t.status.phase = some .done := by
  rw [controllerStep_run h.phase h.opcode, iterate, iterPowmod, h.stage]
  exact ⟨_, if_pos he, rfl⟩

/-- The loop makes one pass for each bit of the exponent, and the command runs all the while. -/
theorem AtPowerLoop.passes (k : Nat) : ∀ {s : State.At W}, AtPowerLoop s → Nat.size s.work.pe.toNat = k →
    ∃ t, controllerRun k s = .next t ∧ AtPowerLoop t ∧ t.work.pe = 0 := by
  induction k with
  | zero =>
    intro s h hk
    exact ⟨s, rfl, h, (word_eq_zero_iff _).2 (Nat.size_eq_zero.1 hk)⟩
  | succ k ih =>
    intro s h hk
    have he : s.work.pe ≠ 0 := fun he => by simp [he] at hk
    obtain ⟨t, hstep, hloop, hhalf⟩ := h.pass he
    have hleft : Nat.size t.work.pe.toNat = k := by
      have := size_eq_size_half_succ (word_pos he).ne'
      rw [hhalf]
      omega
    obtain ⟨u, hrun, hu⟩ := ih hloop hleft
    exact ⟨u, (controllerRun_succ hstep k).trans hrun, hu⟩

/-- Settles O26: the entry step comes to the loop, which makes `bitlen(e)` passes, and the step after them is the exit. -/
theorem powmodTakesBitlenIterations : Obligations.PowmodTakesBitlenIterations := by
  intro s t ha hm he
  obtain ⟨hissue, hp⟩ := exec_accepted .powmod ha
  obtain rfl : issuedBlock .powmod s = t := Host.Outcome.next.inj (hissue.symm.trans he)
  obtain ⟨t, hentry, hloop, hpe⟩ := powmod_entry_step hp rfl rfl hm
  obtain ⟨u, hpasses, huloop, hused⟩ := hloop.passes (Nat.size s.opb.toNat) (by rw [hpe]; rfl)
  obtain ⟨v, hexit, hdone⟩ := huloop.ends hused
  have hrun : controllerRun (Nat.size s.opb.toNat + 1) (issuedBlock .powmod s) = .next u :=
    (controllerRun_succ hentry _).trans hpasses
  exact ⟨⟨u, hrun, huloop.phase⟩, v, (controllerRun_add hrun).trans ((controllerRun_one u).trans hexit), hdone⟩

/-! ### A running controller comes to rest (R224) -/

/-- Settles O48: the work left to the running command falls until it ends or asks for a witness. -/
theorem runEndsInDoneOrWait : Obligations.RunEndsInDoneOrWait := by
  intro s h hp
  obtain ⟨i, ho, hr⟩ := h.running hp
  exact reaches_done_or_waitw admissible_reference _ rfl hp ho hr

/-! ### Writes that are dropped (R215, R218) -/

/-- Every command's issue is dropped while a command runs or after a fatal error (R72). -/
theorem execAt_dropped {s : State.At W} (h : s.status.busy = true ∨ s.status.fatal = true) (i : Instr) :
    execAt i s = .next (dropWithHazard s) := by
  obtain ⟨w, hw⟩ := execAt_eq_issue i s
  rw [hw, issue_dropped _ _ _ h]

/-- Settles O6: any word is dropped, and so is any command's issue. -/
theorem commandWriteDroppedWhileBusyOrFatal : Obligations.CommandWriteDroppedWhileBusyOrFatal :=
  fun _ h => ⟨regWrite_cmd_dropped h, fun i => (exec_eq_execAt i _).trans (execAt_dropped h i)⟩

/-- An operand write is dropped while a command runs (R215). -/
theorem writeOperand_dropped {s : State.At W} (hb : s.status.busy = true) (taken : State.At W) :
    writeOperand taken s = dropWithHazard s :=
  if_pos hb

/-- An operand write is taken while no command runs (R56). -/
theorem writeOperand_taken {s : State.At W} (hb : s.status.busy = false) (taken : State.At W) :
    writeOperand taken s = taken :=
  if_neg (by simp [hb])

/-- Settles O9: each of the four registers is written by `writeOperand`, which drops or takes the value by `BUSY`. -/
theorem operandWritesTakenOrDropped : Obligations.OperandWritesTakenOrDropped := by
  intro s v
  refine ⟨fun hb r hr => ?_, fun hb => ?_⟩
  · have drop : ∀ taken, (Host.Outcome.next (writeOperand taken s) : Result _) = .next (dropWithHazard s) :=
      fun taken => congrArg _ (writeOperand_dropped hb taken)
    obtain rfl | rfl | rfl | rfl := hr <;> exact drop _
  · have take : ∀ taken, (Host.Outcome.next (writeOperand taken s) : Result _) = .next taken :=
      fun taken => congrArg _ (writeOperand_taken hb taken)
    exact ⟨take _, take _, take _, take _⟩

/-! ### The block after a reset (R210, R211, R214) -/

/-- Settles O18: the registers are those of power-on, whose `STATUS` is 0, so no witness is wanted. -/
theorem resetEventClearsAnyState : Obligations.ResetEventClearsAnyState := by
  intro s
  obtain ⟨hread, -⟩ := resetClearsEverySlot
  have hword : Status.reset.word = 0 := (readValue_status State.reset).symm.trans (hread .status)
  exact ⟨resetBlock s, rfl, rfl, rfl, rfl, rfl, rfl, rfl, rfl, hword, rfl, ⟨.inl rfl, rfl⟩,
    regWrite_witness_unwanted (s := resetBlock s) rfl⟩

/-- Settles O19: what each command ends with on its operands, at 0. -/
theorem commandsOnNeverWrittenOperands : Obligations.CommandsOnNeverWrittenOperands := by
  intro s ha hopa hopb hopm hrounds
  have hn : s.opm.toNat = 0 := (word_eq_zero_iff _).1 hopm
  have hcand : ¬ Reference.CandidateOk s.opm.toNat := by rw [hn]; decide
  have hgcd : unwitnessedEnd .gcd s.opa s.opb s.opm s.rounds = .ok (0, none, none) := by
    rw [hopa, hopb]; rfl
  have hxgcd : unwitnessedEnd .xgcd s.opa s.opb s.opm s.rounds = .ok (0, some 1, some 0) := by
    rw [hopa, hopb]; rfl
  obtain ⟨-, hmulmod, -⟩ := mulmodMultipliesExactly s ha
  obtain ⟨-, hpowmod⟩ := powmodRaisesToThePower s ha
  obtain ⟨-, hfactor⟩ := factorDecomposes s ha
  obtain ⟨hmrround, -⟩ := mrroundChecksItsArguments s ha
  obtain ⟨hmrtest, -⟩ := mrtestChecksItsArguments s ha
  exact ⟨ends_of_unwitnessedEnd (i := .gcd) (by decide) ha hgcd,
    ends_of_unwitnessedEnd (i := .xgcd) (by decide) ha hxgcd,
    hmulmod hopm, hpowmod hopm, hfactor (by omega), hmrround hcand, hmrtest hcand⟩

end Sys2Proof.Machine
